-- ==== Sys2Proof/Word.lean ====
section
/-! DEFINITION. The bus word and the buffer byte (R13: registers are 32 bits, buffer elements 8 bits). -/

namespace Sys2Proof

/-- One 32-bit bus word, control register or command word (R13, R41, R54). -/
abbrev Word := BitVec 32

/-- One element of IBUF or OBUF (R13). -/
abbrev Byte := BitVec 8

end Sys2Proof
end

