-- ==== Sys2Proof/Machine/Numbers.lean ====
section
/-! DEFINITION. The spec's notation for numbers and byte strings (R8 to R11), the iterative extended Euclid of R59 and
the modular power behind R75. Every definition works on unbounded integers (R8, R15) and recurses structurally on a
list or on fuel, so that it can be evaluated; Laws/Numbers.lean proves that the fuel always suffices. -/

namespace Sys2Proof

/-- `v[hi:lo]` of R8: `(v div 2^lo) mod 2^(hi - lo + 1)`. -/
def bits (v hi lo : Nat) : Nat := v / 2 ^ lo % 2 ^ (hi - lo + 1)

/-- `bitlen(v)` of R9. -/
def bitlen (v : Nat) : Nat := if v = 0 then 0 else Nat.log2 v + 1

/-- `sext_N(v)` of R8: the N-bit pattern v read as a two's-complement number. -/
def sext (n v : Nat) : Int := if v / 2 ^ (n - 1) % 2 = 1 then (v : Int) - 2 ^ n else v

/-- The N-bit pattern `v mod 2^N` that `S_signed[X] <- v` stages (R12, R17). -/
def twosComplement (n : Nat) (v : Int) : Nat := (v % 2 ^ n).toNat

/-- `be(B)` of R10: the first byte is the most significant (Horner's form of the sum). -/
def be (bytes : List Byte) : Nat := bytes.foldl (fun acc b => acc * 256 + b.toNat) 0

/-- `be_bytes(v, L)` of R10, leading zero bytes included. -/
def beBytes (v : Nat) : Nat → List Byte
  | 0 => []
  | len + 1 => BitVec.ofNat 8 (v / 256 ^ len) :: beBytes v len

/-- The byte 0x30 + d of the decimal digit d (R11). -/
def digitByte (d : Nat) : Byte := BitVec.ofNat 8 (0x30 + d)

/-- The decimal digits of v, most significant first, put before `acc`; at most `fuel` of them. -/
def decAux : Nat → Nat → List Byte → List Byte
  | 0, _, acc => acc
  | fuel + 1, v, acc => if v = 0 then acc else decAux fuel (v / 10) (digitByte (v % 10) :: acc)

/-- `dec(v)` of R11. -/
def dec (v : Nat) : List Byte := decAux v v []

/-- Whether a byte is in 0x30..0x39 (R11, R88). -/
def isDigit (b : Byte) : Bool := 0x30 ≤ b.toNat && b.toNat ≤ 0x39

/-- `undec(D)` of R11. -/
def undec (bytes : List Byte) : Nat := bytes.foldl (fun acc b => acc * 10 + (b.toNat - 0x30)) 0

/-- What `egcd` returns: the triple (g, x, y) of R59. -/
structure Bezout where
  g : Nat
  x : Int
  y : Int
deriving DecidableEq, Repr

/-- The loop of R59 with its six variables; `fuel` bounds the number of turns. -/
def egcdLoop : Nat → Nat → Nat → Int → Int → Int → Int → Bezout
  | 0, r0, _, s0, _, t0, _ => ⟨r0, s0, t0⟩
  | fuel + 1, r0, r1, s0, s1, t0, t1 =>
    if r1 = 0 then ⟨r0, s0, t0⟩
    else egcdLoop fuel r1 (r0 - r0 / r1 * r1) s1 (s0 - (r0 / r1 : Nat) * s1) t1 (t0 - (r0 / r1 : Nat) * t1)

/-- `egcd(a, b)` of R59. The second remainder falls in every turn, so b + 1 turns are enough. -/
def egcd (a b : Nat) : Bezout := egcdLoop (b + 1) a b 1 0 0 1

/-- Square and multiply: `acc * base^e mod m`. The exponent halves in every turn. -/
def powModLoop (m : Nat) : Nat → Nat → Nat → Nat → Nat
  | 0, _, _, acc => acc % m
  | fuel + 1, base, e, acc =>
    if e = 0 then acc % m
    else powModLoop m fuel (base * base % m) (e / 2) (if e % 2 = 1 then acc * base % m else acc)

/-- `base^e mod m`, computed without the unreduced power. -/
def powMod (base e m : Nat) : Nat := powModLoop m (e + 1) base e 1

end Sys2Proof
end

