-- ==== Sys2Proof/Syntax.lean ====
section
/-! DEFINITION. The thirteen commands of RA-CMD version 1 (R56), one constructor per row of spec/opcode_table.json. The
only operand of a command word is the byte count LEN of ENCBLK, DECBLK and HDR_PARSE (R54); every other operand is an
implied slot or register. -/

namespace Sys2Proof

/-- One command. A LEN operand is an unsigned count; WellFormed bounds it by its 16-bit field. -/
inductive Instr where
  | nop
  | egcd
  | pad
  | unpad
  | modsqr
  | sqrt
  | crt
  | encrypt
  | decrypt
  | encblk (len : Nat)
  | decblk (len : Nat)
  | hdrEmit
  | hdrParse (len : Nat)
deriving DecidableEq, Repr

/-- The LEN field of the command: its count, or 0 for an opcode that does not use LEN (R54). -/
def Instr.len : Instr → Nat
  | .encblk len => len
  | .decblk len => len
  | .hdrParse len => len
  | .nop => 0
  | .egcd => 0
  | .pad => 0
  | .unpad => 0
  | .modsqr => 0
  | .sqrt => 0
  | .crt => 0
  | .encrypt => 0
  | .decrypt => 0
  | .hdrEmit => 0

end Sys2Proof
end

