-- ==== Sys2Proof/WellFormed.lean ====
section
/-! DEFINITION. Which commands have an encoding: LEN is an unsigned 16-bit count (R54, R55). Whether a count is legal
for its command is a check of the command (R84, R85, R88), not of the encoding. -/

namespace Sys2Proof

/-- LEN fits its field, cmdword[31:16] (R54). -/
abbrev lenFits (len : Nat) : Prop := len < 65536

/-- A command that some command word encodes. -/
abbrev Instr.WellFormed (i : Instr) : Prop := lenFits i.len

end Sys2Proof
end

