-- ==== Sys2Proof/Decode.lean ====
section
/-! DEFINITION. The command word (R54, R55), the opcode map (R56) and the illegal words (R57): a decoder total on every
32-bit word, an encoder written from the same table, and the (match, mask) pairs of R56. -/

namespace Sys2Proof

/-- Why a command word is illegal (R57). All three are reported alike, as IllegalCommand. -/
inductive Illegal where
  /-- OP is 0x0D to 0xFF. -/
  | unassignedOpcode
  /-- RSV is not 0. -/
  | reservedNotZero
  /-- LEN is not 0 for an opcode that does not use LEN. -/
  | lengthNotZero
deriving DecidableEq, Repr

/-- What the decoder reads from a command word. -/
inductive Decoded where
  | instr (i : Instr)
  | illegal (r : Illegal)
deriving DecidableEq, Repr

/-- `op = cmdword[7:0]` (R55). -/
def opField (w : Word) : Nat := bits w.toNat 7 0

/-- `rsv = cmdword[15:8]` (R55). -/
def rsvField (w : Word) : Nat := bits w.toNat 15 8

/-- `len = cmdword[31:16]` (R55). -/
def lenField (w : Word) : Nat := bits w.toNat 31 16

/-- The opcode map of R56: the command of an OP value, with the LEN field as its count where LEN is used. -/
def commandOf (op len : Nat) : Option Instr :=
  match op with
  | 0x00 => some .nop
  | 0x01 => some .egcd
  | 0x02 => some .pad
  | 0x03 => some .unpad
  | 0x04 => some .modsqr
  | 0x05 => some .sqrt
  | 0x06 => some .crt
  | 0x07 => some .encrypt
  | 0x08 => some .decrypt
  | 0x09 => some (.encblk len)
  | 0x0A => some (.decblk len)
  | 0x0B => some .hdrEmit
  | 0x0C => some (.hdrParse len)
  | _ => none

/-- OP of R56. -/
def Instr.opcode : Instr → Nat
  | .nop => 0x00
  | .egcd => 0x01
  | .pad => 0x02
  | .unpad => 0x03
  | .modsqr => 0x04
  | .sqrt => 0x05
  | .crt => 0x06
  | .encrypt => 0x07
  | .decrypt => 0x08
  | .encblk _ => 0x09
  | .decblk _ => 0x0A
  | .hdrEmit => 0x0B
  | .hdrParse _ => 0x0C

/-- The column "LEN used" of R56. -/
def Instr.usesLen : Instr → Bool
  | .encblk _ => true
  | .decblk _ => true
  | .hdrParse _ => true
  | .nop => false
  | .egcd => false
  | .pad => false
  | .unpad => false
  | .modsqr => false
  | .sqrt => false
  | .crt => false
  | .encrypt => false
  | .decrypt => false
  | .hdrEmit => false

/-- The decoder. Which of the three reasons is named where several hold is the model's choice (log 13); no register
shows it. -/
def decode (w : Word) : Decoded :=
  if rsvField w ≠ 0 then .illegal .reservedNotZero
  else
    match commandOf (opField w) (lenField w) with
    | none => .illegal .unassignedOpcode
    | some i => if i.usesLen = false ∧ lenField w ≠ 0 then .illegal .lengthNotZero else .instr i

/-- The command word of a command: LEN in [31:16], RSV = 0, OP in [7:0] (R54). -/
def encode (i : Instr) : Word := BitVec.ofNat 32 (i.len * 65536 + i.opcode)

/-- The mask of R56: 0x0000FFFF where LEN is used, 0xFFFFFFFF elsewhere. -/
def Instr.mask (i : Instr) : Word := if i.usesLen then 0x0000FFFF#32 else 0xFFFFFFFF#32

/-- The match value of R56: OP. -/
def Instr.matchWord (i : Instr) : Word := BitVec.ofNat 32 i.opcode

/-- The instruction the decoder reads from a row's word. Command words are not stored in a memory (R49): the word the
table numbers is the 32-bit bus word itself, so bits above `nbits` are 0 in it. -/
def decodeTableWord (nbits w : Nat) : Option Instr :=
  if w < 2 ^ nbits ∧ w < 2 ^ 32 then
    match decode (BitVec.ofNat 32 w) with
    | .instr i => some i
    | .illegal _ => none
  else none

end Sys2Proof
end

