-- ==== Sys2Proof/Config.lean ====
section
/-! DEFINITION. What an implementation of the block fixes: the parameters of R5 and of the OPEN list of
92_eei_decisions.md. The spec has no value left free ("No item is any value either", 93_implementation_defined.md), so
this file holds no opaque constant. -/

namespace Sys2Proof

/-- The parameters "the model takes as arguments" (R5): they are carried in State, no step changes them (log 1).
LATENCY is not here: the schedule in State's `input` is the latency (log 2). -/
structure Params where
  /-- W, the width of an operand slot in bits (R5). -/
  w : Nat
  /-- BUF_BYTES, the size of IBUF and of OBUF (R5). -/
  bufBytes : Nat
  /-- BASE, the bus address of offset 0 of the window (OPEN). -/
  base : Nat
  /-- BUS_ERROR_RESPONSE: whether a refused access is also answered with a bus error (OPEN, R43). -/
  busErrorResponse : Bool
deriving DecidableEq, Repr

/-- The defaults of R5. BASE and BUS_ERROR_RESPONSE have no default in the spec: 0 and false are DESIGN CHOICE (log 1). -/
def Params.default : Params := ⟨3072, 1024, 0, false⟩

/-- DIGITS_W of R5: the number of decimal digits of 2^W - 1. -/
def Params.digitsW (p : Params) : Nat := (dec (2 ^ p.w - 1)).length

/-- The legal values of R5. -/
abbrev Params.legal (p : Params) : Prop :=
  (p.w % 32 = 0 ∧ 64 ≤ p.w ∧ p.w ≤ 8192) ∧
  (p.bufBytes % 4 = 0 ∧ p.bufBytes ≤ 8192 ∧ max (p.w / 8) (p.digitsW + 1) ≤ p.bufBytes) ∧
  p.base % 65536 = 0

end Sys2Proof
end

