-- ==== Sys2Proof/Machine/State.lean ====
section
/-! DEFINITION. The machine's state as plain data, the two reasons a step can stop, and the state after reset. -/

namespace Sys2Proof.Machine

/-- The eighteen operand slots of R16, by name. -/
inductive Slot where
  | m | padv | c | n | p | q | suf | mp | mq | g | x | y | cand0 | cand1 | cand2 | cand3 | a | b
deriving DecidableEq, Repr

/-- The operand slots' contents, each an unsigned integer in [0, 2^W) (R12, R13, R16). W is a parameter, so the bound is
part of the invariant and not of the type (log 9). X and Y hold two's-complement patterns (R17). -/
structure Slots where
  m : Nat
  padv : Nat
  c : Nat
  n : Nat
  p : Nat
  q : Nat
  suf : Nat
  mp : Nat
  mq : Nat
  g : Nat
  x : Nat
  y : Nat
  cand0 : Nat
  cand1 : Nat
  cand2 : Nat
  cand3 : Nat
  a : Nat
  b : Nat
deriving DecidableEq, Repr

/-- A byte buffer: (index, byte) cells, indexes strictly rising, no cell equal to what an unlisted index reads as. -/
abbrev Memory := List Host.Cell

/-- The engine's phase (R34); STATUS.BUSY is its mirror and has no storage of its own (log 7). -/
inductive Phase where
  | idle
  | busy
deriving DecidableEq, Repr

/-- The stored fields of STATUS (R24), BUSY apart. -/
structure Status where
  done : Bool
  err : Bool
  wbusy : Bool
  buserr : Bool
  errcode : BitVec 4
  nmatches : BitVec 3
deriving DecidableEq, Repr

/-- The fields of PADCFG (R25). -/
structure Padcfg where
  variant : BitVec 2
  k : BitVec 16
deriving DecidableEq, Repr

/-- The error causes of R96. -/
inductive Err where
  | parameter
  | encryptionRange
  | disambiguation
  | internalInvariant
  | key
  | format
  | illegalCommand
deriving DecidableEq, Repr

/-- One staged write of a command (R12). -/
inductive StagedWrite where
  /-- `S[r] <- v`. -/
  | slot (r : Slot) (v : Nat)
  /-- `OBUF[0..len-1] <- bytes`. -/
  | obuf (bytes : List Byte)
  /-- `OUTLEN <- n`. -/
  | outlen (n : BitVec 16)
  /-- `CONSUMED <- n`. -/
  | consumed (n : BitVec 16)
deriving DecidableEq, Repr

/-- How a command's rule ends (R12, R52). -/
inductive Ending where
  | complete (writes : List StagedWrite)
  | raise (e : Err)
deriving DecidableEq, Repr

/-- What running a command's rule leaves: the count its counting step writes to STATUS.MATCHES, if it reaches that step
(R68; not staged, R52), and how it ends. -/
structure RuleEnd where
  counted : Option (BitVec 3)
  ending : Ending
deriving DecidableEq, Repr

/-- What a bus access asks for (R36). -/
inductive Dir where
  | read
  | write (v : Word)
deriving DecidableEq, Repr

/-- One host access: `MemRead(addr, size)` or `MemWrite(addr, size, v)` (R36); `size` is in bytes. -/
structure Access where
  addr : Nat
  size : Nat
  dir : Dir
deriving DecidableEq, Repr

/-- What happens next at the block, as the outside and the latency decide it (log 2). -/
inductive Event where
  /-- The bus presents an access (R45). -/
  | bus (a : Access)
  /-- The engine runs the accepted command's rule and stages its writes, still BUSY (R51, R53). -/
  | execute
  /-- The engine takes the completion step (R52), running the rule first if it has not run. -/
  | complete
  /-- The platform asserts the reset input (R111). -/
  | resetInput
deriving DecidableEq, Repr

/-- What the block answers on the bus (R43): read data, and whether an error response goes with it. -/
inductive Reply where
  | readData (v : Word) (error : Bool)
  | writeDone (error : Bool)
deriving DecidableEq, Repr

/-- The whole state. `params`, `input` and `reply` are not the block's registers: the implementation's parameters
(log 1), what comes next from outside (log 2), and the bus answer of the step just taken (log 12). -/
structure State where
  /-- W, BUF_BYTES, BASE and BUS_ERROR_RESPONSE (R5). -/
  params : Params
  /-- CTRL.IRQ_EN (R22). -/
  irqEn : Bool
  /-- CMD, the last accepted command word (R23, R34). -/
  cmd : Word
  /-- The engine's phase (R34). -/
  phase : Phase
  /-- STATUS (R24). -/
  status : Status
  /-- PADCFG (R25). -/
  padcfg : Padcfg
  /-- PTB, PLAINTEXT_BLOCK_SIZE (R26). -/
  ptb : BitVec 16
  /-- CTB, CIPHERTEXT_BLOCK_SIZE (R27). -/
  ctb : BitVec 16
  /-- OUTLEN (R28). -/
  outlen : BitVec 16
  /-- CONSUMED (R29). -/
  consumed : BitVec 16
  /-- The operand slots (R16). -/
  slots : Slots
  /-- IBUF (R30). -/
  ibuf : Memory
  /-- OBUF (R31). -/
  obuf : Memory
  /-- What the running command has computed and not committed (R34): none until its rule has run. -/
  staged : Option RuleEnd
  /-- What comes next, oldest first (log 2). -/
  input : List Event
  /-- The bus answer of the step just taken, none if it served no access (log 12). -/
  reply : Option Reply
deriving DecidableEq, Repr

/-- Why the machine stops. The block itself never does (R98, 93_implementation_defined.md). -/
inductive Fault where
  /-- Raised by the bus interface for an access whose address lies outside [BASE, BASE + 64 KiB): it is no access to this
  block and the spec gives it no effect (R36). Safe: the model stops where nothing is said (log 11). -/
  | outsideWindow (addr : Nat)
deriving DecidableEq, Repr

/-- Why the machine refuses an instruction. -/
inductive Refusal where
  /-- Raised by exec for an instruction that has no meaning yet (none is left). Safe. -/
  | notModelled (mnemonic : String)
deriving DecidableEq, Repr

/-- Every slot clear (R18). -/
def Slots.zero : Slots := ⟨0, 0, 0, 0, 0, 0, 0, 0, 0, 0, 0, 0, 0, 0, 0, 0, 0, 0⟩

/-- The reset values of R112 for an implementation with parameters `p`. -/
def State.resetWith (p : Params) : State where
  params := p
  irqEn := false
  cmd := 0x00000000#32
  phase := .idle
  status := ⟨false, false, false, false, 0#4, 0#3⟩
  padcfg := ⟨0#2, 16#16⟩
  ptb := 256#16
  ctb := 384#16
  outlen := 0#16
  consumed := 0#16
  slots := Slots.zero
  ibuf := []
  obuf := []
  staged := none
  input := []
  reply := none

/-- The machine right after reset, at the default parameters of R5. -/
def State.reset : State := State.resetWith Params.default

end Sys2Proof.Machine
end

