-- ==== Sys2Proof/Machine/Ops.lean ====
section
/-! DEFINITION. The named operations over slots, buffers and staged writes. -/

namespace Sys2Proof.Machine

/-! ## Operand slots (R16, R17) -/

/-- The slot number of R16. -/
def Slot.number : Slot → Nat
  | .m => 0
  | .padv => 1
  | .c => 2
  | .n => 3
  | .p => 4
  | .q => 5
  | .suf => 6
  | .mp => 7
  | .mq => 8
  | .g => 9
  | .x => 10
  | .y => 11
  | .cand0 => 12
  | .cand1 => 13
  | .cand2 => 14
  | .cand3 => 15
  | .a => 16
  | .b => 17

/-- The slots that exist, in the order of their numbers (R16). -/
def Slot.all : List Slot :=
  [.m, .padv, .c, .n, .p, .q, .suf, .mp, .mq, .g, .x, .y, .cand0, .cand1, .cand2, .cand3, .a, .b]

/-- The slot with a number; 18 and above are unassigned (R16). -/
def Slot.ofNumber (k : Nat) : Option Slot := Slot.all[k]?

/-- The content of a slot. -/
def Slots.get (f : Slots) : Slot → Nat
  | .m => f.m
  | .padv => f.padv
  | .c => f.c
  | .n => f.n
  | .p => f.p
  | .q => f.q
  | .suf => f.suf
  | .mp => f.mp
  | .mq => f.mq
  | .g => f.g
  | .x => f.x
  | .y => f.y
  | .cand0 => f.cand0
  | .cand1 => f.cand1
  | .cand2 => f.cand2
  | .cand3 => f.cand3
  | .a => f.a
  | .b => f.b

/-- The slots with one slot's content replaced. -/
def Slots.set (f : Slots) (r : Slot) (v : Nat) : Slots :=
  match r with
  | .m => { f with m := v }
  | .padv => { f with padv := v }
  | .c => { f with c := v }
  | .n => { f with n := v }
  | .p => { f with p := v }
  | .q => { f with q := v }
  | .suf => { f with suf := v }
  | .mp => { f with mp := v }
  | .mq => { f with mq := v }
  | .g => { f with g := v }
  | .x => { f with x := v }
  | .y => { f with y := v }
  | .cand0 => { f with cand0 := v }
  | .cand1 => { f with cand1 := v }
  | .cand2 => { f with cand2 := v }
  | .cand3 => { f with cand3 := v }
  | .a => { f with a := v }
  | .b => { f with b := v }

/-- `S[r]` of R12. -/
def State.slot (s : State) (r : Slot) : Nat := s.slots.get r

/-- `S_signed[r]` of R12: the slot's pattern read as a two's-complement number. -/
def State.signedSlot (s : State) (r : Slot) : Int := sext s.params.w (s.slot r)

/-- The state with one slot's content replaced. -/
def State.setSlot (s : State) (r : Slot) (v : Nat) : State := { s with slots := s.slots.set r v }

/-- The 32-bit word i of a slot's value, bits [32i + 31 : 32i]; 0 at and above word W/32 (R38). -/
def slotWord (w v i : Nat) : Word := if i < w / 32 then BitVec.ofNat 32 (bits v (32 * i + 31) (32 * i)) else 0#32

/-- The slot's value after a write of its word i; ignored at and above word W/32 (R38). -/
def setSlotWord (w v i : Nat) (word : Word) : Nat :=
  if i < w / 32 then v / 2 ^ (32 * i + 32) * 2 ^ (32 * i + 32) + word.toNat * 2 ^ (32 * i) + v % 2 ^ (32 * i) else v

/-! ## Byte buffers (R30, R31) -/

/-- What an unlisted byte of IBUF or OBUF reads as: its reset value (R30, R31). -/
def Memory.unlisted : Byte := 0x00#8

/-- Byte `i` of a buffer. -/
def Memory.read (mem : Memory) (i : Nat) : Byte :=
  match mem with
  | [] => Memory.unlisted
  | (k, b) :: rest => if k = i then b else Memory.read rest i

/-- The buffer with byte `i` replaced, in canonical form. -/
def Memory.write (mem : Memory) (i : Nat) (v : Byte) : Memory :=
  match mem with
  | [] => if v = Memory.unlisted then [] else [(i, v)]
  | (k, b) :: rest =>
    if i < k then (if v = Memory.unlisted then (k, b) :: rest else (i, v) :: (k, b) :: rest)
    else if i = k then (if v = Memory.unlisted then rest else (i, v) :: rest)
    else (k, b) :: Memory.write rest i v

/-- The canonical form from index `lo` on: strictly rising indexes, no cell that reads as an unlisted one. -/
def Memory.wfFrom (lo : Nat) : Memory → Bool
  | [] => true
  | (k, b) :: rest => decide (lo ≤ k) && decide (b ≠ Memory.unlisted) && Memory.wfFrom (k + 1) rest

/-- The canonical form of a buffer. -/
def Memory.wf (mem : Memory) : Bool := Memory.wfFrom 0 mem

/-- Bytes `i` to `i + len - 1` of a buffer. -/
def Memory.readBytes (mem : Memory) (i : Nat) : Nat → List Byte
  | 0 => []
  | len + 1 => mem.read i :: mem.readBytes (i + 1) len

/-- The buffer with `bytes` stored from byte `i` on. -/
def Memory.writeBytes (mem : Memory) (i : Nat) : List Byte → Memory
  | [] => mem
  | b :: rest => (mem.writeBytes (i + 1) rest).write i b

/-- The word of bytes 4j to 4j + 3, byte 4j in the most significant lane (R39). -/
def Memory.word (mem : Memory) (j : Nat) : Word := BitVec.ofNat 32 (be (mem.readBytes (4 * j) 4))

/-- The buffer after a write of the word of bytes 4j to 4j + 3, in the lanes of R39. -/
def Memory.setWord (mem : Memory) (j : Nat) (v : Word) : Memory := mem.writeBytes (4 * j) (beBytes v.toNat 4)

/-! ## Staged writes and their commit (R12, R52) -/

/-- A rule that ends in `complete` with its staged writes, without a counting step. -/
def succeed (writes : List StagedWrite) : RuleEnd := ⟨none, .complete writes⟩

/-- A rule that ends in `raise e`, without having reached a counting step. -/
def fail (e : Err) : RuleEnd := ⟨none, .raise e⟩

/-- The effect of one staged write when it commits. -/
def State.commitWrite (s : State) : StagedWrite → State
  | .slot r v => s.setSlot r v
  | .obuf bytes => { s with obuf := s.obuf.writeBytes 0 bytes }
  | .outlen n => { s with outlen := n }
  | .consumed n => { s with consumed := n }

/-- The commit of every staged write, all at once (R52). -/
def State.commit (s : State) (writes : List StagedWrite) : State := writes.foldl State.commitWrite s

/-! ## Issue and reset (R51, R112) -/

/-- Issue of the command word `v` (R51), up to the execution of its rule. -/
def State.issue (s : State) (v : Word) : State :=
  { s with
    cmd := v
    phase := .busy
    status := { s.status with done := false, err := false, errcode := 0#4, nmatches := 0#3 }
    staged := none }

/-- The reset of R112, from either source of R111. The implementation's parameters stay, and so do what comes next from
outside and the bus answer, which are not the block's state (log 17). -/
def State.resetBlock (s : State) : State :=
  { State.resetWith s.params with input := s.input, reply := s.reply }

end Sys2Proof.Machine
end

