-- ==== Sys2Proof/Machine/Flags.lean ====
section
/-! DEFINITION. STATUS, the block's only flag register (R24), the error codes (R96), the completion step's flags (R52),
and the interrupt output (R32). Ending a command with an error is the one shared operation `State.raiseError`: the block
has no trap entry, no saved state and no return (R103, R104). -/

namespace Sys2Proof.Machine

/-- A bit as a number. -/
def bitOf (b : Bool) : Nat := if b then 1 else 0

/-- STATUS.BUSY, the mirror of the engine's phase (R24, R34). -/
def State.busy (s : State) : Bool := s.phase == .busy

/-- STATUS as the host reads it (R24): bits [7:5] and [31:15] read 0. -/
def State.statusWord (s : State) : Word :=
  BitVec.ofNat 32
    (bitOf s.busy + 2 * bitOf s.status.done + 4 * bitOf s.status.err + 8 * bitOf s.status.wbusy +
      16 * bitOf s.status.buserr + 256 * s.status.errcode.toNat + 4096 * s.status.nmatches.toNat)

/-- Bit i of a bus word. -/
def wordBit (v : Word) (i : Nat) : Bool := bits v.toNat i i == 1

/-- STATUS after a host write of `v`: a 1 clears DONE, ERR, WBUSY or BUSERR; every other bit is ignored (R24). -/
def Status.w1c (st : Status) (v : Word) : Status :=
  { st with
    done := st.done && !wordBit v 1
    err := st.err && !wordBit v 2
    wbusy := st.wbusy && !wordBit v 3
    buserr := st.buserr && !wordBit v 4 }

/-- The interrupt output: IRQ = STATUS.DONE AND CTRL.IRQ_EN (R32, R102). -/
def State.irq (s : State) : Bool := s.status.done && s.irqEn

/-- The code of an error (R96). -/
def Err.code : Err → BitVec 4
  | .parameter => 1#4
  | .encryptionRange => 2#4
  | .disambiguation => 3#4
  | .internalInvariant => 4#4
  | .key => 5#4
  | .format => 6#4
  | .illegalCommand => 7#4

/-- STATUS.MATCHES after a rule: the count of its counting step, or unchanged if it did not reach one (R52, R68). -/
def Status.count (st : Status) (counted : Option (BitVec 3)) : Status :=
  { st with nmatches := counted.getD st.nmatches }

/-- A completion step that ends in `raise e` (R52, R97): every staged write is discarded, ERRCODE records the cause. -/
def State.raiseError (s : State) (e : Err) : State :=
  { s with
    phase := .idle
    staged := none
    status := { s.status with done := true, err := true, errcode := e.code } }

/-- A completion step that ends in `complete` (R52): every staged write commits, ERRCODE is 0. -/
def State.completeOk (s : State) (writes : List StagedWrite) : State :=
  { s.commit writes with
    phase := .idle
    staged := none
    status := { s.status with done := true, errcode := 0#4 } }

/-- The completion step of a command whose rule ended as `r` says (R52). -/
def State.finish (s : State) (r : RuleEnd) : State :=
  match r.ending with
  | .complete writes => { s with status := s.status.count r.counted }.completeOk writes
  | .raise e => { s with status := s.status.count r.counted }.raiseError e

/-- A command's whole effect: its rule, then the completion step. It always ends in a next state (R98). -/
def finishNext (s : State) (r : RuleEnd) : Host.Outcome State Fault Refusal := .next (s.finish r)

end Sys2Proof.Machine
end

