-- ==== Sys2Proof/Machine/Bus.lean ====
section
/-! DEFINITION. The host's accesses (R93): the window and its map (R36, R37), refusal (R43), the busy rule (R47), the
words read and written (R38, R39, R42) and their side effects (R44). -/

namespace Sys2Proof

/-- The constant of the ID register, ASCII "RAB1" (R2, R20). -/
def idWord : Word := 0x52414231#32

/-- The constant of the PARAMS register: WWORDS in [15:0], BUFWORDS in [31:16] (R21). -/
def Params.word (p : Params) : Word := BitVec.ofNat 32 (p.bufBytes / 4 * 65536 + p.w / 32)

end Sys2Proof

namespace Sys2Proof.Machine

/-- What a word of the address map is (R37); `j` is the word of a buffer, `i` the word of a slot. -/
inductive Target where
  | id
  | params
  | ctrl
  | cmd
  | status
  | padcfg
  | ptb
  | ctb
  | outlen
  | consumed
  | ibuf (j : Nat)
  | obuf (j : Nat)
  | slot (r : Slot) (i : Nat)
deriving DecidableEq, Repr

/-- The offset of a bus address in the block's 64 KiB window, none outside it (R36). -/
def windowOffset (p : Params) (addr : Nat) : Option Nat :=
  if p.base ≤ addr ∧ addr < p.base + 0x10000 then some (addr - p.base) else none

/-- The address map of R37; none is unmapped. -/
def targetAt (p : Params) (off : Nat) : Option Target :=
  if off < 0x4000 then
    match off / 4 with
    | 0 => some .id
    | 1 => some .params
    | 2 => some .ctrl
    | 3 => some .cmd
    | 4 => some .status
    | 5 => some .padcfg
    | 6 => some .ptb
    | 7 => some .ctb
    | 8 => some .outlen
    | 9 => some .consumed
    | _ => none
  else if off < 0x6000 then
    if off - 0x4000 < p.bufBytes then some (.ibuf ((off - 0x4000) / 4)) else none
  else if off < 0x8000 then
    if off - 0x6000 < p.bufBytes then some (.obuf ((off - 0x6000) / 4)) else none
  else
    match Slot.ofNumber ((off - 0x8000) / 0x400) with
    | some r => some (.slot r ((off - 0x8000) % 0x400 / 4))
    | none => none

/-- The words a host may not write (R43). -/
def Target.readOnly : Target → Bool
  | .id => true
  | .params => true
  | .outlen => true
  | .consumed => true
  | .obuf _ => true
  | .ctrl => false
  | .cmd => false
  | .status => false
  | .padcfg => false
  | .ptb => false
  | .ctb => false
  | .ibuf _ => false
  | .slot _ _ => false

/-- The words a host may write while the block is busy (R47). -/
def Target.writableBusy : Target → Bool
  | .ctrl => true
  | .status => true
  | .id => false
  | .params => false
  | .outlen => false
  | .consumed => false
  | .obuf _ => false
  | .cmd => false
  | .padcfg => false
  | .ptb => false
  | .ctb => false
  | .ibuf _ => false
  | .slot _ _ => false

/-- Whether the access asks for a write. -/
def Dir.isWrite : Dir → Bool
  | .read => false
  | .write _ => true

/-- The word an access reaches, none where R43 refuses it: the size is not 4, the offset is misaligned or unmapped, or
the access writes a read-only word. -/
def reaches (p : Params) (off : Nat) (a : Access) : Option Target :=
  if a.size = 4 ∧ off % 4 = 0 then
    match targetAt p off with
    | some t => if a.dir.isWrite && t.readOnly then none else some t
    | none => none
  else none

/-- CTRL as the host reads it: SOFT_RESET and the reserved bits read 0 (R22). -/
def State.ctrlWord (s : State) : Word := BitVec.ofNat 32 (bitOf s.irqEn)

/-- PADCFG as the host reads it (R25). -/
def Padcfg.word (c : Padcfg) : Word := BitVec.ofNat 32 (c.k.toNat * 65536 + c.variant.toNat)

/-- PADCFG after a host write: VARIANT from [1:0], K from [31:16], reserved bits ignored (R25). -/
def Padcfg.ofWord (v : Word) : Padcfg :=
  ⟨BitVec.ofNat 2 (bits v.toNat 1 0), BitVec.ofNat 16 (bits v.toNat 31 16)⟩

/-- A register whose bits [15:0] are its field and whose bits [31:16] read 0 (R26 to R29). -/
def halfWord (v : BitVec 16) : Word := BitVec.ofNat 32 v.toNat

/-- The field [15:0] of a written word (R26, R27). -/
def lowHalf (v : Word) : BitVec 16 := BitVec.ofNat 16 (bits v.toNat 15 0)

/-- The word an accepted read returns (R42, R48): committed values, and the live STATUS and CMD. -/
def State.readTarget (s : State) : Target → Word
  | .id => idWord
  | .params => s.params.word
  | .ctrl => s.ctrlWord
  | .cmd => s.cmd
  | .status => s.statusWord
  | .padcfg => s.padcfg.word
  | .ptb => halfWord s.ptb
  | .ctb => halfWord s.ctb
  | .outlen => halfWord s.outlen
  | .consumed => halfWord s.consumed
  | .ibuf j => s.ibuf.word j
  | .obuf j => s.obuf.word j
  | .slot r i => slotWord s.params.w (s.slot r) i

/-- The write of CTRL: a 1 in bit 1 resets the block and the other bits are ignored (R92), else bit 0 is IRQ_EN (R22). -/
def State.writeCtrl (s : State) (v : Word) : State :=
  if wordBit v 1 then s.resetBlock else { s with irqEn := wordBit v 0 }

/-- An accepted write (R42). The read-only words are refused before this is reached. -/
def State.writeTarget (s : State) (t : Target) (v : Word) : State :=
  match t with
  | .id => s
  | .params => s
  | .ctrl => s.writeCtrl v
  | .cmd => s.issue v
  | .status => { s with status := s.status.w1c v }
  | .padcfg => { s with padcfg := Padcfg.ofWord v }
  | .ptb => { s with ptb := lowHalf v }
  | .ctb => { s with ctb := lowHalf v }
  | .outlen => s
  | .consumed => s
  | .ibuf j => { s with ibuf := s.ibuf.setWord j v }
  | .obuf _ => s
  | .slot r i => s.setSlot r (setSlotWord s.params.w (s.slot r) i v)

/-- A write that the busy rule lets through, or that it ignores with WBUSY (R47). -/
def State.writeUnlessBusy (s : State) (t : Target) (v : Word) : State :=
  if s.busy && !t.writableBusy then { s with status := { s.status with wbusy := true } } else s.writeTarget t v

/-- A refused access: BUSERR is set and nothing else changes (R43). -/
def State.refuseAccess (s : State) : State := { s with status := { s.status with buserr := true } }

/-- The answer to a refused access: a read returns 0; the error response is the platform's choice (R43). -/
def State.refusedReply (s : State) : Dir → Reply
  | .read => .readData 0#32 s.params.busErrorResponse
  | .write _ => .writeDone s.params.busErrorResponse

/-- The effect of an access at window offset `off`, with its answer in `reply`. -/
def State.accessAt (s : State) (off : Nat) (a : Access) : State :=
  match reaches s.params off a with
  | none => { s.refuseAccess with reply := some (s.refusedReply a.dir) }
  | some t =>
    match a.dir with
    | .read => { s with reply := some (.readData (s.readTarget t) false) }
    | .write v => { s.writeUnlessBusy t v with reply := some (.writeDone false) }

/-- The block serves one bus access (R45). -/
def serveAccess (a : Access) (s : State) : Host.Outcome State Fault Refusal :=
  match windowOffset s.params a.addr with
  | none => .fault (.outsideWindow a.addr)
  | some off => .next (s.accessAt off a)

end Sys2Proof.Machine
end

