-- ==== Sys2Proof/Machine/Operands.lean ====
section
/-! DEFINITION. The implied operands of a command: the padding strategy that PADCFG and SUF select (R63 to R68), and the
block sizes (R83). -/

namespace Sys2Proof.Machine

/-- The two families of R63, each with its parameter. -/
inductive Strategy where
  /-- AppendBits(k) and CopyBits(k). -/
  | bitCopy (k : Nat)
  /-- FixedSuffix(v) and Nonce(v). -/
  | suffix (v : Nat)
deriving DecidableEq, Repr

/-- The selected strategy (R63): VARIANT 0 and 1 are the bit-copy family, 2 and 3 the suffix family. -/
def State.strategy (s : State) : Strategy :=
  if s.padcfg.variant.toNat < 2 then .bitCopy s.padcfg.k.toNat else .suffix (s.slot .suf)

/-- The suffix width w of R63. -/
def Strategy.width : Strategy → Nat
  | .bitCopy k => k
  | .suffix v => bitlen v

/-- Whether `checkparam()` passes (R64). -/
def Strategy.paramOk : Strategy → Bool
  | .bitCopy k => k != 0
  | .suffix v => v != 0

/-- `padval(m)` of R66. -/
def Strategy.padval (st : Strategy) (m : Nat) : Except Err Nat :=
  if st.paramOk then
    match st with
    | .bitCopy k => if bitlen m < k then .error .parameter else .ok (m * 2 ^ k + m % 2 ^ k)
    | .suffix v => .ok (m * 2 ^ bitlen v + v)
  else .error .parameter

/-- `match(c)` of R67. -/
def Strategy.accepts : Strategy → Nat → Bool
  | .bitCopy k, c => c % 2 ^ k == c / 2 ^ k % 2 ^ k
  | .suffix v, c => c % 2 ^ bitlen v == v

/-- `strip(c)` of R67. -/
def Strategy.strip (st : Strategy) (c : Nat) : Nat := c / 2 ^ st.width

/-- The distinct values of a list. -/
def distinct : List Nat → List Nat
  | [] => []
  | c :: cs => if c ∈ cs then distinct cs else c :: distinct cs

/-- A value or an error, with the count that the counting step wrote to STATUS.MATCHES if it was reached (R68). -/
structure Counted (α : Type) where
  counted : Option (BitVec 3)
  value : Except Err α

/-- The candidate that `select` returns, and its plaintext. -/
structure Selected where
  cand : Nat
  plain : Nat
deriving DecidableEq, Repr

/-- `select(c0, c1, c2, c3)` of R68. -/
def Strategy.select (st : Strategy) (cands : List Nat) : Counted Selected :=
  if st.paramOk then
    ⟨some (BitVec.ofNat 3 (distinct (cands.filter st.accepts)).length),
      match distinct (cands.filter st.accepts) with
      | [c] => .ok ⟨c, st.strip c⟩
      | _ => .error .disambiguation⟩
  else ⟨none, .error .parameter⟩

/-- Whether `checkblk()` passes (R83). -/
def State.blockSizesOk (s : State) : Bool :=
  s.ptb.toNat != 0 && decide (s.ptb.toNat ≤ s.params.bufBytes) &&
    (s.ctb.toNat != 0 && decide (s.ctb.toNat ≤ s.params.bufBytes))

end Sys2Proof.Machine
end

