-- ==== Sys2Proof/Machine/Padding.lean ====
section
/-! DEFINITION. The padding / unpadding selector's commands (R69, R70). -/

namespace Sys2Proof.Machine

/-- The rule of PAD (R69). -/
def rulePad (s : State) : RuleEnd :=
  match s.strategy.padval (s.slot .m) with
  | .error e => fail e
  | .ok t => if 2 ^ s.params.w ≤ t then fail .encryptionRange else succeed [.slot .padv t]

/-- PAD (R69). -/
def execPad (s : State) : Host.Outcome State Fault Refusal := finishNext s (rulePad s)

/-- The four candidate slots in order (R70). -/
def State.candidates (s : State) : List Nat := [s.slot .cand0, s.slot .cand1, s.slot .cand2, s.slot .cand3]

/-- The rule of UNPAD (R70). -/
def ruleUnpad (s : State) : RuleEnd :=
  ⟨(s.strategy.select s.candidates).counted,
    match (s.strategy.select s.candidates).value with
    | .error e => .raise e
    | .ok r => .complete [.slot .padv r.cand, .slot .m r.plain]⟩

/-- UNPAD (R70). -/
def execUnpad (s : State) : Host.Outcome State Fault Refusal := finishNext s (ruleUnpad s)

end Sys2Proof.Machine
end

