-- ==== Sys2Proof/Machine/Rabin.lean ====
section
/-! DEFINITION. The Rabin core: modular squarer, square-root engine, CRT combiner, and the two compositions (R72 to R81).
Montgomery form is internal and not represented (R7). -/

namespace Sys2Proof.Machine

/-- Whether `checkmod(n)` passes: n is odd and at least 3 (R72). -/
def modulusOk (n : Nat) : Bool := decide (3 ≤ n) && n % 2 == 1

/-- Whether `checkkey(p, q)` passes (R74). -/
def keyOk (p q : Nat) : Bool := p % 4 == 3 && q % 4 == 3

/-- `root(c, p)` of R75, c^((p + 1) / 4) mod p, by square and multiply (log 14). -/
def root (c p : Nat) : Nat := powMod c ((p + 1) / 4) p

/-- The rule of MODSQR (R73): the range check comes first. -/
def ruleModsqr (s : State) : RuleEnd :=
  if s.slot .n ≤ s.slot .padv then fail .encryptionRange
  else if modulusOk (s.slot .n) then succeed [.slot .c (s.slot .padv * s.slot .padv % s.slot .n)]
  else fail .key

/-- MODSQR (R73). -/
def execModsqr (s : State) : Host.Outcome State Fault Refusal := finishNext s (ruleModsqr s)

/-- The rule of SQRT (R76). -/
def ruleSqrt (s : State) : RuleEnd :=
  if keyOk (s.slot .p) (s.slot .q) then
    succeed [.slot .mp (root (s.slot .c) (s.slot .p)), .slot .mq (root (s.slot .c) (s.slot .q))]
  else fail .key

/-- SQRT (R76). -/
def execSqrt (s : State) : Host.Outcome State Fault Refusal := finishNext s (ruleSqrt s)

/-- What `crt` returns: the Bézout triple of (p, q) and the four candidates (R77). -/
structure Combined where
  bezout : Bezout
  k0 : Nat
  k1 : Nat
  k2 : Nat
  k3 : Nat
deriving DecidableEq, Repr

/-- The residue r1 of R77 (the floor residue in [0, n), R8). -/
def crtSum (bz : Bezout) (p q mp mq : Nat) : Nat := ((bz.x * p * mq + bz.y * q * mp) % ((p * q : Nat) : Int)).toNat

/-- The residue r3 of R77. -/
def crtDifference (bz : Bezout) (p q mp mq : Nat) : Nat :=
  ((bz.x * p * mq - bz.y * q * mp) % ((p * q : Nat) : Int)).toNat

/-- `crt(p, q, mp, mq)` of R77 for slots of `w` bits. -/
def combine (w p q mp mq : Nat) : Except Err Combined :=
  if (egcd p q).g ≠ 1 then .error .internalInvariant
  else if 2 ^ w ≤ p * q then .error .key
  else if modulusOk (p * q) then
    .ok
      { bezout := egcd p q
        k0 := crtSum (egcd p q) p q mp mq
        k1 := p * q - crtSum (egcd p q) p q mp mq
        k2 := crtDifference (egcd p q) p q mp mq
        k3 := p * q - crtDifference (egcd p q) p q mp mq }
  else .error .key

/-- The staged writes of G, X, Y and the four candidates, which CRT, DECRYPT and DECBLK share (R79, R81, R85). -/
def Combined.writes (w : Nat) (k : Combined) : List StagedWrite :=
  [.slot .g k.bezout.g, .slot .x (twosComplement w k.bezout.x), .slot .y (twosComplement w k.bezout.y),
   .slot .cand0 k.k0, .slot .cand1 k.k1, .slot .cand2 k.k2, .slot .cand3 k.k3]

/-- The rule of CRT (R79). -/
def ruleCrt (s : State) : RuleEnd :=
  match combine s.params.w (s.slot .p) (s.slot .q) (s.slot .mp) (s.slot .mq) with
  | .error e => fail e
  | .ok k => succeed (k.writes s.params.w)

/-- CRT (R79). -/
def execCrt (s : State) : Host.Outcome State Fault Refusal := finishNext s (ruleCrt s)

/-- A padded plaintext and its ciphertext. -/
structure Encrypted where
  padded : Nat
  cipher : Nat
deriving DecidableEq, Repr

/-- Pad, range-check and square the integer m: the steps ENCRYPT and ENCBLK share (R80, R84). -/
def State.encryptInteger (s : State) (m : Nat) : Except Err Encrypted :=
  match s.strategy.padval m with
  | .error e => .error e
  | .ok t =>
    if s.slot .n ≤ t then .error .encryptionRange
    else if modulusOk (s.slot .n) then .ok ⟨t, t * t % s.slot .n⟩
    else .error .key

/-- The rule of ENCRYPT (R80). -/
def ruleEncrypt (s : State) : RuleEnd :=
  match s.encryptInteger (s.slot .m) with
  | .error e => fail e
  | .ok r => succeed [.slot .padv r.padded, .slot .c r.cipher]

/-- ENCRYPT (R80). -/
def execEncrypt (s : State) : Host.Outcome State Fault Refusal := finishNext s (ruleEncrypt s)

/-- Everything the decryption of one integer computes. -/
structure Decrypted where
  mp : Nat
  mq : Nat
  combined : Combined
  selected : Selected
deriving DecidableEq, Repr

/-- Roots, CRT, disambiguation and stripping for the ciphertext c: the steps DECRYPT and DECBLK share (R81, R85). -/
def State.decryptInteger (s : State) (c : Nat) : Counted Decrypted :=
  if keyOk (s.slot .p) (s.slot .q) then
    match combine s.params.w (s.slot .p) (s.slot .q) (root c (s.slot .p)) (root c (s.slot .q)) with
    | .error e => ⟨none, .error e⟩
    | .ok k =>
      ⟨(s.strategy.select [k.k0, k.k1, k.k2, k.k3]).counted,
        match (s.strategy.select [k.k0, k.k1, k.k2, k.k3]).value with
        | .error e => .error e
        | .ok r => .ok ⟨root c (s.slot .p), root c (s.slot .q), k, r⟩⟩
  else ⟨none, .error .key⟩

/-- The staged slot writes that DECRYPT and DECBLK share (R81, R85). -/
def Decrypted.writes (w : Nat) (d : Decrypted) : List StagedWrite :=
  [.slot .mp d.mp, .slot .mq d.mq] ++ d.combined.writes w ++
    [.slot .padv d.selected.cand, .slot .m d.selected.plain]

/-- The rule of DECRYPT (R81). -/
def ruleDecrypt (s : State) : RuleEnd :=
  ⟨(s.decryptInteger (s.slot .c)).counted,
    match (s.decryptInteger (s.slot .c)).value with
    | .error e => .raise e
    | .ok d => .complete (d.writes s.params.w)⟩

/-- DECRYPT (R81). -/
def execDecrypt (s : State) : Host.Outcome State Fault Refusal := finishNext s (ruleDecrypt s)

end Sys2Proof.Machine
end

