-- ==== Sys2Proof/Machine/Codec.lean ====
section
/-! DEFINITION. The fixed-block codec (R83 to R88). -/

namespace Sys2Proof.Machine

/-- The length check of ENCBLK and DECBLK: 1 ≤ LEN ≤ PTB (R84, R85). -/
def State.chunkOk (s : State) (len : Nat) : Bool := s.blockSizesOk && (len != 0 && decide (len ≤ s.ptb.toNat))

/-- The rule of ENCBLK (R84). -/
def ruleEncblk (len : Nat) (s : State) : RuleEnd :=
  if s.chunkOk len then
    match s.encryptInteger (be (s.ibuf.readBytes 0 len)) with
    | .error e => fail e
    | .ok r =>
      if 2 ^ (8 * s.ctb.toNat) ≤ r.cipher then fail .format
      else
        succeed
          [.slot .m (be (s.ibuf.readBytes 0 len)), .slot .padv r.padded, .slot .c r.cipher,
           .obuf (beBytes r.cipher s.ctb.toNat), .outlen s.ctb]
  else fail .format

/-- ENCBLK (R84). -/
def execEncblk (len : Nat) (s : State) : Host.Outcome State Fault Refusal := finishNext s (ruleEncblk len s)

/-- The rule of DECBLK (R85). -/
def ruleDecblk (len : Nat) (s : State) : RuleEnd :=
  if s.chunkOk len then
    if 2 ^ s.params.w ≤ be (s.ibuf.readBytes 0 s.ctb.toNat) then fail .format
    else
      ⟨(s.decryptInteger (be (s.ibuf.readBytes 0 s.ctb.toNat))).counted,
        match (s.decryptInteger (be (s.ibuf.readBytes 0 s.ctb.toNat))).value with
        | .error e => .raise e
        | .ok d =>
          if 2 ^ (8 * len) ≤ d.selected.plain then .raise .format
          else
            .complete
              (.slot .c (be (s.ibuf.readBytes 0 s.ctb.toNat)) :: d.writes s.params.w ++
                [.obuf (beBytes d.selected.plain len), .outlen (BitVec.ofNat 16 len)])⟩
  else fail .format

/-- DECBLK (R85). -/
def execDecblk (len : Nat) (s : State) : Host.Outcome State Fault Refusal := finishNext s (ruleDecblk len s)

/-- The terminator of a header record (R86). -/
def terminator : Byte := 0x0A#8

/-- The header record of a strategy value: its decimal digits, then the terminator (R86). -/
def headerRecord (v : Nat) : List Byte := dec v ++ [terminator]

/-- The rule of HDR_EMIT (R87). -/
def ruleHdrEmit (s : State) : RuleEnd :=
  match s.strategy with
  | .bitCopy _ => succeed [.outlen 0#16]
  | .suffix v =>
    if v = 0 then fail .parameter
    else if s.params.bufBytes < (headerRecord v).length then fail .format
    else succeed [.obuf (headerRecord v), .outlen (BitVec.ofNat 16 (headerRecord v).length)]

/-- HDR_EMIT (R87). -/
def execHdrEmit (s : State) : Host.Outcome State Fault Refusal := finishNext s (ruleHdrEmit s)

/-- The bytes before the first terminator, none if there is no terminator (R88). -/
def beforeTerminator (bytes : List Byte) : Option (List Byte) :=
  if terminator ∈ bytes then some (bytes.takeWhile (· != terminator)) else none

/-- The rule of HDR_PARSE (R88). -/
def ruleHdrParse (len : Nat) (s : State) : RuleEnd :=
  if len = 0 ∨ s.params.bufBytes < len then fail .format
  else
    match beforeTerminator (s.ibuf.readBytes 0 len) with
    | none => fail .format
    | some digits =>
      if digits = [] then fail .format
      else if digits.all isDigit then
        if undec digits = 0 ∨ 2 ^ s.params.w ≤ undec digits then fail .format
        else succeed [.slot .suf (undec digits), .consumed (BitVec.ofNat 16 (digits.length + 1))]
      else fail .format

/-- HDR_PARSE (R88). -/
def execHdrParse (len : Nat) (s : State) : Host.Outcome State Fault Refusal := finishNext s (ruleHdrParse len s)

end Sys2Proof.Machine
end

