-- ==== Sys2Proof/Machine/Control.lean ====
section
/-! DEFINITION. The control command (R91). -/

namespace Sys2Proof.Machine

/-- The rule of NOP: `complete` (R91). -/
def ruleNop (_ : State) : RuleEnd := succeed []

/-- NOP (R91). -/
def execNop (s : State) : Host.Outcome State Fault Refusal := finishNext s (ruleNop s)

end Sys2Proof.Machine
end

