-- ==== Sys2Proof/Machine/Euclid.lean ====
section
/-! DEFINITION. The extended Euclid unit (R59 to R61). -/

namespace Sys2Proof.Machine

/-- The rule of EGCD (R60). -/
def ruleEgcd (s : State) : RuleEnd :=
  if s.slot .a = 0 ∧ s.slot .b = 0 then fail .parameter
  else
    succeed
      [.slot .g (egcd (s.slot .a) (s.slot .b)).g,
       .slot .x (twosComplement s.params.w (egcd (s.slot .a) (s.slot .b)).x),
       .slot .y (twosComplement s.params.w (egcd (s.slot .a) (s.slot .b)).y)]

/-- EGCD (R60). -/
def execEgcd (s : State) : Host.Outcome State Fault Refusal := finishNext s (ruleEgcd s)

end Sys2Proof.Machine
end

