-- ==== Sys2Proof/Machine/Dispatch.lean ====
section
/-! DEFINITION. One arm per command: the command's rule and its completion step on a state in which the engine holds the
command (R51, R52). -/

namespace Sys2Proof.Machine

def exec (i : Instr) (s : State) : Host.Outcome State Fault Refusal :=
  match i with
  | .nop => Sys2Proof.Machine.execNop s
  | .egcd => Sys2Proof.Machine.execEgcd s
  | .pad => Sys2Proof.Machine.execPad s
  | .unpad => Sys2Proof.Machine.execUnpad s
  | .modsqr => Sys2Proof.Machine.execModsqr s
  | .sqrt => Sys2Proof.Machine.execSqrt s
  | .crt => Sys2Proof.Machine.execCrt s
  | .encrypt => Sys2Proof.Machine.execEncrypt s
  | .decrypt => Sys2Proof.Machine.execDecrypt s
  | .encblk len => Sys2Proof.Machine.execEncblk len s
  | .decblk len => Sys2Proof.Machine.execDecblk len s
  | .hdrEmit => Sys2Proof.Machine.execHdrEmit s
  | .hdrParse len => Sys2Proof.Machine.execHdrParse len s

end Sys2Proof.Machine
end

