-- ==== Sys2Proof/Machine/Engine.lean ====
section
/-! DEFINITION. The engine's turns (R51 to R53): running the rule of the accepted command, and the completion step. -/

namespace Sys2Proof.Machine

/-- The rule of each command, as its meaning runs it. -/
def ruleOf (i : Instr) (s : State) : RuleEnd :=
  match i with
  | .nop => ruleNop s
  | .egcd => ruleEgcd s
  | .pad => rulePad s
  | .unpad => ruleUnpad s
  | .modsqr => ruleModsqr s
  | .sqrt => ruleSqrt s
  | .crt => ruleCrt s
  | .encrypt => ruleEncrypt s
  | .decrypt => ruleDecrypt s
  | .encblk len => ruleEncblk len s
  | .decblk len => ruleDecblk len s
  | .hdrEmit => ruleHdrEmit s
  | .hdrParse len => ruleHdrParse len s

/-- The rule that a command word selects; an illegal word ends in IllegalCommand (R57). -/
def wordRule (w : Word) (s : State) : RuleEnd :=
  match decode w with
  | .instr i => ruleOf i s
  | .illegal _ => fail .illegalCommand

/-- The engine runs the rule of the accepted command, if it has not run yet: its writes are staged and its count goes to
STATUS.MATCHES, which is not staged (R51, R52, R68). -/
def executeTurn (s : State) : State :=
  if s.busy && s.staged.isNone then
    { s with
      staged := some (wordRule s.cmd s)
      status := s.status.count (wordRule s.cmd s).counted }
  else s

/-- The engine's completion step (R52). If the rule has run, its staged end is taken; if not, the rule and the
completion are taken together, as the command's meaning (log 5). An idle engine does nothing. -/
def completeTurn (s : State) : Host.Outcome State Fault Refusal :=
  if s.busy then
    match s.staged with
    | some r => .next (s.finish r)
    | none =>
      match decode s.cmd with
      | .instr i => exec i s
      | .illegal _ => .next (s.finish (fail .illegalCommand))
  else .next s

/-- What an event does. -/
def serve (e : Event) (s : State) : Host.Outcome State Fault Refusal :=
  match e with
  | .bus a => serveAccess a s
  | .execute => .next (executeTurn s)
  | .complete => completeTurn s
  | .resetInput => .next s.resetBlock

end Sys2Proof.Machine
end

