-- ==== Sys2Proof/Machine/Step.lean ====
section
/-! DEFINITION. One step of the machine. -/

namespace Sys2Proof.Machine

/-- One step: the oldest event of `input` takes its full effect before the next (R45). With no event left a busy engine
takes its completion step, which is always enabled (R118), and an idle block waits unchanged (R112; log 3). -/
def step (s : State) : Host.Outcome State Fault Refusal :=
  match s.input with
  | [] => completeTurn { s with reply := none }
  | e :: rest => serve e { s with input := rest, reply := none }

/-- `s` with the command word of a table row accepted and the engine's completion turn next, so that the next step
decodes and runs it: the state a host's write of the word to CMD leaves (R51), which is this block's fetch (log 15). -/
def State.withFetchWord (s : State) (nbits w : Nat) : State :=
  { s.issue (BitVec.ofNat 32 (w % 2 ^ nbits)) with input := .complete :: s.input }

end Sys2Proof.Machine
end

