-- ==== Sys2Proof/Machine/HostAsm.lean ====
section
/-! DEFINITION. The host assembly of R58: each line is one bus access or expands to bus accesses. The expansion is a list
of events for `State.input`; the addresses are BASE + offset. -/

namespace Sys2Proof.Machine

/-- A line of host assembly (R58). -/
inductive HostOp where
  /-- `WR off, v`. -/
  | wr (off : Nat) (v : Word)
  /-- `RD off`. -/
  | rd (off : Nat)
  /-- `CMD mnem` and `CMD mnem, len`. -/
  | cmd (i : Instr)
  /-- `WAIT`, with the number of reads that find BUSY = 1 before the engine completes (the latency, log 19). -/
  | wait (busyReads : Nat)
  /-- `LDS name, v`. -/
  | lds (r : Slot) (v : Nat)
  /-- `RDS name`. -/
  | rds (r : Slot)
  /-- `LDB b0 b1 …`. -/
  | ldb (bytes : List Byte)
  /-- `RDB L`. -/
  | rdb (len : Nat)
  /-- `CLR`. -/
  | clr
deriving DecidableEq, Repr

/-- `RD off` as a bus event. -/
def rdEvent (p : Params) (off : Nat) : Event := .bus ⟨p.base + off, 4, .read⟩

/-- `WR off, v` as a bus event. -/
def wrEvent (p : Params) (off : Nat) (v : Word) : Event := .bus ⟨p.base + off, 4, .write v⟩

/-- The offset of word i of a slot (R37). -/
def Slot.wordOffset (r : Slot) (i : Nat) : Nat := 0x8000 + 0x400 * r.number + 4 * i

/-- The words of a byte string, four bytes each, the last one filled up with 0x00 (R58 LDB). -/
def packWords : List Byte → List Word
  | [] => []
  | [b0] => [BitVec.ofNat 32 (be [b0, 0#8, 0#8, 0#8])]
  | [b0, b1] => [BitVec.ofNat 32 (be [b0, b1, 0#8, 0#8])]
  | [b0, b1, b2] => [BitVec.ofNat 32 (be [b0, b1, b2, 0#8])]
  | b0 :: b1 :: b2 :: b3 :: rest => BitVec.ofNat 32 (be [b0, b1, b2, b3]) :: packWords rest

/-- The bus accesses of a line (R58). -/
def HostOp.expand (p : Params) : HostOp → List Event
  | .wr off v => [wrEvent p off v]
  | .rd off => [rdEvent p off]
  | .cmd i => [wrEvent p 0x00C (encode i)]
  | .wait busyReads => List.replicate busyReads (rdEvent p 0x010) ++ [.complete, rdEvent p 0x010]
  | .lds r v =>
    (List.range (p.w / 32)).map fun i => wrEvent p (r.wordOffset i) (BitVec.ofNat 32 (bits v (32 * i + 31) (32 * i)))
  | .rds r => (List.range (p.w / 32)).map fun i => rdEvent p (r.wordOffset i)
  | .ldb bytes => (packWords bytes).mapIdx fun j v => wrEvent p (0x4000 + 4 * j) v
  | .rdb len => (List.range ((len + 3) / 4)).map fun j => rdEvent p (0x6000 + 4 * j)
  | .clr => [wrEvent p 0x010 0x0000001E#32]

/-- A host program as the events it presents. -/
def hostProgram (p : Params) (lines : List HostOp) : List Event := lines.flatMap (HostOp.expand p)

end Sys2Proof.Machine
end

