-- ==== Sys2Proof/Safety.lean ====
section
/-! DEFINITION. What counts as a sound state of the block, and the terms the statements use. They are written in the
spec's own arithmetic, beside the model's operations and not through them. -/

namespace Sys2Proof.Machine

/-- `k` steps, stopping at the first fault or refusal. -/
def run : Nat → State → Host.Outcome State Fault Refusal
  | 0, s => .next s
  | k + 1, s =>
    match step s with
    | .next t => run k t
    | .fault r => .fault r
    | .refused r => .refused r

/-- The invariant of the block. It rules out states no run reaches: a slot outside [0, 2^W) (R13), a buffer out of its
canonical form or with a byte at or above BUF_BYTES (R30, R31), a code never reported (R96), flags that a busy engine
cannot show (R51), and a staged end that is not the running command's (R34, R53). -/
structure State.Inv (s : State) : Prop where
  legal : s.params.legal
  slots : ∀ r : Slot, s.slot r < 2 ^ s.params.w
  ibufForm : s.ibuf.wf = true
  obufForm : s.obuf.wf = true
  ibufSize : ∀ i, s.params.bufBytes ≤ i → s.ibuf.read i = 0x00#8
  obufSize : ∀ i, s.params.bufBytes ≤ i → s.obuf.read i = 0x00#8
  outlen : s.outlen.toNat ≤ s.params.bufBytes
  consumed : s.consumed.toNat ≤ s.params.bufBytes
  errcode : s.status.errcode.toNat ≤ 7
  matches_le : s.status.nmatches.toNat ≤ 4
  errCoded : s.status.err = true → s.status.errcode ≠ 0#4
  busyFlags : s.phase = .busy → s.status.done = false ∧ s.status.err = false ∧ s.status.errcode = 0#4
  idleStaged : s.phase = .idle → s.staged = none
  uncounted : s.phase = .busy → s.staged = none → s.status.nmatches = 0#3
  stagedRule : ∀ r, s.staged = some r → r = wordRule s.cmd s ∧ s.status.nmatches = r.counted.getD 0#3

/-- The state after a successful completion step of a command that writes only slots: DONE set, ERRCODE 0, the engine
idle, and nothing else changed but the slots (R52). -/
def State.succeeded (s : State) (slots : Slots) : State :=
  { s with phase := .idle, staged := none, slots := slots, status := { s.status with done := true, errcode := 0#4 } }

/-- The state after a completion step that reports an error code: DONE and ERR set, ERRCODE the code, the engine idle,
and no slot, buffer, OUTLEN or CONSUMED changed (R52, R97). -/
def State.failed (s : State) (code : BitVec 4) : State :=
  { s with phase := .idle, staged := none, status := { s.status with done := true, err := true, errcode := code } }

/-- The state with STATUS.MATCHES at a count (R68). -/
def State.counting (s : State) (n : Nat) : State :=
  { s with status := { s.status with nmatches := BitVec.ofNat 3 n } }

/-- The low w bits of the integer c, w the suffix width, equal what the strategy of PADCFG and SUF expects (R63, R67). -/
def State.Matches (s : State) (c : Nat) : Prop :=
  if s.padcfg.variant = 0#2 ∨ s.padcfg.variant = 1#2 then
    c % 2 ^ s.padcfg.k.toNat = c / 2 ^ s.padcfg.k.toNat % 2 ^ s.padcfg.k.toNat
  else c % 2 ^ bitlen (s.slot .suf) = s.slot .suf

/-- The width of the padding of PADCFG and SUF (R63). -/
def State.padWidth (s : State) : Nat :=
  if s.padcfg.variant = 0#2 ∨ s.padcfg.variant = 1#2 then s.padcfg.k.toNat else bitlen (s.slot .suf)

/-- The parameter of the selected strategy is zero: k in the bit-copy family, SUF in the suffix family (R64). -/
def State.ParamZero (s : State) : Prop :=
  if s.padcfg.variant = 0#2 ∨ s.padcfg.variant = 1#2 then s.padcfg.k = 0#16 else s.slot .suf = 0

/-- m has a padded value: the parameter is not zero and, in the bit-copy family, m has at least k bits (R64, R66). -/
def State.Paddable (s : State) (m : Nat) : Prop :=
  ¬ s.ParamZero ∧ (s.padcfg.variant = 0#2 ∨ s.padcfg.variant = 1#2 → s.padcfg.k.toNat ≤ bitlen m)

/-- The padded value of m (R66). -/
def State.padded (s : State) (m : Nat) : Nat :=
  if s.padcfg.variant = 0#2 ∨ s.padcfg.variant = 1#2 then m * 2 ^ s.padcfg.k.toNat + m % 2 ^ s.padcfg.k.toNat
  else m * 2 ^ bitlen (s.slot .suf) + s.slot .suf

/-- `d` is the set D of R68: the distinct values among the candidates that match the strategy. -/
def State.MatchSet (s : State) (cands : Finset Nat) (d : Finset Nat) : Prop := ∀ c, c ∈ d ↔ c ∈ cands ∧ s.Matches c

/-- The four candidates of R77 for roots mp and mq, as (r1, n - r1, r3, n - r3). -/
def crtCandidates (p q mp mq : Nat) : Nat × Nat × Nat × Nat :=
  let n : Int := p * q
  let r1 : Int := ((egcd p q).x * p * mq + (egcd p q).y * q * mp) % n
  let r3 : Int := ((egcd p q).x * p * mq - (egcd p q).y * q * mp) % n
  (r1.toNat, (n - r1).toNat, r3.toNat, (n - r3).toNat)

/-- The closed form of R75. -/
def closedRoot (c p : Nat) : Nat := c ^ ((p + 1) / 4) % p

/-- `w` is the one word of a command that does not use LEN: it decodes to `i`, and every other word with its OP is
illegal (R56, R57). -/
def OnlyWord (i : Instr) (w : Word) : Prop :=
  decode w = .instr i ∧ ∀ v : Word, v.toNat % 256 = w.toNat % 256 → v ≠ w → ∃ r, decode v = .illegal r

/-- The words of a command that uses LEN: `(len << 16) | op` decodes to the command with that count, and every word with
its OP and a reserved bit set is illegal (R56, R57). -/
def LenWords (i : Nat → Instr) (op : Word) : Prop :=
  (∀ len : BitVec 16, decode ((len.setWidth 32 <<< 16) ||| op) = .instr (i len.toNat)) ∧
  ∀ v : Word, v.toNat % 256 = op.toNat → v.toNat / 256 % 256 ≠ 0 → ∃ r, decode v = .illegal r

/-- The runs of the loop of R59 from its six variables to the triple it returns. -/
inductive EuclidLoop : Nat → Nat → Int → Int → Int → Int → Bezout → Prop where
  | stop (r0 : Nat) (s0 s1 t0 t1 : Int) : EuclidLoop r0 0 s0 s1 t0 t1 ⟨r0, s0, t0⟩
  | turn (r0 r1 : Nat) (s0 s1 t0 t1 : Int) (out : Bezout) (qt rest : Nat) :
      r1 ≠ 0 → r0 = qt * r1 + rest → rest < r1 →
      EuclidLoop r1 rest s1 (s0 - qt * s1) t1 (t0 - qt * t1) out → EuclidLoop r0 r1 s0 s1 t0 t1 out

/-- The sum of R10 over the first `len` bytes of a buffer. -/
def beSum (mem : Memory) (len : Nat) : Nat :=
  ∑ i ∈ Finset.range len, (mem.read i).toNat * 2 ^ (8 * (len - 1 - i))

/-- The sum of R11 over the first `len` bytes of a buffer. -/
def undecSum (mem : Memory) (len : Nat) : Nat :=
  ∑ i ∈ Finset.range len, ((mem.read i).toNat - 0x30) * 10 ^ (len - 1 - i)

/-- A buffer `new` that holds the `len` bytes of be_bytes(v, len) from byte 0 on and `old` above them (R10, R31). -/
def HoldsBytes (old new : Memory) (v len : Nat) : Prop :=
  (∀ i, i < len → (new.read i).toNat = v / 2 ^ (8 * (len - 1 - i)) % 256) ∧ ∀ i, len ≤ i → new.read i = old.read i

/-- PTB or CTB is 0 or above BUF_BYTES (R83). -/
def State.BadBlockSizes (s : State) : Prop :=
  s.ptb = 0#16 ∨ s.params.bufBytes < s.ptb.toNat ∨ s.ctb = 0#16 ∨ s.params.bufBytes < s.ctb.toNat

/-- An access at window offset `off` is refused: the list of R43 in numbers. -/
def RefusedAccess (p : Params) (off : Nat) (a : Access) : Prop :=
  a.size ≠ 4 ∨ off % 4 ≠ 0 ∨ (0x0028 ≤ off ∧ off < 0x4000) ∨ (0x4000 + p.bufBytes ≤ off ∧ off < 0x6000) ∨
    (0x6000 + p.bufBytes ≤ off ∧ off < 0x8000) ∨ 0xC800 ≤ off ∨
    ((∃ v, a.dir = .write v) ∧
      (off = 0x0000 ∨ off = 0x0004 ∨ off = 0x0020 ∨ off = 0x0024 ∨ (0x6000 ≤ off ∧ off < 0x8000)))

/-- The answer to a refused access: 0 for a read, and the platform's choice of an error response (R43). -/
def refusalAnswer (p : Params) : Dir → Reply
  | .read => .readData 0x00000000#32 p.busErrorResponse
  | .write _ => .writeDone p.busErrorResponse

/-- The state whose next event is the access `a` at window offset `off`, with `rest` after it. -/
def State.presents (s : State) (off size : Nat) (dir : Dir) (rest : List Event) : State :=
  { s with input := .bus ⟨s.params.base + off, size, dir⟩ :: rest }

/-- The engine has the turn: the completion event is next, or nothing is (R118). -/
def State.EngineTurn (s : State) : Prop := s.input = [] ∨ ∃ rest, s.input = .complete :: rest

/-- The column "written by" of R16: the slots a command may write on success. -/
def slotsWrittenBy : Instr → List Slot
  | .nop => []
  | .egcd => [.g, .x, .y]
  | .pad => [.padv]
  | .unpad => [.m, .padv]
  | .modsqr => [.c]
  | .sqrt => [.mp, .mq]
  | .crt => [.g, .x, .y, .cand0, .cand1, .cand2, .cand3]
  | .encrypt => [.padv, .c]
  | .decrypt => [.m, .padv, .mp, .mq, .g, .x, .y, .cand0, .cand1, .cand2, .cand3]
  | .encblk _ => [.m, .padv, .c]
  | .decblk _ => [.m, .padv, .c, .mp, .mq, .g, .x, .y, .cand0, .cand1, .cand2, .cand3]
  | .hdrEmit => []
  | .hdrParse _ => [.suf]

/-- The column "read by" of R16: the slots a command's rule may read. -/
def slotsReadBy : Instr → List Slot
  | .nop => []
  | .egcd => [.a, .b]
  | .pad => [.m, .suf]
  | .unpad => [.suf, .cand0, .cand1, .cand2, .cand3]
  | .modsqr => [.padv, .n]
  | .sqrt => [.c, .p, .q]
  | .crt => [.p, .q, .mp, .mq]
  | .encrypt => [.m, .n, .suf]
  | .decrypt => [.c, .p, .q, .suf]
  | .encblk _ => [.n, .suf]
  | .decblk _ => [.p, .q, .suf]
  | .hdrEmit => [.suf]
  | .hdrParse _ => []

/-- The commands that write OBUF and OUTLEN: ENCBLK, DECBLK and HDR_EMIT (R28, R31). -/
def writesObuf : Instr → Bool
  | .encblk _ => true
  | .decblk _ => true
  | .hdrEmit => true
  | .nop => false
  | .egcd => false
  | .pad => false
  | .unpad => false
  | .modsqr => false
  | .sqrt => false
  | .crt => false
  | .encrypt => false
  | .decrypt => false
  | .hdrParse _ => false

/-- The command that writes CONSUMED: HDR_PARSE (R29). -/
def writesConsumed : Instr → Bool
  | .hdrParse _ => true
  | .encblk _ => false
  | .decblk _ => false
  | .hdrEmit => false
  | .nop => false
  | .egcd => false
  | .pad => false
  | .unpad => false
  | .modsqr => false
  | .sqrt => false
  | .crt => false
  | .encrypt => false
  | .decrypt => false

/-- An event that a busy block takes without abandoning or completing its command: an access that is not a write of 1 to
CTRL.SOFT_RESET (R92), or the engine's run of the rule (R53). -/
def Event.KeepsCommand (p : Params) : Event → Prop
  | .bus a =>
    p.base ≤ a.addr ∧ a.addr < p.base + 0x10000 ∧
      ∀ v, a.dir = .write v → a.size = 4 → a.addr = p.base + 0x0008 → v.toNat / 2 % 2 = 0
  | .execute => True
  | .complete => False
  | .resetInput => False

end Sys2Proof.Machine
end

