-- ==== Sys2Proof/Certificates/Slice0/Obligations.lean ====
section
/-! DEFINITION. The statements about the model, each from a numbered rule of spec/. -/

open Sys2Proof Sys2Proof.Machine

/-! ## Encoding (R54 to R57) -/

/-- The decoder reads back every command with an encoding (R54 to R56). -/
def Obligations.DecodeOfEncodeIsTheInstruction : Prop :=
  ∀ i : Instr, i.WellFormed → decode (encode i) = .instr i

/-- The opcode map of R56, for every word: a word is a command exactly when it agrees with the command's (match, mask)
pair, and the count of ENCBLK, DECBLK and HDR_PARSE is the word's LEN. -/
def Obligations.OpcodeMapIsExact : Prop :=
  ∀ w : Word,
    (decode w = .instr .nop ↔ w &&& 0xFFFFFFFF#32 = 0x00000000#32) ∧
    (decode w = .instr .egcd ↔ w &&& 0xFFFFFFFF#32 = 0x00000001#32) ∧
    (decode w = .instr .pad ↔ w &&& 0xFFFFFFFF#32 = 0x00000002#32) ∧
    (decode w = .instr .unpad ↔ w &&& 0xFFFFFFFF#32 = 0x00000003#32) ∧
    (decode w = .instr .modsqr ↔ w &&& 0xFFFFFFFF#32 = 0x00000004#32) ∧
    (decode w = .instr .sqrt ↔ w &&& 0xFFFFFFFF#32 = 0x00000005#32) ∧
    (decode w = .instr .crt ↔ w &&& 0xFFFFFFFF#32 = 0x00000006#32) ∧
    (decode w = .instr .encrypt ↔ w &&& 0xFFFFFFFF#32 = 0x00000007#32) ∧
    (decode w = .instr .decrypt ↔ w &&& 0xFFFFFFFF#32 = 0x00000008#32) ∧
    (∀ len, decode w = .instr (.encblk len) ↔ w &&& 0x0000FFFF#32 = 0x00000009#32 ∧ len = w.toNat / 2 ^ 16) ∧
    (∀ len, decode w = .instr (.decblk len) ↔ w &&& 0x0000FFFF#32 = 0x0000000A#32 ∧ len = w.toNat / 2 ^ 16) ∧
    (decode w = .instr .hdrEmit ↔ w &&& 0xFFFFFFFF#32 = 0x0000000B#32) ∧
    (∀ len, decode w = .instr (.hdrParse len) ↔ w &&& 0x0000FFFF#32 = 0x0000000C#32 ∧ len = w.toNat / 2 ^ 16)

/-- R57: which words are illegal, and that an illegal word is accepted as R51 says and ends in IllegalCommand, code 7,
with nothing but CMD and STATUS changed (`reply` is the model's bus answer, log 12). -/
def Obligations.IllegalWordsEndInIllegalCommand : Prop :=
  ∀ w : Word,
    ((∃ r, decode w = .illegal r) ↔
      0x0D ≤ w.toNat % 256 ∨ w.toNat / 256 % 256 ≠ 0 ∨
        (w.toNat / 65536 ≠ 0 ∧ w.toNat % 256 ≠ 0x09 ∧ w.toNat % 256 ≠ 0x0A ∧ w.toNat % 256 ≠ 0x0C)) ∧
    ((∃ r, decode w = .illegal r) →
      ∀ (s : State) (rest : List Event), s.phase = .idle →
        ∃ s1, step (s.presents 0x000C 4 (.write w) (.complete :: rest)) = .next s1 ∧
          s1.phase = .busy ∧ s1.cmd = w ∧
          step s1 =
            .next
              { s with
                input := rest
                reply := none
                cmd := w
                phase := .idle
                staged := none
                status := { s.status with done := true, err := true, errcode := 7#4, nmatches := 0#3 } })

/-- Words written out from the encoding of R54 and R56 decode to their commands. -/
def Obligations.WrittenOutWordsDecode : Prop :=
  decode 0x00000000#32 = .instr .nop ∧ decode 0x00000001#32 = .instr .egcd ∧
  decode 0x00000003#32 = .instr .unpad ∧ decode 0x00000008#32 = .instr .decrypt ∧
  decode 0x00020009#32 = .instr (.encblk 2) ∧ decode 0xFFFF000A#32 = .instr (.decblk 65535) ∧
  decode 0x0008000C#32 = .instr (.hdrParse 8)

/-! ## Issue, the engine's turns and the whole step (R51 to R53, R118) -/

/-- When the engine has the turn, a busy block that has not run its rule does exactly what the command in CMD means
(the schedule in `input` is the model's, log 2 and log 5). -/
def Obligations.StepRunsTheAcceptedCommand : Prop :=
  ∀ (s : State) (i : Instr), s.phase = .busy → s.staged = none → decode s.cmd = .instr i →
    (s.input = [] → step s = exec i { s with reply := none }) ∧
    ∀ rest, s.input = .complete :: rest → step s = exec i { s with input := rest, reply := none }

/-- R51: a write of v to CMD while the block is idle issues v, and the engine then runs the rule that v selects. -/
def Obligations.CmdWriteIssuesTheCommand : Prop :=
  ∀ (s : State) (v : Word) (rest : List Event), s.phase = .idle →
    (step (s.presents 0x000C 4 (.write v) rest) =
      .next
        { s with
          input := rest
          reply := some (.writeDone false)
          cmd := v
          phase := .busy
          status := { s.status with done := false, err := false, errcode := 0#4, nmatches := 0#3 }
          staged := none }) ∧
    ∀ (i : Instr) (u : State), decode v = .instr i → u.cmd = v → u.phase = .busy → u.staged = none → u.input = [] →
      step u = exec i { u with reply := none }

/-- R52: the completion step of a command whose rule has ended. On `raise E` nothing but STATUS changes; on `complete`
every staged write is committed, the last one to a place standing, and nothing else changes but STATUS. -/
def Obligations.CompletionCommitsAllOrNothing : Prop :=
  ∀ (s : State) (r : RuleEnd), s.Inv → s.phase = .busy → s.staged = some r → s.EngineTurn →
    (∀ e, r.ending = .raise e →
      step s = .next ({ s with input := s.input.tail, reply := none }.failed e.code)) ∧
    (∀ writes, r.ending = .complete writes →
      ∃ t, step s = .next t ∧
        t = { { s with input := s.input.tail, reply := none }.succeeded t.slots with
              obuf := t.obuf, outlen := t.outlen, consumed := t.consumed } ∧
        (∀ k, (∀ v, .slot k v ∉ writes) → t.slot k = s.slot k) ∧
        (∀ k v pre post, writes = pre ++ .slot k v :: post → (∀ v', .slot k v' ∉ post) → t.slot k = v) ∧
        (∀ n pre post, writes = pre ++ .outlen n :: post → (∀ n', .outlen n' ∉ post) → t.outlen = n) ∧
        ((∀ n, .outlen n ∉ writes) → t.outlen = s.outlen) ∧
        (∀ n pre post, writes = pre ++ .consumed n :: post → (∀ n', .consumed n' ∉ post) → t.consumed = n) ∧
        ((∀ n, .consumed n ∉ writes) → t.consumed = s.consumed) ∧
        (∀ bytes pre post, writes = pre ++ .obuf bytes :: post → (∀ b', .obuf b' ∉ post) →
          t.obuf.readBytes 0 bytes.length = bytes) ∧
        (∀ k, (∀ bytes, .obuf bytes ∈ writes → bytes.length ≤ k) → t.obuf.read k = s.obuf.read k))

/-- R118: the completion step is always enabled while BUSY = 1, whatever the command, and it ends the command. -/
def Obligations.BusyEngineAlwaysCompletes : Prop :=
  ∀ s : State, s.phase = .busy → s.EngineTurn →
    ∃ t, step s = .next t ∧ t.phase = .idle ∧ t.staged = none ∧ t.status.done = true ∧ t.cmd = s.cmd

/-- R98: every command, from every state, ends in a next state with the engine idle, so the next command can be issued;
it reports a code of R96 and sets ERR when the code is not 0. -/
def Obligations.NoCommandIsFatal : Prop :=
  ∀ (i : Instr) (s : State), ∃ t, exec i s = .next t ∧ t.phase = .idle ∧ t.staged = none ∧ t.status.done = true ∧
    t.status.errcode.toNat ≤ 7 ∧ (t.status.errcode ≠ 0#4 → t.status.err = true)

/-- The machine stops only on an access outside the block's window (R36; that it stops there is the model's choice,
log 11), and it never refuses an instruction. -/
def Obligations.StepStopsOnlyOutsideTheWindow : Prop :=
  ∀ s : State, (∀ r, step s ≠ .refused r) ∧
    ∀ f, step s = .fault f ↔
      ∃ a rest, s.input = .bus a :: rest ∧ f = .outsideWindow a.addr ∧
        (a.addr < s.params.base ∨ s.params.base + 0x10000 ≤ a.addr)

/-- R53 and R45: whatever accesses are served while the command runs, and whenever its rule runs among them, the
completion commits the same results, provided no reset comes between. -/
def Obligations.AccessesWhileBusyDoNotChangeTheResult : Prop :=
  ∀ (s : State) (es : List Event), s.Inv → s.phase = .busy → (∀ e ∈ es, e.KeepsCommand s.params) →
    ∃ t u,
      run (es.length + 1) { s with input := es ++ [.complete] } = .next t ∧
      step { s with input := [.complete] } = .next u ∧
      t.slots = u.slots ∧ t.ibuf = u.ibuf ∧ t.obuf = u.obuf ∧ t.outlen = u.outlen ∧ t.consumed = u.consumed ∧
      t.cmd = u.cmd ∧ t.padcfg = u.padcfg ∧ t.ptb = u.ptb ∧ t.ctb = u.ctb ∧ t.params = u.params ∧
      t.phase = .idle ∧ u.phase = .idle ∧ t.status.done = u.status.done ∧ t.status.err = u.status.err ∧
      t.status.errcode = u.status.errcode ∧ t.status.nmatches = u.status.nmatches

/-! ## The invariant (R13, R16, R18, R30, R31, R34, R112) -/

/-- Every step keeps the invariant: slots stay below 2^W, the buffers keep their canonical form and their size, codes and
counts stay in their ranges, a busy engine shows no result, and what is staged is the running command's. -/
def Obligations.StepKeepsTheInvariant : Prop :=
  ∀ s t : State, s.Inv → step s = .next t → t.Inv

/-- The reset state meets the invariant, for every legal choice of the parameters and so for the defaults. -/
def Obligations.ResetMeetsTheInvariant : Prop :=
  (∀ p : Params, p.legal → (State.resetWith p).Inv) ∧ State.reset.Inv

/-! ## Reset (R92, R101, R112) -/

/-- R112: the reset input sets every piece of state to its reset value in one step, in any state; the parameters behind
ID and PARAMS are not affected and IRQ is low. -/
def Obligations.ResetInputSetsEveryResetValue : Prop :=
  ∀ (s : State) (rest : List Event),
    ∃ t, step { s with input := .resetInput :: rest } = .next t ∧ t.irq = false ∧ t.statusWord = 0x00000000#32 ∧
      (∀ k, t.slot k = 0) ∧ (∀ k, t.ibuf.read k = 0x00#8) ∧ (∀ k, t.obuf.read k = 0x00#8) ∧
      t.readTarget .padcfg = 0x00100000#32 ∧ t.readTarget .ptb = 0x00000100#32 ∧ t.readTarget .ctb = 0x00000180#32 ∧
      t.readTarget .outlen = 0x00000000#32 ∧ t.readTarget .consumed = 0x00000000#32 ∧
      t.readTarget .ctrl = 0x00000000#32 ∧ t.readTarget .cmd = 0x00000000#32 ∧
      t.readTarget .id = s.readTarget .id ∧ t.readTarget .params = s.readTarget .params ∧
      t.phase = .idle ∧ t.staged = none ∧ t.params = s.params ∧ t.input = rest

/-- R92: a write to CTRL with bit 1 set, idle or busy, is the reset of R112, and the write's other bits are ignored; with
bit 1 clear it only writes IRQ_EN. -/
def Obligations.SoftResetIsTheReset : Prop :=
  ∀ (s : State) (v : Word) (rest : List Event),
    (v.toNat / 2 % 2 = 1 →
      step (s.presents 0x0008 4 (.write v) rest) =
        .next { State.resetWith s.params with input := rest, reply := some (.writeDone false) }) ∧
    (v.toNat / 2 % 2 = 0 →
      step (s.presents 0x0008 4 (.write v) rest) =
        .next { s with irqEn := decide (v.toNat % 2 = 1), input := rest, reply := some (.writeDone false) })

/-- A reset and a completion taken in either order leave the same reset state (R101). -/
def Obligations.ResetAndCompletionCommute : Prop :=
  ∀ (s : State) (rest : List Event), s.phase = .busy →
    ∃ t1 t2 t, step { s with input := .complete :: .resetInput :: rest } = .next t1 ∧
      step { s with input := .resetInput :: .complete :: rest } = .next t2 ∧
      step t1 = .next t ∧ step t2 = .next t ∧ t = { State.resetWith s.params with input := rest }

/-! ## Bus accesses (R37 to R48) -/

/-- R43: an access on the list of refusals, in any state, reads 0, changes nothing, and sets BUSERR; an access not on it
never sets BUSERR and answers without an error. -/
def Obligations.RefusedAccessesSetBuserrOnly : Prop :=
  ∀ (s : State) (off size : Nat) (dir : Dir) (rest : List Event), s.params.legal → off < 0x10000 →
    (RefusedAccess s.params off ⟨s.params.base + off, size, dir⟩ →
      step (s.presents off size dir rest) =
        .next
          { s with
            input := rest
            reply := some (refusalAnswer s.params dir)
            status := { s.status with buserr := true } }) ∧
    (¬ RefusedAccess s.params off ⟨s.params.base + off, size, dir⟩ →
      ∃ t, step (s.presents off size dir rest) = .next t ∧ (t.status.buserr = true → s.status.buserr = true) ∧
        ((∃ v, t.reply = some (.readData v false)) ∨ t.reply = some (.writeDone false)))

/-- R47: while BUSY a write to CTRL or STATUS is accepted as usual, any other write that is not refused is ignored and
sets WBUSY, every read is accepted, and a refused access sets BUSERR, not WBUSY. -/
def Obligations.BusyWritesAreIgnoredWithWbusy : Prop :=
  ∀ (s : State) (off size : Nat) (dir : Dir) (rest : List Event), s.params.legal → off < 0x10000 → s.phase = .busy →
    (¬ RefusedAccess s.params off ⟨s.params.base + off, size, dir⟩ →
      (∀ v, dir = .write v → off ≠ 0x0008 → off ≠ 0x0010 →
        step (s.presents off size dir rest) =
          .next
            { s with
              input := rest
              reply := some (.writeDone false)
              status := { s.status with wbusy := true } }) ∧
      (∀ v, dir = .write v → off = 0x0008 ∨ off = 0x0010 →
        step (s.presents off size dir rest) =
          match step ({ s with phase := .idle }.presents off size dir rest) with
          | .next u => .next { u with phase := if off = 0x0008 ∧ v.toNat / 2 % 2 = 1 then .idle else .busy }
          | other => other) ∧
      (dir = .read →
        ∃ w, step (s.presents off size dir rest) = .next { s with input := rest, reply := some (.readData w false) })) ∧
    (RefusedAccess s.params off ⟨s.params.base + off, size, dir⟩ →
      ∃ t, step (s.presents off size dir rest) = .next t ∧ t.status.buserr = true ∧
        t.status.wbusy = s.status.wbusy)

/-- What an accepted read returns at every offset of R37, idle or busy, and that it changes nothing else (R20 to R29,
R38, R39, R42, R44, R48). -/
def Obligations.ReadsReturnTheMappedWordAndChangeNothing : Prop :=
  ∀ (s : State) (off : Nat) (rest : List Event), s.Inv → off < 0x10000 →
    ¬ RefusedAccess s.params off ⟨s.params.base + off, 4, .read⟩ →
    ∃ w : Word, step (s.presents off 4 .read rest) = .next { s with input := rest, reply := some (.readData w false) } ∧
      (off = 0x0000 → w = 0x52414231#32) ∧
      (off = 0x0004 → w.toNat = s.params.w / 32 + 65536 * (s.params.bufBytes / 4)) ∧
      (off = 0x0008 → w.toNat = s.irqEn.toNat) ∧
      (off = 0x000C → w = s.cmd) ∧
      (off = 0x0010 →
        w.toNat = (decide (s.phase = .busy)).toNat + 2 * s.status.done.toNat + 4 * s.status.err.toNat +
          8 * s.status.wbusy.toNat + 16 * s.status.buserr.toNat + 256 * s.status.errcode.toNat +
          4096 * s.status.nmatches.toNat) ∧
      (off = 0x0014 → w.toNat = s.padcfg.variant.toNat + 65536 * s.padcfg.k.toNat) ∧
      (off = 0x0018 → w.toNat = s.ptb.toNat) ∧
      (off = 0x001C → w.toNat = s.ctb.toNat) ∧
      (off = 0x0020 → w.toNat = s.outlen.toNat) ∧
      (off = 0x0024 → w.toNat = s.consumed.toNat) ∧
      (∀ j, off = 0x4000 + 4 * j → off < 0x6000 →
        w.toNat = (s.ibuf.read (4 * j)).toNat * 2 ^ 24 + (s.ibuf.read (4 * j + 1)).toNat * 2 ^ 16 +
          (s.ibuf.read (4 * j + 2)).toNat * 2 ^ 8 + (s.ibuf.read (4 * j + 3)).toNat) ∧
      (∀ j, off = 0x6000 + 4 * j → off < 0x8000 →
        w.toNat = (s.obuf.read (4 * j)).toNat * 2 ^ 24 + (s.obuf.read (4 * j + 1)).toNat * 2 ^ 16 +
          (s.obuf.read (4 * j + 2)).toNat * 2 ^ 8 + (s.obuf.read (4 * j + 3)).toNat) ∧
      (∀ (k : Slot) (i : Nat), i < 256 → off = 0x8000 + 0x400 * k.number + 4 * i →
        w.toNat = s.slot k / 2 ^ (32 * i) % 2 ^ 32)

/-- R38: a slot is its 32-bit words, least significant first; a word write changes that word of that slot alone, and at
or above word W/32 it is ignored without BUSERR and the word reads as 0. -/
def Obligations.SlotWordsAreTheSlotValue : Prop :=
  ∀ s : State, s.Inv → s.phase = .idle → ∀ (k : Slot) (i : Nat) (v : Word) (rest : List Event), i < 256 →
    (∃ t, step (s.presents (0x8000 + 0x400 * k.number + 4 * i) 4 (.write v) rest) = .next t ∧
      t = { s with slots := t.slots, input := rest, reply := some (.writeDone false) } ∧
      (∀ l, l ≠ k → t.slot l = s.slot l) ∧
      (∀ j, t.slot k / 2 ^ (32 * j) % 2 ^ 32 =
        if j = i ∧ i < s.params.w / 32 then v.toNat else s.slot k / 2 ^ (32 * j) % 2 ^ 32) ∧
      (s.params.w / 32 ≤ i → t.slot k = s.slot k)) ∧
    (∃ w : Word, step (s.presents (0x8000 + 0x400 * k.number + 4 * i) 4 .read rest) =
        .next { s with input := rest, reply := some (.readData w false) } ∧
      w.toNat = s.slot k / 2 ^ (32 * i) % 2 ^ 32 ∧ (s.params.w / 32 ≤ i → w = 0x00000000#32)) ∧
    s.slot k = ∑ j ∈ Finset.range (s.params.w / 32), s.slot k / 2 ^ (32 * j) % 2 ^ 32 * 2 ^ (32 * j)

/-- R39: the lanes of an IBUF word and of an OBUF word; a write of an IBUF word changes its four bytes alone. -/
def Obligations.BufferWordsAreBigEndianLanes : Prop :=
  ∀ s : State, s.Inv → s.phase = .idle → ∀ (j : Nat) (v : Word) (rest : List Event), 4 * j < s.params.bufBytes →
    (∃ t, step (s.presents (0x4000 + 4 * j) 4 (.write v) rest) = .next t ∧
      t = { s with ibuf := t.ibuf, input := rest, reply := some (.writeDone false) } ∧
      (t.ibuf.read (4 * j)).toNat = v.toNat / 2 ^ 24 % 256 ∧
      (t.ibuf.read (4 * j + 1)).toNat = v.toNat / 2 ^ 16 % 256 ∧
      (t.ibuf.read (4 * j + 2)).toNat = v.toNat / 2 ^ 8 % 256 ∧
      (t.ibuf.read (4 * j + 3)).toNat = v.toNat % 256 ∧
      ∀ a, a < 4 * j ∨ 4 * j + 3 < a → t.ibuf.read a = s.ibuf.read a) ∧
    (∃ w : Word, step (s.presents (0x4000 + 4 * j) 4 .read rest) =
        .next { s with input := rest, reply := some (.readData w false) } ∧
      w.toNat / 2 ^ 24 % 256 = (s.ibuf.read (4 * j)).toNat ∧
      w.toNat / 2 ^ 16 % 256 = (s.ibuf.read (4 * j + 1)).toNat ∧
      w.toNat / 2 ^ 8 % 256 = (s.ibuf.read (4 * j + 2)).toNat ∧
      w.toNat % 256 = (s.ibuf.read (4 * j + 3)).toNat) ∧
    ∃ w : Word, step (s.presents (0x6000 + 4 * j) 4 .read rest) =
        .next { s with input := rest, reply := some (.readData w false) } ∧
      w.toNat / 2 ^ 24 % 256 = (s.obuf.read (4 * j)).toNat ∧
      w.toNat / 2 ^ 16 % 256 = (s.obuf.read (4 * j + 1)).toNat ∧
      w.toNat / 2 ^ 8 % 256 = (s.obuf.read (4 * j + 2)).toNat ∧
      w.toNat % 256 = (s.obuf.read (4 * j + 3)).toNat

/-- The configuration registers store their fields from a write while idle, ignore the reserved bits, and change nothing
else (R25, R26, R27). -/
def Obligations.ConfigurationRegistersStoreTheirFields : Prop :=
  ∀ (s : State) (v : Word) (rest : List Event), s.phase = .idle →
    (∃ c : Padcfg, c.variant.toNat = v.toNat % 4 ∧ c.k.toNat = v.toNat / 65536 ∧
      step (s.presents 0x0014 4 (.write v) rest) =
        .next { s with padcfg := c, input := rest, reply := some (.writeDone false) }) ∧
    (∃ b : BitVec 16, b.toNat = v.toNat % 65536 ∧
      step (s.presents 0x0018 4 (.write v) rest) =
        .next { s with ptb := b, input := rest, reply := some (.writeDone false) }) ∧
    (∃ b : BitVec 16, b.toNat = v.toNat % 65536 ∧
      step (s.presents 0x001C 4 (.write v) rest) =
        .next { s with ctb := b, input := rest, reply := some (.writeDone false) })

/-- The W1C bits of STATUS: a write of 1 clears DONE, ERR, WBUSY or BUSERR, idle or busy, and everything else stays
(R24). -/
def Obligations.StatusWritesClearTheirOnes : Prop :=
  ∀ (s : State) (v : Word) (rest : List Event),
    step (s.presents 0x0010 4 (.write v) rest) =
      .next
        { s with
          input := rest
          reply := some (.writeDone false)
          status :=
            { s.status with
              done := if v.toNat / 2 % 2 = 1 then false else s.status.done
              err := if v.toNat / 4 % 2 = 1 then false else s.status.err
              wbusy := if v.toNat / 8 % 2 = 1 then false else s.status.wbusy
              buserr := if v.toNat / 16 % 2 = 1 then false else s.status.buserr } }

/-- The interrupt output rises only at a completion with IRQ_EN set, or when the host sets IRQ_EN over a standing DONE
(R32, R102). -/
def Obligations.InterruptRisesOnlyAtCompletionOrEnable : Prop :=
  ∀ s t : State, step s = .next t → s.irq = false → t.irq = true →
    (s.phase = .busy ∧ t.phase = .idle ∧ s.irqEn = true ∧ s.EngineTurn) ∨
    (s.status.done = true ∧
      ∃ v rest, s.input = .bus ⟨s.params.base + 0x0008, 4, .write v⟩ :: rest ∧ v.toNat % 2 = 1 ∧ v.toNat / 2 % 2 = 0)

/-! ## Control and extended Euclid (R59 to R62, R91) -/

/-- R91: NOP completes and changes nothing but STATUS. -/
def Obligations.NopOnlyCompletes : Prop :=
  OnlyWord .nop 0x00000000#32 ∧ ∀ s : State, exec .nop s = .next (s.succeeded s.slots)

/-- R59: `egcd` is the result of the loop, run to its end, and it is the greatest common divisor. -/
def Obligations.EgcdRunsTheIterativeLoop : Prop :=
  ∀ a b : Nat, EuclidLoop a b 1 0 0 1 (egcd a b) ∧ (egcd a b).g = Nat.gcd a b ∧
    ((egcd a b).g : Int) = (egcd a b).x * a + (egcd a b).y * b ∧ (egcd a 0).g = a

/-- R60: EGCD of (0, 0) is ParameterError; otherwise G, X, Y take the triple and nothing else changes. -/
def Obligations.EgcdWritesGXY : Prop :=
  OnlyWord .egcd 0x00000001#32 ∧
  ∀ s : State,
    (s.slot .a = 0 ∧ s.slot .b = 0 → exec .egcd s = .next (s.failed 1#4)) ∧
    (¬ (s.slot .a = 0 ∧ s.slot .b = 0) →
      exec .egcd s =
        .next
          (s.succeeded
            { s.slots with
              g := (egcd (s.slot .a) (s.slot .b)).g
              x := ((egcd (s.slot .a) (s.slot .b)).x % 2 ^ s.params.w).toNat
              y := ((egcd (s.slot .a) (s.slot .b)).y % 2 ^ s.params.w).toNat }))

/-- R62: after every successful EGCD the stored X and Y, read as two's complement, are a Bézout pair of A and B, and G
is their greatest common divisor. -/
def Obligations.EgcdStoresABezoutPair : Prop :=
  ∀ s t : State, s.Inv → exec .egcd s = .next t → t.status.errcode = 0#4 →
    (t.slot .g : Int) = t.signedSlot .x * t.slot .a + t.signedSlot .y * t.slot .b ∧
    t.slot .g = Nat.gcd (t.slot .a) (t.slot .b)

/-- R61: the coefficients' bounds, so that X and Y read back exactly x and y. -/
def Obligations.EgcdCoefficientsFit : Prop :=
  ∀ (w a b : Nat), 64 ≤ w → a < 2 ^ w → b < 2 ^ w → ¬ (a = 0 ∧ b = 0) →
    -(2 : Int) ^ (w - 1) ≤ (egcd a b).x ∧ (egcd a b).x < 2 ^ (w - 1) ∧
    -(2 : Int) ^ (w - 1) ≤ (egcd a b).y ∧ (egcd a b).y < 2 ^ (w - 1) ∧
    |(egcd a b).x| ≤ max 1 ((b / (2 * Nat.gcd a b) : Nat) : Int) ∧
    |(egcd a b).y| ≤ max 1 ((a / (2 * Nat.gcd a b) : Nat) : Int) ∧
    sext w ((egcd a b).x % 2 ^ w).toNat = (egcd a b).x ∧ sext w ((egcd a b).y % 2 ^ w).toNat = (egcd a b).y

/-! ## Padding (R63 to R71) -/

/-- R69: PAD, with its errors in the order they are checked. -/
def Obligations.PadWritesThePaddedValue : Prop :=
  OnlyWord .pad 0x00000002#32 ∧
  ∀ s : State,
    (¬ s.Paddable (s.slot .m) → exec .pad s = .next (s.failed 1#4)) ∧
    (s.Paddable (s.slot .m) → 2 ^ s.params.w ≤ s.padded (s.slot .m) → exec .pad s = .next (s.failed 2#4)) ∧
    (s.Paddable (s.slot .m) → s.padded (s.slot .m) < 2 ^ s.params.w →
      exec .pad s = .next (s.succeeded { s.slots with padv := s.padded (s.slot .m) }))

/-- R70 (with R68): UNPAD counts the distinct matching candidates in MATCHES, and selects the one there is. -/
def Obligations.UnpadSelectsTheOneMatch : Prop :=
  OnlyWord .unpad 0x00000003#32 ∧
  ∀ (s : State) (d : Finset Nat), s.MatchSet {s.slot .cand0, s.slot .cand1, s.slot .cand2, s.slot .cand3} d →
    (s.ParamZero → exec .unpad s = .next (s.failed 1#4)) ∧
    (¬ s.ParamZero → d.card ≠ 1 → exec .unpad s = .next ((s.counting d.card).failed 3#4)) ∧
    (∀ c, ¬ s.ParamZero → d = {c} →
      exec .unpad s =
        .next ((s.counting 1).succeeded { s.slots with padv := c, m := c / 2 ^ s.padWidth }))

/-- R71: for every strategy and every integer with a padded value, the padded value matches and strips back to it. -/
def Obligations.PaddingRoundTrips : Prop :=
  ∀ (s : State) (m : Nat), s.Paddable m →
    s.Matches (s.padded m) ∧ s.padded m / 2 ^ s.padWidth = m ∧ s.strategy.padval m = .ok (s.padded m) ∧
    bitlen (s.padded m) = bitlen m + s.padWidth

/-- R65: VARIANT 0 and 1 behave identically in every command, and so do VARIANT 2 and 3. -/
def Obligations.VariantPairsBehaveIdentically : Prop :=
  ∀ (i : Instr) (s t : State) (v w : BitVec 2), (v = 0#2 ∧ w = 1#2) ∨ (v = 2#2 ∧ w = 3#2) →
    (exec i { s with padcfg := ⟨v, s.padcfg.k⟩ } = .next { t with padcfg := ⟨v, s.padcfg.k⟩ } ↔
      exec i { s with padcfg := ⟨w, s.padcfg.k⟩ } = .next { t with padcfg := ⟨w, s.padcfg.k⟩ })

/-! ## The Rabin core (R72 to R82) -/

/-- R73: MODSQR, the range check first. -/
def Obligations.ModsqrSquaresModN : Prop :=
  OnlyWord .modsqr 0x00000004#32 ∧
  ∀ s : State,
    (s.slot .n ≤ s.slot .padv → exec .modsqr s = .next (s.failed 2#4)) ∧
    (s.slot .padv < s.slot .n → s.slot .n < 3 ∨ s.slot .n % 2 = 0 → exec .modsqr s = .next (s.failed 5#4)) ∧
    (s.slot .padv < s.slot .n → 3 ≤ s.slot .n → s.slot .n % 2 = 1 →
      exec .modsqr s = .next (s.succeeded { s.slots with c := s.slot .padv ^ 2 % s.slot .n }))

/-- R76 (with R75): SQRT writes the closed form's values, for every C. -/
def Obligations.SqrtWritesTheClosedForm : Prop :=
  OnlyWord .sqrt 0x00000005#32 ∧
  ∀ s : State,
    (¬ (s.slot .p % 4 = 3 ∧ s.slot .q % 4 = 3) → exec .sqrt s = .next (s.failed 5#4)) ∧
    (s.slot .p % 4 = 3 → s.slot .q % 4 = 3 →
      exec .sqrt s =
        .next
          (s.succeeded
            { s.slots with
              mp := s.slot .c ^ ((s.slot .p + 1) / 4) % s.slot .p
              mq := s.slot .c ^ ((s.slot .q + 1) / 4) % s.slot .q }))

/-- R79 (with R77): CRT, with its errors in the order they are checked. -/
def Obligations.CrtWritesTheCandidates : Prop :=
  OnlyWord .crt 0x00000006#32 ∧
  ∀ s : State,
    (Nat.gcd (s.slot .p) (s.slot .q) ≠ 1 → exec .crt s = .next (s.failed 4#4)) ∧
    (Nat.gcd (s.slot .p) (s.slot .q) = 1 →
      2 ^ s.params.w ≤ s.slot .p * s.slot .q ∨ s.slot .p * s.slot .q < 3 ∨ s.slot .p * s.slot .q % 2 = 0 →
      exec .crt s = .next (s.failed 5#4)) ∧
    (Nat.gcd (s.slot .p) (s.slot .q) = 1 → s.slot .p * s.slot .q < 2 ^ s.params.w → 3 ≤ s.slot .p * s.slot .q →
      s.slot .p * s.slot .q % 2 = 1 →
      exec .crt s =
        .next
          (s.succeeded
            { s.slots with
              g := 1
              x := ((egcd (s.slot .p) (s.slot .q)).x % 2 ^ s.params.w).toNat
              y := ((egcd (s.slot .p) (s.slot .q)).y % 2 ^ s.params.w).toNat
              cand0 := (crtCandidates (s.slot .p) (s.slot .q) (s.slot .mp) (s.slot .mq)).1
              cand1 := (crtCandidates (s.slot .p) (s.slot .q) (s.slot .mp) (s.slot .mq)).2.1
              cand2 := (crtCandidates (s.slot .p) (s.slot .q) (s.slot .mp) (s.slot .mq)).2.2.1
              cand3 := (crtCandidates (s.slot .p) (s.slot .q) (s.slot .mp) (s.slot .mq)).2.2.2 }))

/-- R78: the candidates' congruences, that they do not depend on the Bézout pair, the degenerate cases, the squares. -/
def Obligations.CrtCandidatesAreTheCombinedRoots : Prop :=
  ∀ p q mp mq : Nat, Nat.gcd p q = 1 → 0 < p * q →
    (crtCandidates p q mp mq).1 ≡ mp [MOD p] ∧ (crtCandidates p q mp mq).1 ≡ mq [MOD q] ∧
    (crtCandidates p q mp mq).2.2.1 + mp ≡ 0 [MOD p] ∧ (crtCandidates p q mp mq).2.2.1 ≡ mq [MOD q] ∧
    (∀ yp yq : Int, yp * p + yq * q = 1 →
      (((crtCandidates p q mp mq).1 : Nat) : Int) = (yp * p * mq + yq * q * mp) % (p * q) ∧
      (((crtCandidates p q mp mq).2.2.1 : Nat) : Int) = (yp * p * mq - yq * q * mp) % (p * q)) ∧
    (mp = 0 → (crtCandidates p q mp mq).2.2.1 = (crtCandidates p q mp mq).1) ∧
    (mq = 0 → (crtCandidates p q mp mq).2.2.1 = (crtCandidates p q mp mq).2.1 % (p * q)) ∧
    (mp = 0 ∨ mq = 0 →
      ({(crtCandidates p q mp mq).1, (crtCandidates p q mp mq).2.1, (crtCandidates p q mp mq).2.2.1,
        (crtCandidates p q mp mq).2.2.2} : Finset Nat).card ≤ 2) ∧
    (∀ c, mp ^ 2 ≡ c [MOD p] → mq ^ 2 ≡ c [MOD q] →
      (crtCandidates p q mp mq).1 ^ 2 ≡ c [MOD p * q] ∧ (crtCandidates p q mp mq).2.1 ^ 2 ≡ c [MOD p * q] ∧
      (crtCandidates p q mp mq).2.2.1 ^ 2 ≡ c [MOD p * q] ∧ (crtCandidates p q mp mq).2.2.2 ^ 2 ≡ c [MOD p * q])

/-- R80: ENCRYPT, with its errors in the order they are checked. -/
def Obligations.EncryptPadsAndSquares : Prop :=
  OnlyWord .encrypt 0x00000007#32 ∧
  ∀ s : State,
    (¬ s.Paddable (s.slot .m) → exec .encrypt s = .next (s.failed 1#4)) ∧
    (s.Paddable (s.slot .m) → s.slot .n ≤ s.padded (s.slot .m) → exec .encrypt s = .next (s.failed 2#4)) ∧
    (s.Paddable (s.slot .m) → s.padded (s.slot .m) < s.slot .n → s.slot .n < 3 ∨ s.slot .n % 2 = 0 →
      exec .encrypt s = .next (s.failed 5#4)) ∧
    (s.Paddable (s.slot .m) → s.padded (s.slot .m) < s.slot .n → 3 ≤ s.slot .n → s.slot .n % 2 = 1 →
      exec .encrypt s =
        .next
          (s.succeeded
            { s.slots with padv := s.padded (s.slot .m), c := s.padded (s.slot .m) ^ 2 % s.slot .n }))

/-- ENCRYPT gives the same results and the same error code as PAD followed by MODSQR (R80). -/
def Obligations.EncryptIsPadThenModsqr : Prop :=
  ∀ s t u : State, s.Inv → exec .pad s = .next t → exec .encrypt s = .next u →
    (t.status.errcode ≠ 0#4 → u.status.errcode = t.status.errcode) ∧
    (t.status.errcode = 0#4 → ∃ v, exec .modsqr t = .next v ∧ u.status.errcode = v.status.errcode ∧
      (v.status.errcode = 0#4 → u.slots = v.slots))

/-- R81: DECRYPT, with its errors in the order they are checked. -/
def Obligations.DecryptRootsCombinesAndSelects : Prop :=
  OnlyWord .decrypt 0x00000008#32 ∧
  ∀ (s : State) (mp mq k0 k1 k2 k3 : Nat) (d : Finset Nat),
    mp = closedRoot (s.slot .c) (s.slot .p) → mq = closedRoot (s.slot .c) (s.slot .q) →
    (k0, k1, k2, k3) = crtCandidates (s.slot .p) (s.slot .q) mp mq → s.MatchSet {k0, k1, k2, k3} d →
    (¬ (s.slot .p % 4 = 3 ∧ s.slot .q % 4 = 3) → exec .decrypt s = .next (s.failed 5#4)) ∧
    (s.slot .p % 4 = 3 → s.slot .q % 4 = 3 →
      (Nat.gcd (s.slot .p) (s.slot .q) ≠ 1 → exec .decrypt s = .next (s.failed 4#4)) ∧
      (Nat.gcd (s.slot .p) (s.slot .q) = 1 → 2 ^ s.params.w ≤ s.slot .p * s.slot .q →
        exec .decrypt s = .next (s.failed 5#4)) ∧
      (Nat.gcd (s.slot .p) (s.slot .q) = 1 → s.slot .p * s.slot .q < 2 ^ s.params.w →
        (s.ParamZero → exec .decrypt s = .next (s.failed 1#4)) ∧
        (¬ s.ParamZero → d.card ≠ 1 → exec .decrypt s = .next ((s.counting d.card).failed 3#4)) ∧
        (∀ t, ¬ s.ParamZero → d = {t} →
          exec .decrypt s =
            .next
              ((s.counting 1).succeeded
                { s.slots with
                  mp := mp
                  mq := mq
                  g := 1
                  x := ((egcd (s.slot .p) (s.slot .q)).x % 2 ^ s.params.w).toNat
                  y := ((egcd (s.slot .p) (s.slot .q)).y % 2 ^ s.params.w).toNat
                  cand0 := k0
                  cand1 := k1
                  cand2 := k2
                  cand3 := k3
                  padv := t
                  m := t / 2 ^ s.padWidth }))))

/-- R82: with a key of distinct primes ≡ 3 (mod 4) and N = P·Q < 2^W, the decryption of an encryption has the padded
value among its candidates, and if it succeeds it returns the plaintext. -/
def Obligations.DecryptUndoesEncrypt : Prop :=
  ∀ s t u : State, s.Inv → (s.slot .p).Prime → (s.slot .q).Prime → s.slot .p ≠ s.slot .q → s.slot .p % 4 = 3 →
    s.slot .q % 4 = 3 → s.slot .n = s.slot .p * s.slot .q → exec .encrypt s = .next t → t.status.errcode = 0#4 →
    exec .decrypt t = .next u →
    (t.slot .padv = (crtCandidates (s.slot .p) (s.slot .q) (closedRoot (t.slot .c) (s.slot .p))
        (closedRoot (t.slot .c) (s.slot .q))).1 ∨
      t.slot .padv = (crtCandidates (s.slot .p) (s.slot .q) (closedRoot (t.slot .c) (s.slot .p))
        (closedRoot (t.slot .c) (s.slot .q))).2.1 ∨
      t.slot .padv = (crtCandidates (s.slot .p) (s.slot .q) (closedRoot (t.slot .c) (s.slot .p))
        (closedRoot (t.slot .c) (s.slot .q))).2.2.1 ∨
      t.slot .padv = (crtCandidates (s.slot .p) (s.slot .q) (closedRoot (t.slot .c) (s.slot .p))
        (closedRoot (t.slot .c) (s.slot .q))).2.2.2) ∧
    (u.status.errcode = 0#4 ∨ u.status.errcode = 3#4) ∧
    (u.status.errcode = 0#4 → u.slot .m = s.slot .m ∧ u.slot .padv = t.slot .padv)

/-! ## The block codec (R83 to R90) -/

/-- R84: ENCBLK, with its errors in the order they are checked, and the CTB bytes it writes to OBUF. -/
def Obligations.EncblkEncryptsOneChunk : Prop :=
  LenWords .encblk 0x00000009#32 ∧
  ∀ (s : State) (len m : Nat), s.Inv → m = beSum s.ibuf len →
    (s.BadBlockSizes ∨ len = 0 ∨ s.ptb.toNat < len → exec (.encblk len) s = .next (s.failed 6#4)) ∧
    (¬ (s.BadBlockSizes ∨ len = 0 ∨ s.ptb.toNat < len) →
      (¬ s.Paddable m → exec (.encblk len) s = .next (s.failed 1#4)) ∧
      (s.Paddable m → s.slot .n ≤ s.padded m → exec (.encblk len) s = .next (s.failed 2#4)) ∧
      (s.Paddable m → s.padded m < s.slot .n → s.slot .n < 3 ∨ s.slot .n % 2 = 0 →
        exec (.encblk len) s = .next (s.failed 5#4)) ∧
      (s.Paddable m → s.padded m < s.slot .n → 3 ≤ s.slot .n → s.slot .n % 2 = 1 →
        (2 ^ (8 * s.ctb.toNat) ≤ s.padded m ^ 2 % s.slot .n → exec (.encblk len) s = .next (s.failed 6#4)) ∧
        (s.padded m ^ 2 % s.slot .n < 2 ^ (8 * s.ctb.toNat) →
          ∃ mem : Memory,
            exec (.encblk len) s =
              .next
                { s.succeeded { s.slots with m := m, padv := s.padded m, c := s.padded m ^ 2 % s.slot .n } with
                  obuf := mem, outlen := s.ctb } ∧
            HoldsBytes s.obuf mem (s.padded m ^ 2 % s.slot .n) s.ctb.toNat)))

/-- R85: DECBLK, with its errors in the order they are checked, and the LEN bytes it writes to OBUF. -/
def Obligations.DecblkDecryptsOneBlock : Prop :=
  LenWords .decblk 0x0000000A#32 ∧
  ∀ (s : State) (len c mp mq k0 k1 k2 k3 : Nat) (d : Finset Nat), s.Inv → c = beSum s.ibuf s.ctb.toNat →
    mp = closedRoot c (s.slot .p) → mq = closedRoot c (s.slot .q) →
    (k0, k1, k2, k3) = crtCandidates (s.slot .p) (s.slot .q) mp mq → s.MatchSet {k0, k1, k2, k3} d →
    (s.BadBlockSizes ∨ len = 0 ∨ s.ptb.toNat < len ∨ 2 ^ s.params.w ≤ c →
      exec (.decblk len) s = .next (s.failed 6#4)) ∧
    (¬ (s.BadBlockSizes ∨ len = 0 ∨ s.ptb.toNat < len ∨ 2 ^ s.params.w ≤ c) →
      (¬ (s.slot .p % 4 = 3 ∧ s.slot .q % 4 = 3) → exec (.decblk len) s = .next (s.failed 5#4)) ∧
      (s.slot .p % 4 = 3 → s.slot .q % 4 = 3 →
        (Nat.gcd (s.slot .p) (s.slot .q) ≠ 1 → exec (.decblk len) s = .next (s.failed 4#4)) ∧
        (Nat.gcd (s.slot .p) (s.slot .q) = 1 → 2 ^ s.params.w ≤ s.slot .p * s.slot .q →
          exec (.decblk len) s = .next (s.failed 5#4)) ∧
        (Nat.gcd (s.slot .p) (s.slot .q) = 1 → s.slot .p * s.slot .q < 2 ^ s.params.w →
          (s.ParamZero → exec (.decblk len) s = .next (s.failed 1#4)) ∧
          (¬ s.ParamZero → d.card ≠ 1 → exec (.decblk len) s = .next ((s.counting d.card).failed 3#4)) ∧
          (∀ t, ¬ s.ParamZero → d = {t} → 2 ^ (8 * len) ≤ t / 2 ^ s.padWidth →
            exec (.decblk len) s = .next ((s.counting 1).failed 6#4)) ∧
          (∀ t, ¬ s.ParamZero → d = {t} → t / 2 ^ s.padWidth < 2 ^ (8 * len) →
            ∃ mem : Memory,
              exec (.decblk len) s =
                .next
                  { (s.counting 1).succeeded
                      { s.slots with
                        c := c
                        mp := mp
                        mq := mq
                        g := 1
                        x := ((egcd (s.slot .p) (s.slot .q)).x % 2 ^ s.params.w).toNat
                        y := ((egcd (s.slot .p) (s.slot .q)).y % 2 ^ s.params.w).toNat
                        cand0 := k0
                        cand1 := k1
                        cand2 := k2
                        cand3 := k3
                        padv := t
                        m := t / 2 ^ s.padWidth } with
                    obuf := mem, outlen := BitVec.ofNat 16 len } ∧
              HoldsBytes s.obuf mem (t / 2 ^ s.padWidth) len))))

/-- R87: HDR_EMIT writes the decimal digits of SUF and the terminator 0x0A, or nothing for a bit-copy strategy; a record
too long for OBUF is FormatError, which cannot happen in a sound state. -/
def Obligations.HdrEmitWritesTheRecord : Prop :=
  OnlyWord .hdrEmit 0x0000000B#32 ∧
  ∀ s : State,
    (s.padcfg.variant = 0#2 ∨ s.padcfg.variant = 1#2 →
      exec .hdrEmit s = .next { s.succeeded s.slots with outlen := 0#16 }) ∧
    (s.padcfg.variant = 2#2 ∨ s.padcfg.variant = 3#2 → s.slot .suf = 0 → exec .hdrEmit s = .next (s.failed 1#4)) ∧
    (s.padcfg.variant = 2#2 ∨ s.padcfg.variant = 3#2 → 1 ≤ s.params.bufBytes → s.slot .suf ≠ 0 →
      10 ^ (s.params.bufBytes - 1) ≤ s.slot .suf → exec .hdrEmit s = .next (s.failed 6#4)) ∧
    (s.padcfg.variant = 2#2 ∨ s.padcfg.variant = 3#2 → s.slot .suf ≠ 0 → s.Inv →
      s.slot .suf < 10 ^ (s.params.bufBytes - 1) ∧
      ∃ (n : Nat) (mem : Memory), 1 ≤ n ∧ 10 ^ (n - 1) ≤ s.slot .suf ∧ s.slot .suf < 10 ^ n ∧
        exec .hdrEmit s = .next { s.succeeded s.slots with obuf := mem, outlen := BitVec.ofNat 16 (n + 1) } ∧
        (∀ i, i < n → (mem.read i).toNat = 0x30 + s.slot .suf / 10 ^ (n - 1 - i) % 10) ∧
        mem.read n = 0x0A#8 ∧ ∀ i, n < i → mem.read i = s.obuf.read i)

/-- R88: HDR_PARSE, case by case. -/
def Obligations.HdrParseLoadsTheValue : Prop :=
  LenWords .hdrParse 0x0000000C#32 ∧
  ∀ (s : State) (len : Nat),
    (len = 0 ∨ s.params.bufBytes < len → exec (.hdrParse len) s = .next (s.failed 6#4)) ∧
    ((∀ i, i < len → s.ibuf.read i ≠ 0x0A#8) → exec (.hdrParse len) s = .next (s.failed 6#4)) ∧
    (∀ i, len ≤ s.params.bufBytes → i < len → s.ibuf.read i = 0x0A#8 → (∀ j, j < i → s.ibuf.read j ≠ 0x0A#8) →
      (i = 0 → exec (.hdrParse len) s = .next (s.failed 6#4)) ∧
      ((∃ j, j < i ∧ ((s.ibuf.read j).toNat < 0x30 ∨ 0x39 < (s.ibuf.read j).toNat)) →
        exec (.hdrParse len) s = .next (s.failed 6#4)) ∧
      ((∀ j, j < i → 0x30 ≤ (s.ibuf.read j).toNat ∧ (s.ibuf.read j).toNat ≤ 0x39) →
        (undecSum s.ibuf i = 0 ∨ 2 ^ s.params.w ≤ undecSum s.ibuf i →
          exec (.hdrParse len) s = .next (s.failed 6#4)) ∧
        (undecSum s.ibuf i ≠ 0 → undecSum s.ibuf i < 2 ^ s.params.w →
          exec (.hdrParse len) s =
            .next
              { s.succeeded { s.slots with suf := undecSum s.ibuf i } with consumed := BitVec.ofNat 16 (i + 1) })))

/-- R90, first half: a block that ENCBLK writes, given to DECBLK with the same LEN, the same sizes and strategy, comes
back byte for byte or is a DisambiguationError. -/
def Obligations.BlockCodecRoundTrips : Prop :=
  ∀ (s t u v : State) (len : Nat), s.Inv → u.Inv → (u.slot .p).Prime → (u.slot .q).Prime → u.slot .p ≠ u.slot .q →
    u.slot .p % 4 = 3 → u.slot .q % 4 = 3 → s.slot .n = u.slot .p * u.slot .q →
    u.params = s.params → u.ptb = s.ptb → u.ctb = s.ctb → u.padcfg = s.padcfg → u.slot .suf = s.slot .suf →
    exec (.encblk len) s = .next t → t.status.errcode = 0#4 →
    (∀ i, i < t.outlen.toNat → u.ibuf.read i = t.obuf.read i) →
    exec (.decblk len) u = .next v →
    v.status.errcode = 3#4 ∨
      (v.status.errcode = 0#4 ∧ v.outlen.toNat = len ∧ ∀ i, i < len → v.obuf.read i = s.ibuf.read i)

/-- R90, second half: a header record that HDR_EMIT writes, given to HDR_PARSE with any bytes after it, loads the same
SUF and reports its length. -/
def Obligations.HeaderRecordRoundTrips : Prop :=
  ∀ (s t u : State) (len : Nat), s.Inv → u.params = s.params →
    s.padcfg.variant = 2#2 ∨ s.padcfg.variant = 3#2 → s.slot .suf ≠ 0 → exec .hdrEmit s = .next t →
    (∀ i, i < t.outlen.toNat → u.ibuf.read i = t.obuf.read i) → t.outlen.toNat ≤ len → len ≤ u.params.bufBytes →
    ∃ v, exec (.hdrParse len) u = .next v ∧ v.status.errcode = 0#4 ∧ v.slot .suf = s.slot .suf ∧
      v.consumed = t.outlen

/-! ## Whole-machine rules -/

/-- The frame of every command: only the slots of its "written by" column change (R16), OBUF and OUTLEN only for ENCBLK,
DECBLK and HDR_EMIT and OBUF only below OUTLEN (R28, R31), CONSUMED only for HDR_PARSE (R29), and no command changes
IBUF, CMD, CTRL, PADCFG, PTB, CTB, WBUSY or BUSERR (R30, R34, R101). -/
def Obligations.CommandsWriteOnlyTheirDestinations : Prop :=
  ∀ (i : Instr) (s t : State), s.Inv → exec i s = .next t →
    (∀ k, k ∉ slotsWrittenBy i → t.slot k = s.slot k) ∧
    (writesObuf i = false → (∀ a, t.obuf.read a = s.obuf.read a) ∧ t.outlen = s.outlen) ∧
    (∀ a, t.outlen.toNat ≤ a → t.obuf.read a = s.obuf.read a) ∧
    (writesConsumed i = false → t.consumed = s.consumed) ∧
    (∀ a, t.ibuf.read a = s.ibuf.read a) ∧ t.cmd = s.cmd ∧ t.irqEn = s.irqEn ∧ t.padcfg = s.padcfg ∧
    t.ptb = s.ptb ∧ t.ctb = s.ctb ∧ t.params = s.params ∧ t.input = s.input ∧ t.reply = s.reply ∧
    t.status.wbusy = s.status.wbusy ∧ t.status.buserr = s.status.buserr

/-- What a command may learn: two states that agree on its "read by" slots (R16), the configuration and IBUF give the
same error, the same count and the same results, whatever the other slots (the secret P and Q among them) hold. -/
def Obligations.CommandsReadOnlyTheirOperands : Prop :=
  ∀ (i : Instr) (s u s' u' : State), s.Inv → u.Inv → (∀ k ∈ slotsReadBy i, s.slot k = u.slot k) →
    s.params = u.params → s.padcfg = u.padcfg → s.ptb = u.ptb → s.ctb = u.ctb → s.ibuf = u.ibuf →
    s.status = u.status → exec i s = .next s' → exec i u = .next u' →
    s'.status = u'.status ∧
    (s'.status.errcode = 0#4 →
      (∀ k ∈ slotsWrittenBy i, s'.slot k = u'.slot k) ∧
      (writesObuf i = true → s'.outlen = u'.outlen ∧ ∀ a, a < s'.outlen.toNat → s'.obuf.read a = u'.obuf.read a) ∧
      (writesConsumed i = true → s'.consumed = u'.consumed))

/-- Errors are precise: a command that reports a code leaves every slot, buffer byte, OUTLEN and CONSUMED as before, and
MATCHES changes only with DisambiguationError or a later FormatError of DECBLK (R97, R103). -/
def Obligations.FailingCommandsChangeOnlyStatus : Prop :=
  ∀ (i : Instr) (s t : State), exec i s = .next t → t.status.errcode ≠ 0#4 →
    (∃ m, t = { s with status := { s.status with nmatches := m } }.failed t.status.errcode) ∧
    (t.status.nmatches ≠ s.status.nmatches →
      t.status.errcode = 3#4 ∨ (t.status.errcode = 6#4 ∧ ∃ len, i = .decblk len))

/-- OUTLEN changes only when ENCBLK, DECBLK or HDR_EMIT commits, CONSUMED only when HDR_PARSE commits, or at a reset
(R28, R29, R112). -/
def Obligations.ResultLengthsChangeOnlyAtTheirCommits : Prop :=
  ∀ s t : State, s.Inv → step s = .next t →
    (t.outlen ≠ s.outlen →
      (s.phase = .busy ∧ t.phase = .idle ∧ t.status.errcode = 0#4 ∧ ∃ i, decode s.cmd = .instr i ∧ writesObuf i = true) ∨
      t = { State.resetWith s.params with input := t.input, reply := t.reply }) ∧
    (t.consumed ≠ s.consumed →
      (s.phase = .busy ∧ t.phase = .idle ∧ t.status.errcode = 0#4 ∧
        ∃ i, decode s.cmd = .instr i ∧ writesConsumed i = true) ∨
      t = { State.resetWith s.params with input := t.input, reply := t.reply })

/-! ## The spec's notation (R9 to R11) and the host assembly (R58) -/

/-- R9: the number of binary digits. -/
def Obligations.BitlenCountsBinaryDigits : Prop :=
  bitlen 0 = 0 ∧ ∀ v b : Nat, 1 ≤ b → (bitlen v = b ↔ 2 ^ (b - 1) ≤ v ∧ v < 2 ^ b)

/-- R10: `be` is the sum with the first byte most significant, and `be_bytes(v, L)` is the unique string of L bytes
whose `be` is v. -/
def Obligations.BigEndianBytesAreUnique : Prop :=
  (∀ bytes : List Byte,
    be bytes = ∑ i ∈ Finset.range bytes.length, (bytes.getD i 0#8).toNat * 2 ^ (8 * (bytes.length - 1 - i))) ∧
  ∀ (v len : Nat), 1 ≤ len → v < 2 ^ (8 * len) →
    ∀ bytes : List Byte, (bytes.length = len ∧ be bytes = v) ↔ bytes = beBytes v len

/-- R11: `dec(v)` is digits without a leading zero, and `undec`, the sum with the first digit most significant, reads it
back. -/
def Obligations.DecimalTextReadsBack : Prop :=
  (∀ bytes : List Byte, bytes ≠ [] → (∀ b ∈ bytes, 0x30 ≤ b.toNat ∧ b.toNat ≤ 0x39) →
    undec bytes =
      ∑ i ∈ Finset.range bytes.length, ((bytes.getD i 0#8).toNat - 0x30) * 10 ^ (bytes.length - 1 - i)) ∧
  ∀ v : Nat, 1 ≤ v → undec (dec v) = v ∧ (∀ b ∈ dec v, 0x30 ≤ b.toNat ∧ b.toNat ≤ 0x39) ∧
    ∃ b rest, dec v = b :: rest ∧ b ≠ 0x30#8

/-- The host's `LDS name, v` (R58) loads the slot and changes no other slot, buffer byte or register. -/
def Obligations.LoadSlotMacroLoadsTheSlot : Prop :=
  ∀ (s : State) (k : Slot) (v : Nat), s.Inv → s.phase = .idle → v < 2 ^ s.params.w →
    ∃ t, run ((HostOp.lds k v).expand s.params).length { s with input := (HostOp.lds k v).expand s.params } =
        .next t ∧
      t.slot k = v ∧ (∀ l, l ≠ k → t.slot l = s.slot l) ∧
      t = { s with slots := t.slots, input := [], reply := t.reply }
end

