-- ==== Sys2Proof/Laws/Decode.lean ====
section
/-! SUPPORT. The fields of a command word as arithmetic, the fields of an encoded word, and the decoder's inversion. -/

namespace Sys2Proof

theorem opField_eq (w : Word) : opField w = w.toNat % 256 := by simp [opField, bits]

theorem rsvField_eq (w : Word) : rsvField w = w.toNat / 256 % 256 := by simp [rsvField, bits]

theorem lenField_eq (w : Word) : lenField w = w.toNat / 65536 := by
  have := w.isLt
  simp only [lenField, bits]
  omega

theorem Instr.opcode_le (i : Instr) : i.opcode ≤ 12 := by cases i <;> simp [Instr.opcode]

/-- The number of an encoded word. -/
theorem encode_toNat {i : Instr} (h : i.WellFormed) : (encode i).toNat = i.len * 65536 + i.opcode := by
  have := i.opcode_le
  rw [encode, BitVec.toNat_ofNat]
  have : i.len < 65536 := h
  omega

theorem opField_encode {i : Instr} (h : i.WellFormed) : opField (encode i) = i.opcode := by
  have := i.opcode_le
  rw [opField_eq, encode_toNat h]
  omega

theorem rsvField_encode {i : Instr} (h : i.WellFormed) : rsvField (encode i) = 0 := by
  have := i.opcode_le
  rw [rsvField_eq, encode_toNat h]
  omega

theorem lenField_encode {i : Instr} (h : i.WellFormed) : lenField (encode i) = i.len := by
  have := i.opcode_le
  rw [lenField_eq, encode_toNat h]
  omega

/-- The opcode map names each command at its own OP. -/
theorem commandOf_opcode (i : Instr) : commandOf i.opcode i.len = some i := by cases i <;> rfl

theorem commandOf_none {op : Nat} (h : 13 ≤ op) (len : Nat) : commandOf op len = none := by
  obtain ⟨k, rfl⟩ := Nat.exists_eq_add_of_le h
  rw [Nat.add_comm]
  rfl

/-- What `commandOf` answers: a command with that OP, and that count where LEN is used. -/
theorem commandOf_some {op len : Nat} {i : Instr} (h : commandOf op len = some i) :
    i.opcode = op ∧ (i.usesLen = true → i.len = len) ∧ (i.usesLen = false → i.len = 0) := by
  rcases Nat.lt_or_ge op 13 with hlt | hge
  · interval_cases op <;> simp only [commandOf, Option.some.injEq] at h <;> subst h <;>
      simp [Instr.opcode, Instr.usesLen, Instr.len]
  · rw [commandOf_none hge] at h
    exact absurd h (by simp)

/-- When the decoder reads a command: RSV is 0, OP is the command's, and LEN is its count (0 where unused). -/
theorem decode_eq_instr_iff (w : Word) (i : Instr) :
    decode w = .instr i ↔ rsvField w = 0 ∧ opField w = i.opcode ∧ lenField w = i.len := by
  unfold decode
  split
  · next h => simp [h]
  · next h =>
    have h0 : rsvField w = 0 := not_not.1 h
    constructor
    · intro hd
      split at hd
      · exact absurd hd (by simp)
      · next j hj =>
        obtain ⟨ho, hu, hn⟩ := commandOf_some hj
        split at hd
        · exact absurd hd (by simp)
        · next hl =>
          obtain rfl : j = i := by simpa using hd
          refine ⟨h0, ho.symm, ?_⟩
          cases hb : j.usesLen
          · rw [hn hb]
            by_contra hne
            exact hl ⟨hb, hne⟩
          · exact (hu hb).symm
    · rintro ⟨-, ho, hl⟩
      rw [ho, hl, commandOf_opcode]
      simp only
      rw [if_neg]
      rintro ⟨hb, hne⟩
      cases i <;> simp_all [Instr.usesLen, Instr.len]

/-- Every word is a command or illegal. -/
theorem decode_illegal_iff (w : Word) : (∃ r, decode w = .illegal r) ↔ ∀ i, decode w ≠ .instr i := by
  cases h : decode w <;> simp

end Sys2Proof
end

