-- ==== Sys2Proof/Laws/Numbers.lean ====
section
/-! SUPPORT. One lemma per function of Machine/Numbers.lean, saying what it computes. -/

namespace Sys2Proof

/-! ## Bit fields and lengths (R8, R9) -/

theorem bits_lt (v hi lo : Nat) : bits v hi lo < 2 ^ (hi - lo + 1) := Nat.mod_lt _ (by positivity)

theorem bitlen_le_iff (v b : Nat) : bitlen v ≤ b ↔ v < 2 ^ b := by
  unfold bitlen
  split
  · subst_vars; simp
  · next h => rw [Nat.add_one_le_iff, Nat.log2_lt h]

theorem lt_two_pow_bitlen (v : Nat) : v < 2 ^ bitlen v := (bitlen_le_iff v _).1 le_rfl

theorem bitlen_eq_iff {v : Nat} (hv : v ≠ 0) (b : Nat) : bitlen v = b ↔ 0 < b ∧ 2 ^ (b - 1) ≤ v ∧ v < 2 ^ b := by
  have h0 : bitlen v ≠ 0 := by simp [bitlen, hv]
  have h1 := bitlen_le_iff v b
  have h2 := bitlen_le_iff v (b - 1)
  omega

/-! ## Two's complement (R12, R17) -/

theorem twosComplement_lt (n : Nat) (v : Int) : twosComplement n v < 2 ^ n := by
  have h1 := Int.emod_nonneg v (b := 2 ^ n) (by positivity)
  have h2 := Int.emod_lt_of_pos v (b := 2 ^ n) (by positivity)
  unfold twosComplement
  zify
  omega

theorem sext_twosComplement {n : Nat} (hn : 1 ≤ n) {v : Int} (h1 : -2 ^ (n - 1) ≤ v) (h2 : v < 2 ^ (n - 1)) :
    sext n (twosComplement n v) = v := by
  obtain ⟨k, rfl⟩ : ∃ k, n = k + 1 := ⟨n - 1, by omega⟩
  simp only [Nat.add_sub_cancel] at h1 h2
  have hP : (0 : Int) < 2 ^ k := by positivity
  have hPn : 0 < 2 ^ k := by positivity
  have hc : ((2 ^ k : Nat) : Int) = 2 ^ k := by push_cast; rfl
  unfold sext twosComplement
  rw [Nat.add_sub_cancel, pow_succ]
  rcases lt_or_ge v 0 with hv | hv
  · have e : v % (2 ^ k * 2) = v + 2 ^ k * 2 := by
      rw [← Int.add_emod_right, Int.emod_eq_of_lt] <;> omega
    have hq : (v % (2 ^ k * 2)).toNat / 2 ^ k % 2 = 1 := by
      have : (v % (2 ^ k * 2)).toNat / 2 ^ k = 1 := by
        apply Nat.div_eq_of_lt_le <;> (rw [e]; omega)
      omega
    rw [if_pos hq, e]
    omega
  · have e : v % (2 ^ k * 2) = v := Int.emod_eq_of_lt hv (by omega)
    have hq : ¬ (v % (2 ^ k * 2)).toNat / 2 ^ k % 2 = 1 := by
      have : (v % (2 ^ k * 2)).toNat / 2 ^ k = 0 := Nat.div_eq_of_lt (by rw [e]; omega)
      omega
    rw [if_neg hq, e]
    omega

/-! ## Byte strings (R10) -/

theorem be_aux (bytes : List Byte) (acc : Nat) :
    bytes.foldl (fun acc b => acc * 256 + b.toNat) acc = acc * 256 ^ bytes.length + be bytes := by
  induction bytes generalizing acc with
  | nil => simp [be]
  | cons b rest ih =>
    simp only [be, List.foldl_cons, List.length_cons]
    rw [ih, ih (0 * 256 + b.toNat)]
    ring

@[simp] theorem be_nil : be [] = 0 := rfl

theorem be_cons (b : Byte) (rest : List Byte) : be (b :: rest) = b.toNat * 256 ^ rest.length + be rest := by
  rw [be, List.foldl_cons, be_aux]
  ring

theorem be_lt (bytes : List Byte) : be bytes < 256 ^ bytes.length := by
  induction bytes with
  | nil => simp
  | cons b rest ih =>
    rw [be_cons, List.length_cons, pow_succ]
    have := b.isLt
    nlinarith

@[simp] theorem beBytes_length (v len : Nat) : (beBytes v len).length = len := by
  induction len with
  | zero => rfl
  | succ n ih => simp [beBytes, ih]

theorem be_beBytes_mod (v len : Nat) : be (beBytes v len) = v % 256 ^ len := by
  induction len with
  | zero => simp [beBytes, Nat.mod_one]
  | succ n ih =>
    rw [beBytes, be_cons, ih, beBytes_length, BitVec.toNat_ofNat, show 256 ^ (n + 1) = 256 ^ n * 256 from pow_succ _ _,
      Nat.mod_mul]
    ring

theorem be_beBytes {v len : Nat} (h : v < 256 ^ len) : be (beBytes v len) = v := by
  rw [be_beBytes_mod, Nat.mod_eq_of_lt h]

theorem beBytes_be (bytes : List Byte) : beBytes (be bytes) bytes.length = bytes := by
  induction bytes with
  | nil => rfl
  | cons b rest ih =>
    have hlt := be_lt rest
    have hdiv : be (b :: rest) / 256 ^ rest.length = b.toNat := by
      rw [be_cons, Nat.add_comm, Nat.add_mul_div_right _ _ (by positivity), Nat.div_eq_of_lt hlt, Nat.zero_add]
    have hmod : ∀ k ≤ rest.length, ∀ v, beBytes (b.toNat * 256 ^ rest.length + v) k = beBytes v k := by
      intro k
      induction k with
      | zero => intros; rfl
      | succ k ihk =>
        intro hk v
        obtain ⟨d, hd⟩ := Nat.exists_eq_add_of_le hk
        rw [beBytes, beBytes, ihk (by omega)]
        congr 1
        apply BitVec.eq_of_toNat_eq
        rw [BitVec.toNat_ofNat, BitVec.toNat_ofNat, hd,
          show b.toNat * 256 ^ (k + 1 + d) + v = v + 256 ^ k * (b.toNat * 256 ^ d * 256) by ring,
          Nat.add_mul_div_left _ _ (by positivity)]
        omega
    rw [List.length_cons, beBytes, hdiv, be_cons, hmod _ le_rfl, ih]
    simp

theorem be_injective {a b : List Byte} (hlen : a.length = b.length) (h : be a = be b) : a = b := by
  rw [← beBytes_be a, ← beBytes_be b, h, hlen]

/-! ## Decimal text (R11) -/

theorem decAux_eq {fuel v : Nat} (h : v ≤ fuel) (acc : List Byte) :
    decAux fuel v acc = (Nat.digits 10 v).reverse.map digitByte ++ acc := by
  induction fuel generalizing v acc with
  | zero => obtain rfl : v = 0 := by omega
            simp [decAux]
  | succ n ih =>
    rw [decAux]
    split
    · subst_vars; simp
    · next hv =>
      rw [ih (by omega), Nat.digits_def' (b := 10) (n := v) (by norm_num) (by omega)]
      simp

theorem dec_eq_digits (v : Nat) : dec v = (Nat.digits 10 v).reverse.map digitByte := by
  rw [dec, decAux_eq le_rfl, List.append_nil]

theorem digitByte_toNat {d : Nat} (h : d < 10) : (digitByte d).toNat = 0x30 + d := by
  rw [digitByte, BitVec.toNat_ofNat]
  omega

theorem dec_isDigit (v : Nat) : ∀ b ∈ dec v, isDigit b = true := by
  intro b hb
  rw [dec_eq_digits] at hb
  obtain ⟨d, hd, rfl⟩ := List.mem_map.1 hb
  have : d < 10 := Nat.digits_lt_base (by norm_num) (List.mem_reverse.1 hd)
  simp only [isDigit, digitByte_toNat this, Bool.and_eq_true, decide_eq_true_eq]
  omega

theorem dec_ne_nil {v : Nat} (h : v ≠ 0) : dec v ≠ [] := by
  simp [dec_eq_digits, Nat.digits_ne_nil_iff_ne_zero, h]

theorem undec_aux (bytes : List Byte) (acc : Nat) :
    bytes.foldl (fun acc b => acc * 10 + (b.toNat - 0x30)) acc = acc * 10 ^ bytes.length + undec bytes := by
  induction bytes generalizing acc with
  | nil => simp [undec]
  | cons b rest ih =>
    simp only [undec, List.foldl_cons, List.length_cons]
    rw [ih, ih (0 * 10 + (b.toNat - 0x30))]
    ring

theorem undec_cons (b : Byte) (rest : List Byte) :
    undec (b :: rest) = (b.toNat - 0x30) * 10 ^ rest.length + undec rest := by
  rw [undec, List.foldl_cons, undec_aux]
  ring

theorem undec_dec (v : Nat) : undec (dec v) = v := by
  have key : ∀ l : List Nat, (∀ d ∈ l, d < 10) → undec (l.reverse.map digitByte) = Nat.ofDigits 10 l := by
    intro l
    induction l using List.reverseRecOn with
    | nil => intro; rfl
    | append_singleton l d ih =>
      intro hl
      rw [List.reverse_append, List.reverse_singleton, List.singleton_append, List.map_cons, undec_cons,
        ih (fun x hx => hl x (by simp [hx])), digitByte_toNat (hl d (by simp)), Nat.ofDigits_append]
      simp
      ring
  rw [dec_eq_digits, key _ (fun d hd => Nat.digits_lt_base (by norm_num) hd), Nat.ofDigits_digits]

theorem dec_length_mono {a b : Nat} (h : a ≤ b) : (dec a).length ≤ (dec b).length := by
  simpa [dec_eq_digits] using Nat.le_length_digits_le 10 a b h

/-! ## Extended Euclid (R59) -/

theorem egcdLoop_gcd {fuel r1 : Nat} (h : r1 < fuel) (r0 : Nat) (s0 s1 t0 t1 : Int) :
    (egcdLoop fuel r0 r1 s0 s1 t0 t1).g = Nat.gcd r0 r1 := by
  induction fuel generalizing r0 r1 s0 s1 t0 t1 with
  | zero => omega
  | succ n ih =>
    rw [egcdLoop]
    split
    · subst_vars; simp
    · next h0 =>
      have hmod : r0 - r0 / r1 * r1 = r0 % r1 := by rw [Nat.mod_eq_sub_div_mul]
      have hlt := Nat.mod_lt r0 (Nat.pos_of_ne_zero h0)
      rw [hmod, ih (by omega), Nat.gcd_comm r1, ← Nat.gcd_rec, Nat.gcd_comm]

theorem egcdLoop_bezout {fuel r1 : Nat} (h : r1 < fuel) (r0 : Nat) (s0 s1 t0 t1 a b : Int)
    (h0 : (r0 : Int) = s0 * a + t0 * b) (h1 : (r1 : Int) = s1 * a + t1 * b) :
    ((egcdLoop fuel r0 r1 s0 s1 t0 t1).g : Int) =
      (egcdLoop fuel r0 r1 s0 s1 t0 t1).x * a + (egcdLoop fuel r0 r1 s0 s1 t0 t1).y * b := by
  induction fuel generalizing r0 r1 s0 s1 t0 t1 with
  | zero => omega
  | succ n ih =>
    rw [egcdLoop]
    split
    · exact h0
    · next hr =>
      have hmod : r0 - r0 / r1 * r1 = r0 % r1 := by rw [Nat.mod_eq_sub_div_mul]
      have hlt := Nat.mod_lt r0 (Nat.pos_of_ne_zero hr)
      refine ih (by omega) _ _ _ _ _ h1 ?_
      rw [Nat.cast_sub (Nat.div_mul_le_self r0 r1), Nat.cast_mul, h0, h1]
      ring

/-- `egcd` returns the greatest common divisor. -/
theorem egcd_gcd (a b : Nat) : (egcd a b).g = Nat.gcd a b := egcdLoop_gcd (Nat.lt_succ_self b) a _ _ _ _

/-- `egcd` returns a Bézout pair. -/
theorem egcd_bezout (a b : Nat) : ((egcd a b).g : Int) = (egcd a b).x * a + (egcd a b).y * b :=
  egcdLoop_bezout (Nat.lt_succ_self b) a _ _ _ _ _ _ (by ring) (by ring)

/-! ## Modular power (R75) -/

theorem powModLoop_eq (m : Nat) {fuel e : Nat} (h : e < fuel) (base acc : Nat) :
    powModLoop m fuel base e acc = acc * base ^ e % m := by
  induction fuel generalizing base e acc with
  | zero => omega
  | succ n ih =>
    rw [powModLoop]
    split
    · subst_vars; simp
    · next he =>
      rw [ih (by omega)]
      have hpow : ∀ c : Nat, c * (base * base % m) ^ (e / 2) % m = c * base ^ (2 * (e / 2)) % m := fun c => by
        rw [Nat.mul_mod, ← Nat.pow_mod, ← Nat.mul_mod, ← pow_two, ← pow_mul]
      rw [hpow]
      rcases Nat.mod_two_eq_zero_or_one e with h2 | h2
      · rw [if_neg (by omega), show 2 * (e / 2) = e by omega]
      · rw [if_pos h2, Nat.mul_mod, Nat.mod_mod, ← Nat.mul_mod, mul_assoc, ← pow_succ',
          show 2 * (e / 2) + 1 = e by omega]

/-- Square and multiply computes the residue of the power. -/
theorem powMod_eq (base e m : Nat) : powMod base e m = base ^ e % m := by
  rw [powMod, powModLoop_eq m (Nat.lt_succ_self e), one_mul]

end Sys2Proof
end

