-- ==== Sys2Proof/Laws/Memory.lean ====
section
/-! SUPPORT. The byte buffers: a read after a write, and the canonical form that every write keeps. -/

namespace Sys2Proof.Machine

@[simp] theorem Memory.read_nil (i : Nat) : Memory.read [] i = 0x00#8 := rfl

theorem Memory.wfFrom_mono {mem : Memory} {lo lo' : Nat} (h : mem.wfFrom lo = true) (hle : lo' ≤ lo) :
    mem.wfFrom lo' = true := by
  cases mem with
  | nil => rfl
  | cons c rest =>
    simp only [Memory.wfFrom, Bool.and_eq_true, decide_eq_true_eq] at h ⊢
    exact ⟨⟨hle.trans h.1.1, h.1.2⟩, h.2⟩

theorem Memory.read_of_lt {mem : Memory} {lo i : Nat} (h : mem.wfFrom lo = true) (hi : i < lo) : mem.read i = 0x00#8 := by
  induction mem generalizing lo with
  | nil => rfl
  | cons c rest ih =>
    simp only [Memory.wfFrom, Bool.and_eq_true, decide_eq_true_eq] at h
    rw [Memory.read, if_neg (by omega), ih h.2 (by omega)]

theorem Memory.wfFrom_write {mem : Memory} {lo i : Nat} (h : mem.wfFrom lo = true) (hi : lo ≤ i) (v : Byte) :
    (mem.write i v).wfFrom lo = true := by
  induction mem generalizing lo with
  | nil =>
    rw [Memory.write]
    split <;> simp_all [Memory.wfFrom]
  | cons c rest ih =>
    obtain ⟨k, b⟩ := c
    have h' := h
    simp only [Memory.wfFrom, Bool.and_eq_true, decide_eq_true_eq] at h'
    rw [Memory.write]
    split
    · split
      · exact h
      · simp_all [Memory.wfFrom]
    · split
      · split
        · exact Memory.wfFrom_mono h'.2 (by omega)
        · subst_vars
          simp_all [Memory.wfFrom]
      · simp only [Memory.wfFrom, Bool.and_eq_true, decide_eq_true_eq]
        exact ⟨h'.1, ih h'.2 (by omega)⟩

/-- A write keeps the canonical form. -/
theorem Memory.wf_write {mem : Memory} (h : mem.wf = true) (i : Nat) (v : Byte) : (mem.write i v).wf = true :=
  Memory.wfFrom_write h (Nat.zero_le i) v

theorem Memory.read_write_from {mem : Memory} {lo : Nat} (h : mem.wfFrom lo = true) (i j : Nat) (v : Byte) :
    (mem.write i v).read j = if j = i then v else mem.read j := by
  induction mem generalizing lo with
  | nil =>
    rw [Memory.write]
    by_cases hj : j = i
    · rw [if_pos hj]
      split
      · next hv => rw [hv]; rfl
      · rw [Memory.read, if_pos hj.symm]
    · rw [if_neg hj]
      split
      · rfl
      · simp [Memory.read, Ne.symm hj]
  | cons c rest ih =>
    obtain ⟨k, b⟩ := c
    simp only [Memory.wfFrom, Bool.and_eq_true, decide_eq_true_eq] at h
    have hrest : ∀ x, x ≤ k → Memory.read rest x = 0x00#8 := fun x hx => Memory.read_of_lt h.2 (by omega)
    rw [Memory.write]
    split
    · next hik =>
      split
      · next hv =>
        split
        · next hj => rw [hj, Memory.read, if_neg (by omega), hrest i (by omega), hv]; rfl
        · rfl
      · by_cases hj : j = i
        · simp [Memory.read, hj]
        · rw [if_neg hj, Memory.read, if_neg (fun e => hj e.symm)]
    · next hik =>
      split
      · next he =>
        subst he
        split
        · next hv =>
          by_cases hj : j = i
          · rw [if_pos hj, hj, hrest i le_rfl, hv]; rfl
          · rw [if_neg hj, Memory.read, if_neg (fun e => hj e.symm)]
        · by_cases hj : j = i
          · simp [Memory.read, hj]
          · rw [if_neg hj, Memory.read, Memory.read, if_neg (fun e => hj e.symm), if_neg (fun e => hj e.symm)]
      · rw [Memory.read, ih h.2, Memory.read]
        by_cases hj : j = i
        · subst hj
          rw [if_pos rfl, if_neg (by omega), if_pos rfl]
        · rw [if_neg hj, if_neg hj]

/-- A read after a write. -/
theorem Memory.read_write {mem : Memory} (h : mem.wf = true) (i j : Nat) (v : Byte) :
    (mem.write i v).read j = if j = i then v else mem.read j := Memory.read_write_from h i j v

/-- A block write keeps the canonical form. -/
theorem Memory.wf_writeBytes {mem : Memory} (h : mem.wf = true) (i : Nat) (bytes : List Byte) :
    (mem.writeBytes i bytes).wf = true := by
  induction bytes generalizing i with
  | nil => exact h
  | cons b rest ih => exact Memory.wf_write (ih (i + 1)) i b

/-- A read after a block write. -/
theorem Memory.read_writeBytes {mem : Memory} (h : mem.wf = true) (i j : Nat) (bytes : List Byte) :
    (mem.writeBytes i bytes).read j = if i ≤ j then bytes.getD (j - i) (mem.read j) else mem.read j := by
  induction bytes generalizing i with
  | nil => simp [Memory.writeBytes]
  | cons b rest ih =>
    rw [Memory.writeBytes, Memory.read_write (Memory.wf_writeBytes h _ _), ih]
    by_cases hj : j = i
    · simp [hj]
    · rw [if_neg hj]
      by_cases hlt : i ≤ j
      · rw [if_pos hlt, if_pos (by omega), show j - i = (j - (i + 1)) + 1 by omega, List.getD_cons_succ]
      · rw [if_neg hlt, if_neg (by omega)]

theorem Memory.read_writeBytes_outside {mem : Memory} (h : mem.wf = true) {i j : Nat} {bytes : List Byte}
    (hj : j < i ∨ i + bytes.length ≤ j) : (mem.writeBytes i bytes).read j = mem.read j := by
  rw [Memory.read_writeBytes h]
  split
  · rw [List.getD_eq_default _ _ (by omega)]
  · rfl

@[simp] theorem Memory.readBytes_length (mem : Memory) (i len : Nat) : (mem.readBytes i len).length = len := by
  induction len generalizing i with
  | zero => rfl
  | succ n ih => simp [Memory.readBytes, ih]

theorem Memory.readBytes_getElem (mem : Memory) (i len k : Nat) (h : k < (mem.readBytes i len).length) :
    (mem.readBytes i len)[k] = mem.read (i + k) := by
  induction len generalizing i k with
  | zero => simp [Memory.readBytes] at h
  | succ n ih =>
    cases k with
    | zero => rfl
    | succ k =>
      simp only [Memory.readBytes, List.getElem_cons_succ]
      rw [ih]
      congr 1
      omega

/-- The bytes of a block are what was written to it. -/
theorem Memory.readBytes_writeBytes {mem : Memory} (h : mem.wf = true) (i : Nat) (bytes : List Byte) :
    (mem.writeBytes i bytes).readBytes i bytes.length = bytes := by
  apply List.ext_getElem
  · simp
  · intro k h1 h2
    rw [Memory.readBytes_getElem, Memory.read_writeBytes h, if_pos (Nat.le_add_right i k), Nat.add_sub_cancel_left,
      List.getD_eq_getElem _ _ h2]

theorem Memory.readBytes_congr {mem mem' : Memory} {i len : Nat} (h : ∀ k, i ≤ k → k < i + len → mem.read k = mem'.read k) :
    mem.readBytes i len = mem'.readBytes i len := by
  apply List.ext_getElem
  · simp
  · intro k h1 h2
    rw [Memory.readBytes_getElem, Memory.readBytes_getElem]
    apply h <;> simp at h1 <;> omega

/-- Equal canonical buffers: the same byte at every index. -/
theorem Memory.ext_read {m1 m2 : Memory} {lo : Nat} (h1 : m1.wfFrom lo = true) (h2 : m2.wfFrom lo = true)
    (h : ∀ i, m1.read i = m2.read i) : m1 = m2 := by
  induction m1 generalizing lo m2 with
  | nil =>
    cases m2 with
    | nil => rfl
    | cons c rest =>
      have := h c.1
      simp only [Memory.wfFrom, Bool.and_eq_true, decide_eq_true_eq] at h2
      simp [Memory.read] at this
      exact absurd this.symm h2.1.2
  | cons c rest ih =>
    cases m2 with
    | nil =>
      have := h c.1
      simp only [Memory.wfFrom, Bool.and_eq_true, decide_eq_true_eq] at h1
      simp [Memory.read] at this
      exact absurd this h1.1.2
    | cons d rest2 =>
      obtain ⟨k, b⟩ := c
      obtain ⟨l, e⟩ := d
      simp only [Memory.wfFrom, Bool.and_eq_true, decide_eq_true_eq] at h1 h2
      have hkl : k = l := by
        rcases Nat.lt_trichotomy k l with hlt | heq | hgt
        · have := h k
          rw [Memory.read, if_pos rfl, Memory.read, if_neg (by omega), Memory.read_of_lt h2.2 (by omega)] at this
          exact absurd this h1.1.2
        · exact heq
        · have := h l
          rw [Memory.read, if_neg (by omega), Memory.read_of_lt h1.2 (by omega), Memory.read, if_pos rfl] at this
          exact absurd this.symm h2.1.2
      subst hkl
      have hbe : b = e := by simpa [Memory.read] using h k
      subst hbe
      rw [ih h1.2 h2.2]
      intro i
      have := h i
      rw [Memory.read, Memory.read] at this
      by_cases hk : k = i
      · rw [Memory.read_of_lt h1.2 (by omega), Memory.read_of_lt h2.2 (by omega)]
      · rwa [if_neg hk, if_neg hk] at this

/-- The word of four bytes keeps the canonical form. -/
theorem Memory.wf_setWord {mem : Memory} (h : mem.wf = true) (j : Nat) (v : Word) : (mem.setWord j v).wf = true :=
  Memory.wf_writeBytes h _ _

end Sys2Proof.Machine
end

