-- ==== Sys2Proof/Laws/State.lean ====
section
/-! SUPPORT. One lemma per field per update of State, each true by rfl, so that no proof unfolds a record update. -/

namespace Sys2Proof.Machine

/-! ## Slots -/

@[simp] theorem Slots.get_set_self (f : Slots) (r : Slot) (v : Nat) : (f.set r v).get r = v := by cases r <;> rfl

theorem Slots.get_set_of_ne (f : Slots) {r k : Slot} (v : Nat) (h : k ≠ r) : (f.set r v).get k = f.get k := by
  cases r <;> cases k <;> first | rfl | exact absurd rfl h

theorem Slots.get_set (f : Slots) (r k : Slot) (v : Nat) : (f.set r v).get k = if k = r then v else f.get k := by
  split
  · next h => rw [h, Slots.get_set_self]
  · next h => exact Slots.get_set_of_ne f v h

theorem Slots.ext_get {f g : Slots} (h : ∀ r, f.get r = g.get r) : f = g := by
  cases f
  cases g
  rw [Slots.mk.injEq]
  exact ⟨h .m, h .padv, h .c, h .n, h .p, h .q, h .suf, h .mp, h .mq, h .g, h .x, h .y, h .cand0, h .cand1, h .cand2,
    h .cand3, h .a, h .b⟩

theorem State.slot_eq (s : State) (r : Slot) : s.slot r = s.slots.get r := rfl

theorem State.slot_setSlot (s : State) (r k : Slot) (v : Nat) :
    (s.setSlot r v).slot k = if k = r then v else s.slot k := Slots.get_set s.slots r k v

theorem Slot.mem_all (r : Slot) : r ∈ Slot.all := by cases r <;> decide

theorem Slot.ofNumber_number (r : Slot) : Slot.ofNumber r.number = some r := by cases r <;> rfl

theorem Slot.number_lt (r : Slot) : r.number < 18 := by cases r <;> decide

/-! ## `State.setSlot` -/

@[simp] theorem State.setSlot_params (s : State) (r : Slot) (v : Nat) : (s.setSlot r v).params = s.params := rfl
@[simp] theorem State.setSlot_irqEn (s : State) (r : Slot) (v : Nat) : (s.setSlot r v).irqEn = s.irqEn := rfl
@[simp] theorem State.setSlot_cmd (s : State) (r : Slot) (v : Nat) : (s.setSlot r v).cmd = s.cmd := rfl
@[simp] theorem State.setSlot_phase (s : State) (r : Slot) (v : Nat) : (s.setSlot r v).phase = s.phase := rfl
@[simp] theorem State.setSlot_status (s : State) (r : Slot) (v : Nat) : (s.setSlot r v).status = s.status := rfl
@[simp] theorem State.setSlot_padcfg (s : State) (r : Slot) (v : Nat) : (s.setSlot r v).padcfg = s.padcfg := rfl
@[simp] theorem State.setSlot_ptb (s : State) (r : Slot) (v : Nat) : (s.setSlot r v).ptb = s.ptb := rfl
@[simp] theorem State.setSlot_ctb (s : State) (r : Slot) (v : Nat) : (s.setSlot r v).ctb = s.ctb := rfl
@[simp] theorem State.setSlot_outlen (s : State) (r : Slot) (v : Nat) : (s.setSlot r v).outlen = s.outlen := rfl
@[simp] theorem State.setSlot_consumed (s : State) (r : Slot) (v : Nat) : (s.setSlot r v).consumed = s.consumed := rfl
@[simp] theorem State.setSlot_slots (s : State) (r : Slot) (v : Nat) : (s.setSlot r v).slots = s.slots.set r v := rfl
@[simp] theorem State.setSlot_ibuf (s : State) (r : Slot) (v : Nat) : (s.setSlot r v).ibuf = s.ibuf := rfl
@[simp] theorem State.setSlot_obuf (s : State) (r : Slot) (v : Nat) : (s.setSlot r v).obuf = s.obuf := rfl
@[simp] theorem State.setSlot_staged (s : State) (r : Slot) (v : Nat) : (s.setSlot r v).staged = s.staged := rfl
@[simp] theorem State.setSlot_input (s : State) (r : Slot) (v : Nat) : (s.setSlot r v).input = s.input := rfl
@[simp] theorem State.setSlot_reply (s : State) (r : Slot) (v : Nat) : (s.setSlot r v).reply = s.reply := rfl

/-! ## `State.issue` -/

@[simp] theorem State.issue_params (s : State) (v : Word) : (s.issue v).params = s.params := rfl
@[simp] theorem State.issue_irqEn (s : State) (v : Word) : (s.issue v).irqEn = s.irqEn := rfl
@[simp] theorem State.issue_cmd (s : State) (v : Word) : (s.issue v).cmd = v := rfl
@[simp] theorem State.issue_phase (s : State) (v : Word) : (s.issue v).phase = .busy := rfl
@[simp] theorem State.issue_status (s : State) (v : Word) :
    (s.issue v).status = { s.status with done := false, err := false, errcode := 0#4, nmatches := 0#3 } := rfl
@[simp] theorem State.issue_padcfg (s : State) (v : Word) : (s.issue v).padcfg = s.padcfg := rfl
@[simp] theorem State.issue_ptb (s : State) (v : Word) : (s.issue v).ptb = s.ptb := rfl
@[simp] theorem State.issue_ctb (s : State) (v : Word) : (s.issue v).ctb = s.ctb := rfl
@[simp] theorem State.issue_outlen (s : State) (v : Word) : (s.issue v).outlen = s.outlen := rfl
@[simp] theorem State.issue_consumed (s : State) (v : Word) : (s.issue v).consumed = s.consumed := rfl
@[simp] theorem State.issue_slots (s : State) (v : Word) : (s.issue v).slots = s.slots := rfl
@[simp] theorem State.issue_ibuf (s : State) (v : Word) : (s.issue v).ibuf = s.ibuf := rfl
@[simp] theorem State.issue_obuf (s : State) (v : Word) : (s.issue v).obuf = s.obuf := rfl
@[simp] theorem State.issue_staged (s : State) (v : Word) : (s.issue v).staged = none := rfl
@[simp] theorem State.issue_input (s : State) (v : Word) : (s.issue v).input = s.input := rfl
@[simp] theorem State.issue_reply (s : State) (v : Word) : (s.issue v).reply = s.reply := rfl

/-! ## `State.raiseError` -/

@[simp] theorem State.raiseError_params (s : State) (e : Err) : (s.raiseError e).params = s.params := rfl
@[simp] theorem State.raiseError_irqEn (s : State) (e : Err) : (s.raiseError e).irqEn = s.irqEn := rfl
@[simp] theorem State.raiseError_cmd (s : State) (e : Err) : (s.raiseError e).cmd = s.cmd := rfl
@[simp] theorem State.raiseError_phase (s : State) (e : Err) : (s.raiseError e).phase = .idle := rfl
@[simp] theorem State.raiseError_status (s : State) (e : Err) :
    (s.raiseError e).status = { s.status with done := true, err := true, errcode := e.code } := rfl
@[simp] theorem State.raiseError_padcfg (s : State) (e : Err) : (s.raiseError e).padcfg = s.padcfg := rfl
@[simp] theorem State.raiseError_ptb (s : State) (e : Err) : (s.raiseError e).ptb = s.ptb := rfl
@[simp] theorem State.raiseError_ctb (s : State) (e : Err) : (s.raiseError e).ctb = s.ctb := rfl
@[simp] theorem State.raiseError_outlen (s : State) (e : Err) : (s.raiseError e).outlen = s.outlen := rfl
@[simp] theorem State.raiseError_consumed (s : State) (e : Err) : (s.raiseError e).consumed = s.consumed := rfl
@[simp] theorem State.raiseError_slots (s : State) (e : Err) : (s.raiseError e).slots = s.slots := rfl
@[simp] theorem State.raiseError_ibuf (s : State) (e : Err) : (s.raiseError e).ibuf = s.ibuf := rfl
@[simp] theorem State.raiseError_obuf (s : State) (e : Err) : (s.raiseError e).obuf = s.obuf := rfl
@[simp] theorem State.raiseError_staged (s : State) (e : Err) : (s.raiseError e).staged = none := rfl
@[simp] theorem State.raiseError_input (s : State) (e : Err) : (s.raiseError e).input = s.input := rfl
@[simp] theorem State.raiseError_reply (s : State) (e : Err) : (s.raiseError e).reply = s.reply := rfl

/-! ## `State.refuseAccess` -/

@[simp] theorem State.refuseAccess_params (s : State) : (s.refuseAccess).params = s.params := rfl
@[simp] theorem State.refuseAccess_irqEn (s : State) : (s.refuseAccess).irqEn = s.irqEn := rfl
@[simp] theorem State.refuseAccess_cmd (s : State) : (s.refuseAccess).cmd = s.cmd := rfl
@[simp] theorem State.refuseAccess_phase (s : State) : (s.refuseAccess).phase = s.phase := rfl
@[simp] theorem State.refuseAccess_status (s : State) :
    (s.refuseAccess).status = { s.status with buserr := true } := rfl
@[simp] theorem State.refuseAccess_padcfg (s : State) : (s.refuseAccess).padcfg = s.padcfg := rfl
@[simp] theorem State.refuseAccess_ptb (s : State) : (s.refuseAccess).ptb = s.ptb := rfl
@[simp] theorem State.refuseAccess_ctb (s : State) : (s.refuseAccess).ctb = s.ctb := rfl
@[simp] theorem State.refuseAccess_outlen (s : State) : (s.refuseAccess).outlen = s.outlen := rfl
@[simp] theorem State.refuseAccess_consumed (s : State) : (s.refuseAccess).consumed = s.consumed := rfl
@[simp] theorem State.refuseAccess_slots (s : State) : (s.refuseAccess).slots = s.slots := rfl
@[simp] theorem State.refuseAccess_ibuf (s : State) : (s.refuseAccess).ibuf = s.ibuf := rfl
@[simp] theorem State.refuseAccess_obuf (s : State) : (s.refuseAccess).obuf = s.obuf := rfl
@[simp] theorem State.refuseAccess_staged (s : State) : (s.refuseAccess).staged = s.staged := rfl
@[simp] theorem State.refuseAccess_input (s : State) : (s.refuseAccess).input = s.input := rfl
@[simp] theorem State.refuseAccess_reply (s : State) : (s.refuseAccess).reply = s.reply := rfl

/-! ## `State.resetBlock` -/

@[simp] theorem State.resetBlock_params (s : State) : (s.resetBlock).params = s.params := rfl
@[simp] theorem State.resetBlock_irqEn (s : State) : (s.resetBlock).irqEn = (State.resetWith s.params).irqEn := rfl
@[simp] theorem State.resetBlock_cmd (s : State) : (s.resetBlock).cmd = (State.resetWith s.params).cmd := rfl
@[simp] theorem State.resetBlock_phase (s : State) : (s.resetBlock).phase = (State.resetWith s.params).phase := rfl
@[simp] theorem State.resetBlock_status (s : State) : (s.resetBlock).status = (State.resetWith s.params).status := rfl
@[simp] theorem State.resetBlock_padcfg (s : State) : (s.resetBlock).padcfg = (State.resetWith s.params).padcfg := rfl
@[simp] theorem State.resetBlock_ptb (s : State) : (s.resetBlock).ptb = (State.resetWith s.params).ptb := rfl
@[simp] theorem State.resetBlock_ctb (s : State) : (s.resetBlock).ctb = (State.resetWith s.params).ctb := rfl
@[simp] theorem State.resetBlock_outlen (s : State) : (s.resetBlock).outlen = (State.resetWith s.params).outlen := rfl
@[simp] theorem State.resetBlock_consumed (s : State) :
    (s.resetBlock).consumed = (State.resetWith s.params).consumed := rfl
@[simp] theorem State.resetBlock_slots (s : State) : (s.resetBlock).slots = (State.resetWith s.params).slots := rfl
@[simp] theorem State.resetBlock_ibuf (s : State) : (s.resetBlock).ibuf = (State.resetWith s.params).ibuf := rfl
@[simp] theorem State.resetBlock_obuf (s : State) : (s.resetBlock).obuf = (State.resetWith s.params).obuf := rfl
@[simp] theorem State.resetBlock_staged (s : State) : (s.resetBlock).staged = (State.resetWith s.params).staged := rfl
@[simp] theorem State.resetBlock_input (s : State) : (s.resetBlock).input = s.input := rfl
@[simp] theorem State.resetBlock_reply (s : State) : (s.resetBlock).reply = s.reply := rfl

/-! ## What a record update leaves of the derived views -/

theorem State.busy_iff (s : State) : s.busy = true ↔ s.phase = .busy := by
  cases h : s.phase <;> simp [State.busy, h]

theorem State.not_busy_iff (s : State) : s.busy = false ↔ s.phase = .idle := by
  cases h : s.phase <;> simp [State.busy, h]

@[simp] theorem Status.count_none (st : Status) : st.count none = st := rfl

@[simp] theorem Status.count_some (st : Status) (n : BitVec 3) : st.count (some n) = { st with nmatches := n } := rfl

end Sys2Proof.Machine
end

