-- ==== Sys2Proof/Laws/Ops.lean ====
section
/-! SUPPORT. Committing staged writes and ending a command: everything the completion step can do. -/

namespace Sys2Proof.Machine

/-! ## Commit (R52) -/

@[simp] theorem State.commit_nil (s : State) : s.commit [] = s := rfl

@[simp] theorem State.commit_cons (s : State) (w : StagedWrite) (ws : List StagedWrite) :
    s.commit (w :: ws) = (s.commitWrite w).commit ws := rfl

theorem State.commit_append (s : State) (ws ws' : List StagedWrite) : s.commit (ws ++ ws') = (s.commit ws).commit ws' :=
  List.foldl_append

@[simp] theorem State.commitWrite_slot (s : State) (r : Slot) (v : Nat) : s.commitWrite (.slot r v) = s.setSlot r v := rfl

@[simp] theorem State.commitWrite_obuf (s : State) (bytes : List Byte) :
    s.commitWrite (.obuf bytes) = { s with obuf := s.obuf.writeBytes 0 bytes } := rfl

@[simp] theorem State.commitWrite_outlen (s : State) (n : BitVec 16) :
    s.commitWrite (.outlen n) = { s with outlen := n } := rfl

@[simp] theorem State.commitWrite_consumed (s : State) (n : BitVec 16) :
    s.commitWrite (.consumed n) = { s with consumed := n } := rfl

/-- A commit changes the slots, OBUF, OUTLEN and CONSUMED, and nothing else. -/
theorem State.commit_frame (s : State) (ws : List StagedWrite) :
    s.commit ws =
      { s with
        slots := (s.commit ws).slots
        obuf := (s.commit ws).obuf
        outlen := (s.commit ws).outlen
        consumed := (s.commit ws).consumed } := by
  induction ws generalizing s with
  | nil => rfl
  | cons w ws ih =>
    rw [State.commit_cons, ih]
    cases w <;> rfl

/-- A commit changes only the slots that a staged write names. -/
theorem State.commit_slot_of_not_mem {ws : List StagedWrite} {r : Slot} (h : ∀ v, .slot r v ∉ ws) (s : State) :
    (s.commit ws).slot r = s.slot r := by
  induction ws generalizing s with
  | nil => rfl
  | cons w ws ih =>
    rw [State.commit_cons, ih (fun v hv => h v (List.mem_cons_of_mem _ hv))]
    cases w with
    | slot k v =>
      rw [State.commitWrite_slot, State.slot_setSlot, if_neg]
      rintro rfl
      exact h v List.mem_cons_self
    | obuf => rfl
    | outlen => rfl
    | consumed => rfl

/-- The last staged write of a slot stands. -/
theorem State.commit_slot_of_last {ws : List StagedWrite} {r : Slot} (h : ∀ v, .slot r v ∉ ws) (s : State)
    (pre : List StagedWrite) (v : Nat) : (s.commit (pre ++ .slot r v :: ws)).slot r = v := by
  rw [State.commit_append, State.commit_cons, State.commit_slot_of_not_mem h, State.commitWrite_slot,
    State.slot_setSlot, if_pos rfl]

/-- The canonical form of OBUF is kept by a commit. -/
theorem State.commit_obuf_wf {s : State} (h : s.obuf.wf = true) (ws : List StagedWrite) :
    (s.commit ws).obuf.wf = true := by
  induction ws generalizing s with
  | nil => exact h
  | cons w ws ih =>
    rw [State.commit_cons]
    apply ih
    cases w with
    | obuf bytes => exact Memory.wf_writeBytes h 0 bytes
    | slot => exact h
    | outlen => exact h
    | consumed => exact h

/-- A commit leaves every byte of OBUF that no staged write reaches. -/
theorem State.commit_obuf_of_above {s : State} (hwf : s.obuf.wf = true) {ws : List StagedWrite} {k : Nat}
    (h : ∀ bytes, .obuf bytes ∈ ws → bytes.length ≤ k) : (s.commit ws).obuf.read k = s.obuf.read k := by
  induction ws generalizing s with
  | nil => rfl
  | cons w ws ih =>
    have hrest : ∀ bytes, StagedWrite.obuf bytes ∈ ws → bytes.length ≤ k := fun b hb => h b (List.mem_cons_of_mem _ hb)
    rw [State.commit_cons]
    cases w with
    | obuf bytes =>
      have hk := h bytes List.mem_cons_self
      rw [ih (Memory.wf_writeBytes hwf 0 bytes) hrest]
      exact Memory.read_writeBytes_outside hwf (Or.inr (by omega))
    | slot r v => exact ih (s := s.commitWrite (.slot r v)) hwf hrest
    | outlen n => exact ih (s := s.commitWrite (.outlen n)) hwf hrest
    | consumed n => exact ih (s := s.commitWrite (.consumed n)) hwf hrest

/-- A commit without a write of OUTLEN leaves it. -/
theorem State.commit_outlen_of_not_mem {ws : List StagedWrite} (h : ∀ n, .outlen n ∉ ws) (s : State) :
    (s.commit ws).outlen = s.outlen := by
  induction ws generalizing s with
  | nil => rfl
  | cons w ws ih =>
    rw [State.commit_cons, ih (fun v hv => h v (List.mem_cons_of_mem _ hv))]
    cases w with
    | outlen n => exact absurd List.mem_cons_self (h n)
    | slot => rfl
    | obuf => rfl
    | consumed => rfl

/-- A commit without a write of CONSUMED leaves it. -/
theorem State.commit_consumed_of_not_mem {ws : List StagedWrite} (h : ∀ n, .consumed n ∉ ws) (s : State) :
    (s.commit ws).consumed = s.consumed := by
  induction ws generalizing s with
  | nil => rfl
  | cons w ws ih =>
    rw [State.commit_cons, ih (fun v hv => h v (List.mem_cons_of_mem _ hv))]
    cases w with
    | consumed n => exact absurd List.mem_cons_self (h n)
    | slot => rfl
    | obuf => rfl
    | outlen => rfl

/-- A commit without a write of OBUF leaves it. -/
theorem State.commit_obuf_of_not_mem {ws : List StagedWrite} (h : ∀ b, .obuf b ∉ ws) (s : State) :
    (s.commit ws).obuf = s.obuf := by
  induction ws generalizing s with
  | nil => rfl
  | cons w ws ih =>
    rw [State.commit_cons, ih (fun v hv => h v (List.mem_cons_of_mem _ hv))]
    cases w with
    | obuf b => exact absurd List.mem_cons_self (h b)
    | slot => rfl
    | outlen => rfl
    | consumed => rfl

/-! ## The completion step (R52) -/

@[simp] theorem State.finish_fail (s : State) (e : Err) : s.finish (fail e) = s.raiseError e := rfl

@[simp] theorem State.finish_succeed (s : State) (ws : List StagedWrite) :
    s.finish (succeed ws) = s.completeOk ws := rfl

/-- Everything a completion step can do: it reports an error and changes nothing else, or it commits. -/
theorem State.finish_cases (s : State) (r : RuleEnd) :
    (∃ e, r.ending = .raise e ∧ s.finish r = { s with status := s.status.count r.counted }.raiseError e) ∨
    ∃ ws, r.ending = .complete ws ∧ s.finish r = { s with status := s.status.count r.counted }.completeOk ws := by
  cases h : r.ending with
  | raise e => exact .inl ⟨e, rfl, by rw [State.finish, h]⟩
  | complete ws => exact .inr ⟨ws, rfl, by rw [State.finish, h]⟩

/-- A successful completion, field by field. -/
theorem State.completeOk_frame (s : State) (ws : List StagedWrite) :
    s.completeOk ws =
      { s with
        phase := .idle
        staged := none
        status := { s.status with done := true, errcode := 0#4 }
        slots := (s.commit ws).slots
        obuf := (s.commit ws).obuf
        outlen := (s.commit ws).outlen
        consumed := (s.commit ws).consumed } := by
  rw [State.completeOk, State.commit_frame]

/-- A completion step ends the command and changes nothing outside STATUS, the slots, OBUF, OUTLEN and CONSUMED. -/
theorem State.finish_frame (s : State) (r : RuleEnd) :
    s.finish r =
      { s with
        phase := .idle
        staged := none
        status := (s.finish r).status
        slots := (s.finish r).slots
        obuf := (s.finish r).obuf
        outlen := (s.finish r).outlen
        consumed := (s.finish r).consumed } := by
  obtain ⟨e, -, h⟩ | ⟨ws, -, h⟩ := s.finish_cases r
  · rw [h]
    rfl
  · rw [h, State.completeOk_frame]

/-- The flags that a completion step leaves or sets whatever the command (R24, R52). -/
theorem State.finish_status (s : State) (r : RuleEnd) :
    (s.finish r).status.done = true ∧ (s.finish r).status.wbusy = s.status.wbusy ∧
      (s.finish r).status.buserr = s.status.buserr := by
  obtain ⟨e, -, h⟩ | ⟨ws, -, h⟩ := s.finish_cases r
  · rw [h]
    exact ⟨rfl, rfl, rfl⟩
  · rw [h, State.completeOk_frame]
    exact ⟨rfl, rfl, rfl⟩

end Sys2Proof.Machine
end

