-- ==== Sys2Proof/Laws/Engine.lean ====
section
/-! SUPPORT. What a command's meaning is (its rule, then the completion step), what the engine's turns and a served
event can do, and that a rule reads only the operands. -/

namespace Sys2Proof.Machine

/-- A command's meaning is its rule followed by the completion step. -/
theorem exec_eq (i : Instr) (s : State) : exec i s = .next (s.finish (ruleOf i s)) := by cases i <;> rfl

/-- The rule that a legal command word selects. -/
theorem wordRule_of_decode {w : Word} {i : Instr} (h : decode w = .instr i) (s : State) : wordRule w s = ruleOf i s := by
  rw [wordRule, h]

/-- An illegal word's rule. -/
theorem wordRule_of_illegal {w : Word} {r : Illegal} (h : decode w = .illegal r) (s : State) :
    wordRule w s = fail .illegalCommand := by
  rw [wordRule, h]

/-- The completion turn of a busy engine ends its command with the staged end, or with the rule's end. -/
theorem completeTurn_busy {s : State} (h : s.phase = .busy) :
    completeTurn s = .next (s.finish (s.staged.getD (wordRule s.cmd s))) := by
  rw [completeTurn, if_pos ((State.busy_iff s).2 h)]
  cases hs : s.staged with
  | some r => rfl
  | none =>
    cases hd : decode s.cmd with
    | instr i => simp only [exec_eq, Option.getD_none, wordRule_of_decode hd]
    | illegal r => simp only [Option.getD_none, wordRule_of_illegal hd]

/-- The completion turn of an idle engine does nothing. -/
theorem completeTurn_idle {s : State} (h : s.phase = .idle) : completeTurn s = .next s := by
  rw [completeTurn, if_neg]
  rw [Bool.not_eq_true, State.not_busy_iff, h]

/-- Everything one step can do: the engine's completion turn with no event left, or the oldest event. -/
theorem step_cases (s : State) :
    (s.input = [] ∧ step s = completeTurn { s with reply := none }) ∨
    ∃ e rest, s.input = e :: rest ∧ step s = serve e { s with input := rest, reply := none } := by
  cases h : s.input with
  | nil => exact .inl ⟨rfl, by rw [step, h]⟩
  | cons e rest => exact .inr ⟨e, rest, rfl, by rw [step, h]⟩

/-- A rule does not read the flags, the schedule, the bus answer, the engine's own state, OBUF, OUTLEN or CONSUMED. -/
theorem ruleOf_congr {s t : State} (hp : s.params = t.params) (hc : s.padcfg = t.padcfg) (hpt : s.ptb = t.ptb)
    (hct : s.ctb = t.ctb) (hs : s.slots = t.slots) (hi : s.ibuf = t.ibuf) (i : Instr) : ruleOf i s = ruleOf i t := by
  obtain ⟨p, irq, cmd, ph, st, pc, pt, ct, ol, co, sl, ib, ob, sg, inp, rp⟩ := s
  obtain ⟨p', irq', cmd', ph', st', pc', pt', ct', ol', co', sl', ib', ob', sg', inp', rp'⟩ := t
  simp only at hp hc hpt hct hs hi
  subst hp hc hpt hct hs hi
  cases i <;> rfl

/-- The rule of the command word reads what `ruleOf` reads. -/
theorem wordRule_congr {s t : State} (hp : s.params = t.params) (hc : s.padcfg = t.padcfg) (hpt : s.ptb = t.ptb)
    (hct : s.ctb = t.ctb) (hs : s.slots = t.slots) (hi : s.ibuf = t.ibuf) (w : Word) : wordRule w s = wordRule w t := by
  rw [wordRule, wordRule]
  cases decode w with
  | instr i => exact ruleOf_congr hp hc hpt hct hs hi i
  | illegal r => rfl

/-- The window offset of an access to this block. -/
theorem windowOffset_base (p : Params) {off : Nat} (h : off < 0x10000) : windowOffset p (p.base + off) = some off := by
  rw [windowOffset, if_pos (by omega), Nat.add_sub_cancel_left]

/-- An access inside the window is served at its offset. -/
theorem serveAccess_at (s : State) {off size : Nat} {dir : Dir} (h : off < 0x10000) :
    serveAccess ⟨s.params.base + off, size, dir⟩ s = .next (s.accessAt off ⟨s.params.base + off, size, dir⟩) := by
  rw [serveAccess]
  simp only [windowOffset_base s.params h]

/-- Everything serving an access can do: stop outside the window, refuse, read, ignore while busy, or write. -/
theorem serveAccess_cases (s : State) (a : Access) :
    (windowOffset s.params a.addr = none ∧ serveAccess a s = .fault (.outsideWindow a.addr)) ∨
    ∃ off, windowOffset s.params a.addr = some off ∧
      ((reaches s.params off a = none ∧
          serveAccess a s = .next { s.refuseAccess with reply := some (s.refusedReply a.dir) }) ∨
        ∃ t, reaches s.params off a = some t ∧
          ((a.dir = .read ∧ serveAccess a s = .next { s with reply := some (.readData (s.readTarget t) false) }) ∨
            ∃ v, a.dir = .write v ∧
              serveAccess a s = .next { s.writeUnlessBusy t v with reply := some (.writeDone false) })) := by
  rw [serveAccess]
  cases ho : windowOffset s.params a.addr with
  | none => exact .inl ⟨rfl, rfl⟩
  | some off =>
    refine .inr ⟨off, rfl, ?_⟩
    simp only [State.accessAt]
    cases hr : reaches s.params off a with
    | none => exact .inl ⟨rfl, rfl⟩
    | some t =>
      refine .inr ⟨t, rfl, ?_⟩
      cases hd : a.dir with
      | read => exact .inl ⟨rfl, rfl⟩
      | write v => exact .inr ⟨v, rfl, rfl⟩

end Sys2Proof.Machine
end

