-- ==== Sys2Proof/Laws/Bus.lean ====
section
/-! SUPPORT. The bus interface: what each offset names, when an access is refused, what an accepted access does, and the
words of slots and buffers as arithmetic. -/

namespace Sys2Proof.Machine

/-! ## Bits and digits -/

theorem wordBit_eq (v : Word) (i : Nat) : wordBit v i = decide (v.toNat / 2 ^ i % 2 = 1) := by
  rw [Bool.eq_iff_iff]
  simp [wordBit, bits]

theorem bitOf_eq (b : Bool) : bitOf b = b.toNat := by cases b <;> rfl

/-- Replacing one digit of a number replaces that digit alone. -/
theorem digit_replace {b x : Nat} (hx : x < b) (v i j : Nat) :
    (v / b ^ (i + 1) * b ^ (i + 1) + x * b ^ i + v % b ^ i) / b ^ j % b = if j = i then x else v / b ^ j % b := by
  have hb : 0 < b := by omega
  have hr : v % b ^ i < b ^ i := Nat.mod_lt _ (by positivity)
  have hval : v / b ^ (i + 1) * b ^ (i + 1) + x * b ^ i + v % b ^ i = v % b ^ i + b ^ i * (x + b * (v / b ^ (i + 1))) := by
    ring
  rw [hval]
  rcases Nat.lt_trichotomy j i with h | rfl | h
  · obtain ⟨d, rfl⟩ : ∃ d, i = j + 1 + d := ⟨i - j - 1, by omega⟩
    have hpow : b ^ (j + 1 + d) = b ^ j * (b * b ^ d) := by ring
    rw [if_neg (by omega), hpow, mul_assoc, Nat.add_mul_div_left _ _ (by positivity), mul_assoc,
      Nat.add_mul_mod_self_left, Nat.mod_mul_right_div_self, Nat.mod_mul_right_mod]
  · rw [if_pos rfl, Nat.add_mul_div_left _ _ (by positivity), Nat.div_eq_of_lt hr, Nat.zero_add,
      Nat.add_mul_mod_self_left, Nat.mod_eq_of_lt hx]
  · obtain ⟨d, rfl⟩ : ∃ d, j = i + 1 + d := ⟨j - i - 1, by omega⟩
    have hpow : b ^ (i + 1 + d) = b ^ i * b * b ^ d := by ring
    have hpow1 : b ^ (i + 1) = b ^ i * b := pow_succ _ _
    rw [if_neg (by omega), hpow, hpow1, ← Nat.div_div_eq_div_mul, ← Nat.div_div_eq_div_mul,
      Nat.add_mul_div_left _ _ (by positivity), Nat.div_eq_of_lt hr, Nat.zero_add, Nat.add_mul_div_left _ _ hb,
      Nat.div_eq_of_lt hx, Nat.zero_add]
    simp only [Nat.div_div_eq_div_mul, mul_assoc]

/-- A number is the sum of its digits. -/
theorem digit_sum (b v n : Nat) : v % b ^ n = ∑ j ∈ Finset.range n, v / b ^ j % b * b ^ j := by
  induction n with
  | zero => simp [Nat.mod_one]
  | succ n ih =>
    rw [Finset.sum_range_succ, ← ih, pow_succ, Nat.mod_mul]
    ring

/-! ## Slot words (R38) -/

theorem slotWord_toNat {w v i : Nat} (hw : w % 32 = 0) (hv : v < 2 ^ w) :
    (slotWord w v i).toNat = v / 2 ^ (32 * i) % 2 ^ 32 := by
  rw [slotWord]
  split
  · rw [BitVec.toNat_ofNat, bits, show 32 * i + 31 - 32 * i + 1 = 32 by omega, Nat.mod_mod]
  · rw [Nat.div_eq_of_lt]
    · rfl
    · exact hv.trans_le (Nat.pow_le_pow_right (by norm_num) (by omega))

/-- A word write changes that word alone. -/
theorem setSlotWord_word {w v i : Nat} (x : Word) (hi : i < w / 32) (j : Nat) :
    setSlotWord w v i x / 2 ^ (32 * j) % 2 ^ 32 = if j = i then x.toNat else v / 2 ^ (32 * j) % 2 ^ 32 := by
  rw [setSlotWord, if_pos hi, show 32 * i + 32 = 32 * (i + 1) by ring, pow_mul, pow_mul, pow_mul]
  exact digit_replace x.isLt v i j

theorem setSlotWord_ignored {w v i : Nat} (x : Word) (hi : ¬ i < w / 32) : setSlotWord w v i x = v := by
  rw [setSlotWord, if_neg hi]

/-- A word write keeps a slot below 2^W. -/
theorem setSlotWord_lt {w v : Nat} (hw : w % 32 = 0) (hv : v < 2 ^ w) (i : Nat) (x : Word) :
    setSlotWord w v i x < 2 ^ w := by
  by_cases hi : i < w / 32
  · obtain ⟨d, hd⟩ : ∃ d, w = 32 * (i + 1) + d := ⟨w - 32 * (i + 1), by omega⟩
    have hq : v / 2 ^ (32 * (i + 1)) < 2 ^ d := by
      rw [Nat.div_lt_iff_lt_mul (by positivity), ← pow_add, Nat.add_comm d, ← hd]
      exact hv
    rw [setSlotWord, if_pos hi, show 32 * i + 32 = 32 * (i + 1) by ring]
    have hx := x.isLt
    have hr : v % 2 ^ (32 * i) < 2 ^ (32 * i) := Nat.mod_lt _ (by positivity)
    have h1 : x.toNat * 2 ^ (32 * i) + v % 2 ^ (32 * i) < 2 ^ (32 * (i + 1)) := by
      rw [show 32 * (i + 1) = 32 + 32 * i by ring, pow_add]
      have := Nat.mul_le_mul_right (2 ^ (32 * i)) (Nat.succ_le_of_lt hx)
      rw [Nat.succ_mul] at this
      omega
    have h2 := Nat.mul_le_mul_right (2 ^ (32 * (i + 1))) (Nat.succ_le_of_lt hq)
    rw [Nat.succ_mul] at h2
    rw [hd, pow_add, Nat.mul_comm (2 ^ (32 * (i + 1)))]
    omega
  · rwa [setSlotWord_ignored x hi]

theorem Slot.number_injective {k r : Slot} (h : k.number = r.number) : k = r := by
  have := congrArg Slot.ofNumber h
  rw [Slot.ofNumber_number, Slot.ofNumber_number] at this
  exact Option.some.inj this

/-! ## Buffer words (R39) -/

theorem Memory.word_toNat (mem : Memory) (j : Nat) :
    (mem.word j).toNat =
      (mem.read (4 * j)).toNat * 2 ^ 24 + (mem.read (4 * j + 1)).toNat * 2 ^ 16 +
        (mem.read (4 * j + 2)).toNat * 2 ^ 8 + (mem.read (4 * j + 3)).toNat := by
  have h1 := (mem.read (4 * j)).isLt
  have h2 := (mem.read (4 * j + 1)).isLt
  have h3 := (mem.read (4 * j + 2)).isLt
  have h4 := (mem.read (4 * j + 3)).isLt
  have e : mem.readBytes (4 * j) 4 =
      [mem.read (4 * j), mem.read (4 * j + 1), mem.read (4 * j + 2), mem.read (4 * j + 3)] := rfl
  rw [Memory.word, e, BitVec.toNat_ofNat]
  simp only [be_cons, be_nil, List.length_cons, List.length_nil]
  norm_num
  omega

/-! ## The address map (R37) -/

/-- The offset of each word of the map. -/
def Target.AtOffset (off : Nat) : Target → Prop
  | .id => off = 0x0000
  | .params => off = 0x0004
  | .ctrl => off = 0x0008
  | .cmd => off = 0x000C
  | .status => off = 0x0010
  | .padcfg => off = 0x0014
  | .ptb => off = 0x0018
  | .ctb => off = 0x001C
  | .outlen => off = 0x0020
  | .consumed => off = 0x0024
  | .ibuf j => off = 0x4000 + 4 * j
  | .obuf j => off = 0x6000 + 4 * j
  | .slot r i => off = 0x8000 + 0x400 * r.number + 4 * i ∧ i < 256

/-- The unmapped offsets. -/
def Unmapped (p : Params) (off : Nat) : Prop :=
  (0x0028 ≤ off ∧ off < 0x4000) ∨ (0x4000 + p.bufBytes ≤ off ∧ off < 0x6000) ∨
    (0x6000 + p.bufBytes ≤ off ∧ off < 0x8000) ∨ 0xC800 ≤ off

/-- Every aligned offset of the window is unmapped or names one word. -/
theorem targetAt_cases (p : Params) {off : Nat} (h : off < 0x10000) (h4 : off % 4 = 0) (hl : p.bufBytes ≤ 8192) :
    (targetAt p off = none ∧ Unmapped p off) ∨
    ∃ t, targetAt p off = some t ∧ ¬ Unmapped p off ∧ t.AtOffset off ∧
      (t.readOnly = true ↔ off = 0x0000 ∨ off = 0x0004 ∨ off = 0x0020 ∨ off = 0x0024 ∨ (0x6000 ≤ off ∧ off < 0x8000)) ∧
      (t.writableBusy = true ↔ off = 0x0008 ∨ off = 0x0010) := by
  unfold Unmapped
  rw [targetAt]
  split
  · rcases Nat.lt_or_ge off 40 with hlt | hge
    · obtain ⟨k, rfl⟩ : ∃ k, off = 4 * k := ⟨off / 4, by omega⟩
      have : k < 10 := by omega
      right
      interval_cases k <;>
        exact ⟨_, rfl, by omega, rfl, by simp [Target.readOnly], by simp [Target.writableBusy]⟩
    · left
      refine ⟨?_, by omega⟩
      obtain ⟨k, hk⟩ := Nat.exists_eq_add_of_le (show 10 ≤ off / 4 by omega)
      rw [hk, Nat.add_comm]
      rfl
  · split
    · split
      · exact .inr ⟨_, rfl, by omega, by simp only [Target.AtOffset]; omega, by simp [Target.readOnly]; omega,
          by simp [Target.writableBusy]; omega⟩
      · exact .inl ⟨rfl, by omega⟩
    · split
      · split
        · exact .inr ⟨_, rfl, by omega, by simp only [Target.AtOffset]; omega, by simp [Target.readOnly]; omega,
            by simp [Target.writableBusy]; omega⟩
        · exact .inl ⟨rfl, by omega⟩
      · rcases Nat.lt_or_ge off 0xC800 with hlt | hge
        · right
          have hk : (off - 0x8000) / 0x400 < 18 := by omega
          obtain ⟨r, hr, hn⟩ : ∃ r : Slot,
              Slot.ofNumber ((off - 0x8000) / 0x400) = some r ∧ r.number = (off - 0x8000) / 0x400 := by
            generalize (off - 0x8000) / 0x400 = k at *
            interval_cases k <;> exact ⟨_, rfl, rfl⟩
          rw [hr]
          exact ⟨_, rfl, by omega, by simp only [Target.AtOffset]; omega, by simp [Target.readOnly]; omega,
            by simp [Target.writableBusy]; omega⟩
        · left
          have : Slot.ofNumber ((off - 0x8000) / 0x400) = none := by
            rw [Slot.ofNumber, List.getElem?_eq_none]
            show 18 ≤ _
            omega
          exact ⟨by rw [this], by omega⟩

/-- The offset of a mapped word. -/
theorem targetAt_offset {p : Params} {off : Nat} {t : Target} (h : targetAt p off = some t) (ho : off < 0x10000)
    (h4 : off % 4 = 0) (hl : p.bufBytes ≤ 8192) : t.AtOffset off := by
  obtain ⟨hn, -⟩ | ⟨t', ht, -, hoff, -⟩ := targetAt_cases p ho h4 hl
  · rw [hn] at h
    cases h
  · rw [ht] at h
    cases h
    exact hoff

theorem targetAt_slot (p : Params) (k : Slot) {i : Nat} (hi : i < 256) :
    targetAt p (0x8000 + 0x400 * k.number + 4 * i) = some (.slot k i) := by
  have hk := k.number_lt
  rw [targetAt, if_neg (by omega), if_neg (by omega), if_neg (by omega),
    show (0x8000 + 0x400 * k.number + 4 * i - 0x8000) / 0x400 = k.number by omega, Slot.ofNumber_number,
    show (0x8000 + 0x400 * k.number + 4 * i - 0x8000) % 0x400 / 4 = i by omega]

theorem targetAt_ibuf {p : Params} (hl : p.bufBytes ≤ 8192) {j : Nat} (hj : 4 * j < p.bufBytes) :
    targetAt p (0x4000 + 4 * j) = some (.ibuf j) := by
  rw [targetAt, if_neg (by omega), if_pos (by omega), if_pos (by omega)]
  congr 2
  omega

theorem targetAt_obuf {p : Params} (hl : p.bufBytes ≤ 8192) {j : Nat} (hj : 4 * j < p.bufBytes) :
    targetAt p (0x6000 + 4 * j) = some (.obuf j) := by
  rw [targetAt, if_neg (by omega), if_neg (by omega), if_pos (by omega), if_pos (by omega)]
  congr 2
  omega

/-- A mapped IBUF word lies whole in the buffer. -/
theorem targetAt_ibuf_lt {p : Params} (hp : p.bufBytes % 4 = 0) {off j : Nat} (_ : off % 4 = 0)
    (h : targetAt p off = some (.ibuf j)) : 4 * j + 4 ≤ p.bufBytes := by
  rw [targetAt] at h
  split at h
  · split at h <;> simp at h
  · split at h
    · split at h
      · simp at h; omega
      · simp at h
    · split at h
      · split at h <;> simp at h
      · split at h <;> simp at h

/-! ## Accesses (R42, R43, R47) -/

/-- What `reaches` answers. -/
theorem reaches_some {p : Params} {off : Nat} {a : Access} {t : Target} (h : reaches p off a = some t) :
    a.size = 4 ∧ off % 4 = 0 ∧ targetAt p off = some t ∧ ∀ v, a.dir = .write v → t.readOnly = false := by
  rw [reaches] at h
  split at h
  · next hc =>
    split at h
    · next t' ht =>
      split at h
      · cases h
      · next hw =>
        cases h
        exact ⟨hc.1, hc.2, ht, fun v hv => by simpa [hv, Dir.isWrite] using hw⟩
    · cases h
  · cases h

/-- An access is refused exactly when the list of R43 says so. -/
theorem reaches_cases {p : Params} (hl : p.bufBytes ≤ 8192) {off : Nat} (h : off < 0x10000) (a : Access) :
    (reaches p off a = none ∧ RefusedAccess p off a) ∨ ∃ t, reaches p off a = some t ∧ ¬ RefusedAccess p off a := by
  rw [reaches]
  split
  · next hc =>
    obtain ⟨ht, hu⟩ | ⟨t, ht, hu, -, hro, -⟩ := targetAt_cases p h hc.2 hl
    · rw [ht]
      unfold RefusedAccess
      unfold Unmapped at hu
      exact .inl ⟨rfl, by omega⟩
    · simp only [ht]
      by_cases hw : (a.dir.isWrite && t.readOnly) = true
      · rw [if_pos hw]
        rw [Bool.and_eq_true, hro] at hw
        have hd : ∃ v, a.dir = .write v := by
          cases hd : a.dir with
          | read => simp [hd, Dir.isWrite] at hw
          | write v => exact ⟨v, rfl⟩
        exact .inl ⟨rfl, .inr (.inr (.inr (.inr (.inr (.inr ⟨hd, hw.2⟩)))))⟩
      · rw [if_neg hw]
        refine .inr ⟨t, rfl, ?_⟩
        unfold Unmapped at hu
        rintro (h1 | h1 | h1 | h1 | h1 | h1 | ⟨⟨v, hv⟩, h1⟩)
        · exact h1 hc.1
        · exact h1 hc.2
        · exact hu (.inl h1)
        · exact hu (.inr (.inl h1))
        · exact hu (.inr (.inr (.inl h1)))
        · exact hu (.inr (.inr (.inr h1)))
        · rw [hv, hro.2 h1] at hw
          exact hw rfl
  · exact .inl ⟨rfl, by unfold RefusedAccess; omega⟩

/-- The step of a state whose next event is an access inside the window. -/
theorem step_presents (s : State) {off : Nat} (h : off < 0x10000) (size : Nat) (dir : Dir) (rest : List Event) :
    step (s.presents off size dir rest) =
      .next ({ s with input := rest, reply := none }.accessAt off ⟨s.params.base + off, size, dir⟩) := by
  rw [step, State.presents]
  have := serveAccess_at { s with input := rest, reply := none } (size := size) (dir := dir) h
  exact this

theorem State.accessAt_refused {s : State} {off : Nat} {a : Access} (h : reaches s.params off a = none) :
    s.accessAt off a = { s.refuseAccess with reply := some (s.refusedReply a.dir) } := by
  rw [State.accessAt, h]

theorem State.accessAt_write (s : State) {off : Nat} {t : Target} (addr : Nat) (v : Word) (h4 : off % 4 = 0)
    (ht : targetAt s.params off = some t) (hr : t.readOnly = false) :
    s.accessAt off ⟨addr, 4, .write v⟩ = { s.writeUnlessBusy t v with reply := some (.writeDone false) } := by
  simp [State.accessAt, reaches, h4, ht, Dir.isWrite, hr]

theorem State.accessAt_read (s : State) {off : Nat} {t : Target} (addr : Nat) (h4 : off % 4 = 0)
    (ht : targetAt s.params off = some t) :
    s.accessAt off ⟨addr, 4, .read⟩ = { s with reply := some (.readData (s.readTarget t) false) } := by
  simp [State.accessAt, reaches, h4, ht, Dir.isWrite]

theorem State.writeUnlessBusy_idle {s : State} (h : s.phase = .idle) (t : Target) (v : Word) :
    s.writeUnlessBusy t v = s.writeTarget t v := by
  rw [State.writeUnlessBusy, (State.not_busy_iff s).2 h]
  rfl

theorem State.writeUnlessBusy_live (s : State) {t : Target} (h : t.writableBusy = true) (v : Word) :
    s.writeUnlessBusy t v = s.writeTarget t v := by
  rw [State.writeUnlessBusy, h]
  simp

theorem State.writeUnlessBusy_busy {s : State} (h : s.phase = .busy) {t : Target} (ht : t.writableBusy = false) (v : Word) :
    s.writeUnlessBusy t v = { s with status := { s.status with wbusy := true } } := by
  rw [State.writeUnlessBusy, (State.busy_iff s).2 h, ht]
  rfl

end Sys2Proof.Machine
end

