-- ==== Sys2Proof/Laws/PerInstr.lean ====
section
/-! SUPPORT. The per-instruction family `EncodeShape`: the fields of every command's word (R54, R55, R56), one lemma per
constructor. -/

namespace Sys2Proof.Laws.EncodeShape

/-- The word of a well-formed command has the command's OP, a zero RSV and the command's LEN, and it agrees with the
command's (match, mask) pair. -/
def Statement (i : Instr) : Prop :=
  i.WellFormed →
    (encode i).toNat % 256 = i.opcode ∧ (encode i).toNat / 256 % 256 = 0 ∧ (encode i).toNat / 65536 = i.len ∧
      encode i &&& i.mask = i.matchWord

/-- The mask of an opcode that uses LEN keeps the low half of the word. -/
theorem low_half (w : Word) : (w &&& 0x0000FFFF#32).toNat = w.toNat % 65536 := by
  rw [BitVec.toNat_and, show (0x0000FFFF#32 : Word).toNat = 2 ^ 16 - 1 from rfl, Nat.and_two_pow_sub_one_eq_mod]

theorem fields {i : Instr} (h : i.WellFormed) :
    (encode i).toNat % 256 = i.opcode ∧ (encode i).toNat / 256 % 256 = 0 ∧ (encode i).toNat / 65536 = i.len := by
  rw [← opField_eq, ← rsvField_eq, ← lenField_eq]
  exact ⟨opField_encode h, rsvField_encode h, lenField_encode h⟩

theorem of_len {i : Instr} (hm : i.mask = 0x0000FFFF#32) : Statement i := fun h => by
  obtain ⟨h1, h2, h3⟩ := fields h
  refine ⟨h1, h2, h3, ?_⟩
  have := i.opcode_le
  apply BitVec.eq_of_toNat_eq
  rw [hm, low_half, Instr.matchWord, BitVec.toNat_ofNat]
  omega

theorem nop : Statement .nop := fun _ => by decide

theorem egcd : Statement .egcd := fun _ => by decide

theorem pad : Statement .pad := fun _ => by decide

theorem unpad : Statement .unpad := fun _ => by decide

theorem modsqr : Statement .modsqr := fun _ => by decide

theorem sqrt : Statement .sqrt := fun _ => by decide

theorem crt : Statement .crt := fun _ => by decide

theorem encrypt : Statement .encrypt := fun _ => by decide

theorem decrypt : Statement .decrypt := fun _ => by decide

theorem encblk (len : Nat) : Statement (.encblk len) := of_len rfl

theorem decblk (len : Nat) : Statement (.decblk len) := of_len rfl

theorem hdrEmit : Statement .hdrEmit := fun _ => by decide

theorem hdrParse (len : Nat) : Statement (.hdrParse len) := of_len rfl

end Sys2Proof.Laws.EncodeShape
end

