-- ==== Sys2Proof/Laws/Units.lean ====
section
/-! SUPPORT. One lemma per shared operation of the padding selector and the Rabin core, in the terms of Safety.lean: the
strategy, padval, match, select, checkmod, checkkey, root, crt, and the integer encryption and decryption. -/

namespace Sys2Proof.Machine

/-! ## Strategy (R63 to R67) -/

theorem variant_lt_two_iff (v : BitVec 2) : v.toNat < 2 ↔ v = 0#2 ∨ v = 1#2 := by
  revert v
  decide

theorem variant_high_iff (v : BitVec 2) : v = 2#2 ∨ v = 3#2 ↔ ¬ (v = 0#2 ∨ v = 1#2) := by
  revert v
  decide

theorem State.strategy_bitCopy {s : State} (h : s.padcfg.variant = 0#2 ∨ s.padcfg.variant = 1#2) :
    s.strategy = .bitCopy s.padcfg.k.toNat := by
  rw [State.strategy, if_pos ((variant_lt_two_iff _).2 h)]

theorem State.strategy_suffix {s : State} (h : ¬ (s.padcfg.variant = 0#2 ∨ s.padcfg.variant = 1#2)) :
    s.strategy = .suffix (s.slot .suf) := by
  rw [State.strategy, if_neg (fun hlt => h ((variant_lt_two_iff _).1 hlt))]

/-- `checkparam()` passes exactly when the parameter is not zero. -/
theorem State.paramOk_iff (s : State) : s.strategy.paramOk = true ↔ ¬ s.ParamZero := by
  unfold State.ParamZero
  by_cases h : s.padcfg.variant = 0#2 ∨ s.padcfg.variant = 1#2
  · rw [State.strategy_bitCopy h, if_pos h]
    simp [Strategy.paramOk, ← BitVec.toNat_inj]
  · rw [State.strategy_suffix h, if_neg h]
    simp [Strategy.paramOk]

theorem State.paramOk_false_iff (s : State) : s.strategy.paramOk = false ↔ s.ParamZero := by
  rw [← Bool.not_eq_true, State.paramOk_iff, not_not]

/-- `padval` of a paddable integer. -/
theorem State.padval_ok {s : State} {m : Nat} (h : s.Paddable m) : s.strategy.padval m = .ok (s.padded m) := by
  rw [Strategy.padval.eq_def, if_pos ((State.paramOk_iff s).2 h.1)]
  by_cases hv : s.padcfg.variant = 0#2 ∨ s.padcfg.variant = 1#2
  · simp only [State.strategy_bitCopy hv, State.padded, if_pos hv, if_neg (Nat.not_lt.2 (h.2 hv))]
  · simp only [State.strategy_suffix hv, State.padded, if_neg hv]

/-- `padval` of any other integer. -/
theorem State.padval_error {s : State} {m : Nat} (h : ¬ s.Paddable m) :
    s.strategy.padval m = .error .parameter := by
  rw [Strategy.padval.eq_def]
  split
  · next hp =>
    have hz := (State.paramOk_iff s).1 hp
    have hlow : ¬ (s.padcfg.variant = 0#2 ∨ s.padcfg.variant = 1#2 → s.padcfg.k.toNat ≤ bitlen m) := fun hl => h ⟨hz, hl⟩
    have hv : s.padcfg.variant = 0#2 ∨ s.padcfg.variant = 1#2 := by
      by_contra hv
      exact hlow (fun h' => absurd h' hv)
    simp only [State.strategy_bitCopy hv]
    rw [if_pos]
    by_contra hlt
    exact hlow (fun _ => Nat.not_lt.1 hlt)
  · rfl

/-- `match` of R67. -/
theorem State.accepts_iff (s : State) (c : Nat) : s.strategy.accepts c = true ↔ s.Matches c := by
  unfold State.Matches
  by_cases h : s.padcfg.variant = 0#2 ∨ s.padcfg.variant = 1#2
  · rw [State.strategy_bitCopy h, if_pos h]
    simp [Strategy.accepts]
  · rw [State.strategy_suffix h, if_neg h]
    simp [Strategy.accepts]

/-- `strip` of R67. -/
theorem State.strip_eq (s : State) (c : Nat) : s.strategy.strip c = c / 2 ^ s.padWidth := by
  unfold State.padWidth
  by_cases h : s.padcfg.variant = 0#2 ∨ s.padcfg.variant = 1#2
  · rw [State.strategy_bitCopy h, if_pos h]; rfl
  · rw [State.strategy_suffix h, if_neg h]; rfl

/-- A padded value is at least its integer. -/
theorem State.le_padded (s : State) (m : Nat) : m ≤ s.padded m := by
  have h : ∀ k r, m ≤ m * 2 ^ k + r := fun k r => (Nat.le_mul_of_pos_right m (by positivity)).trans (Nat.le_add_right _ _)
  unfold State.padded
  split <;> exact h _ _

/-! ## Selection (R68) -/

theorem distinct_nodup (l : List Nat) : (distinct l).Nodup := by
  have hsub : ∀ l : List Nat, ∀ c, c ∈ distinct l → c ∈ l := by
    intro l
    induction l with
    | nil => intro c h; exact h
    | cons a l ih =>
      intro c h
      rw [distinct] at h
      split at h
      · exact List.mem_cons_of_mem _ (ih c h)
      · rcases List.mem_cons.1 h with rfl | h
        · exact List.mem_cons_self
        · exact List.mem_cons_of_mem _ (ih c h)
  induction l with
  | nil => exact List.nodup_nil
  | cons a l ih =>
    rw [distinct]
    split
    · exact ih
    · next h => exact List.nodup_cons.2 ⟨fun h' => h (hsub l a h'), ih⟩

theorem mem_distinct (l : List Nat) (c : Nat) : c ∈ distinct l ↔ c ∈ l := by
  induction l with
  | nil => rfl
  | cons a l ih =>
    rw [distinct]
    split
    · next h =>
      rw [ih, List.mem_cons]
      exact ⟨.inr, fun h' => h'.elim (fun e => e ▸ h) id⟩
    · rw [List.mem_cons, List.mem_cons, ih]

/-- The distinct matching candidates are the set D of R68. -/
theorem State.distinct_toFinset {s : State} {cands : List Nat} {d : Finset Nat} (h : s.MatchSet cands.toFinset d) :
    (distinct (cands.filter s.strategy.accepts)).toFinset = d := by
  ext c
  rw [List.mem_toFinset, mem_distinct, List.mem_filter, State.accepts_iff, h c, List.mem_toFinset]

theorem State.distinct_length {s : State} {cands : List Nat} {d : Finset Nat} (h : s.MatchSet cands.toFinset d) :
    (distinct (cands.filter s.strategy.accepts)).length = d.card := by
  rw [← State.distinct_toFinset h, List.toFinset_card_of_nodup (distinct_nodup _)]

/-- `select` with a zero parameter. -/
theorem State.select_param {s : State} (h : s.ParamZero) (cands : List Nat) :
    s.strategy.select cands = ⟨none, .error .parameter⟩ := by
  rw [Strategy.select, if_neg (by rw [State.paramOk_iff]; exact not_not.2 h)]

/-- `select` with no match or several. -/
theorem State.select_error {s : State} {cands : List Nat} {d : Finset Nat} (hz : ¬ s.ParamZero)
    (h : s.MatchSet cands.toFinset d) (hd : d.card ≠ 1) :
    s.strategy.select cands = ⟨some (BitVec.ofNat 3 d.card), .error .disambiguation⟩ := by
  have hl := State.distinct_length h
  rw [Strategy.select, if_pos ((State.paramOk_iff s).2 hz), hl]
  congr 1
  split
  · next c hc => rw [hc] at hl; exact absurd hl.symm hd
  · rfl

/-- `select` with one match. -/
theorem State.select_one {s : State} {cands : List Nat} {d : Finset Nat} {c : Nat} (hz : ¬ s.ParamZero)
    (h : s.MatchSet cands.toFinset d) (hd : d = {c}) :
    s.strategy.select cands = ⟨some 1#3, .ok ⟨c, c / 2 ^ s.padWidth⟩⟩ := by
  have hl := State.distinct_length h
  have hs := State.distinct_toFinset h
  subst hd
  rw [Finset.card_singleton] at hl
  obtain ⟨a, ha⟩ := List.length_eq_one_iff.1 hl
  rw [ha] at hs
  obtain rfl : a = c := by simpa using hs
  rw [Strategy.select, if_pos ((State.paramOk_iff s).2 hz), hl]
  simp only [ha, State.strip_eq]

/-! ## Moduli, keys, roots (R72 to R75) -/

theorem modulusOk_iff (n : Nat) : modulusOk n = true ↔ 3 ≤ n ∧ n % 2 = 1 := by simp [modulusOk]

theorem keyOk_iff (p q : Nat) : keyOk p q = true ↔ p % 4 = 3 ∧ q % 4 = 3 := by simp [keyOk]

/-- The root engine computes the closed form. -/
theorem root_eq (c p : Nat) : root c p = closedRoot c p := powMod_eq _ _ _

/-! ## CRT combination (R77) -/

theorem crtSum_lt {n : Nat} (bz : Bezout) {p q : Nat} (mp mq : Nat) (hn : p * q = n) (h : 0 < n) :
    crtSum bz p q mp mq < n := by
  subst hn
  have h1 := Int.emod_nonneg (bz.x * p * mq + bz.y * q * mp) (b := ((p * q : Nat) : Int)) (by omega)
  have h2 := Int.emod_lt_of_pos (bz.x * p * mq + bz.y * q * mp) (b := ((p * q : Nat) : Int)) (by omega)
  unfold crtSum
  omega

theorem crtDifference_lt {n : Nat} (bz : Bezout) {p q : Nat} (mp mq : Nat) (hn : p * q = n) (h : 0 < n) :
    crtDifference bz p q mp mq < n := by
  subst hn
  have h1 := Int.emod_nonneg (bz.x * p * mq - bz.y * q * mp) (b := ((p * q : Nat) : Int)) (by omega)
  have h2 := Int.emod_lt_of_pos (bz.x * p * mq - bz.y * q * mp) (b := ((p * q : Nat) : Int)) (by omega)
  unfold crtDifference
  omega

/-- The four candidates of Safety.lean are the combiner's. -/
theorem crtCandidates_eq {p q : Nat} (mp mq : Nat) (h : 0 < p * q) :
    crtCandidates p q mp mq =
      (crtSum (egcd p q) p q mp mq, p * q - crtSum (egcd p q) p q mp mq,
        crtDifference (egcd p q) p q mp mq, p * q - crtDifference (egcd p q) p q mp mq) := by
  have h1 := Int.emod_nonneg ((egcd p q).x * p * mq + (egcd p q).y * q * mp) (b := ((p * q : Nat) : Int)) (by omega)
  have h2 := Int.emod_nonneg ((egcd p q).x * p * mq - (egcd p q).y * q * mp) (b := ((p * q : Nat) : Int)) (by omega)
  unfold crtCandidates crtSum crtDifference
  simp only [← Nat.cast_mul]
  congr 1
  congr 1
  · omega
  · congr 1
    omega

/-- What `combine` answers, case by case. -/
theorem combine_gcd {w p q : Nat} (mp mq : Nat) (h : Nat.gcd p q ≠ 1) :
    combine w p q mp mq = .error .internalInvariant := by
  rw [combine, if_pos (by rwa [egcd_gcd])]

theorem combine_key {w p q : Nat} (mp mq : Nat) (h : Nat.gcd p q = 1)
    (h' : 2 ^ w ≤ p * q ∨ p * q < 3 ∨ p * q % 2 = 0) : combine w p q mp mq = .error .key := by
  rw [combine, if_neg (by rw [egcd_gcd]; exact not_not.2 h)]
  split
  · rfl
  · rw [if_neg]
    rw [modulusOk_iff]
    omega

theorem combine_ok {w p q : Nat} (mp mq : Nat) (h : Nat.gcd p q = 1) (h1 : p * q < 2 ^ w) (h2 : 3 ≤ p * q)
    (h3 : p * q % 2 = 1) :
    combine w p q mp mq =
      .ok ⟨egcd p q, (crtCandidates p q mp mq).1, (crtCandidates p q mp mq).2.1, (crtCandidates p q mp mq).2.2.1,
        (crtCandidates p q mp mq).2.2.2⟩ := by
  rw [combine, if_neg (by rw [egcd_gcd]; exact not_not.2 h), if_neg (by omega), if_pos ((modulusOk_iff _).2 ⟨h2, h3⟩),
    crtCandidates_eq mp mq (by omega)]

theorem key_product_odd {p q : Nat} (hp : p % 4 = 3) (hq : q % 4 = 3) : 3 ≤ p * q ∧ p * q % 2 = 1 := by
  have h1 : 3 ≤ p := by omega
  have h2 : 3 ≤ q := by omega
  refine ⟨by nlinarith, ?_⟩
  rw [Nat.mul_mod, show p % 2 = 1 by omega, show q % 2 = 1 by omega]

/-! ## One integer (R80, R81) -/

theorem State.encryptInteger_param {s : State} {m : Nat} (h : ¬ s.Paddable m) :
    s.encryptInteger m = .error .parameter := by
  simp only [State.encryptInteger, State.padval_error h]

theorem State.encryptInteger_range {s : State} {m : Nat} (h : s.Paddable m) (h1 : s.slot .n ≤ s.padded m) :
    s.encryptInteger m = .error .encryptionRange := by
  simp only [State.encryptInteger, State.padval_ok h, if_pos h1]

theorem State.encryptInteger_key {s : State} {m : Nat} (h : s.Paddable m) (h1 : s.padded m < s.slot .n)
    (h2 : s.slot .n < 3 ∨ s.slot .n % 2 = 0) : s.encryptInteger m = .error .key := by
  have : ¬ modulusOk (s.slot .n) = true := by rw [modulusOk_iff]; omega
  simp only [State.encryptInteger, State.padval_ok h, if_neg (Nat.not_le.2 h1), if_neg this]

theorem State.encryptInteger_ok {s : State} {m : Nat} (h : s.Paddable m) (h1 : s.padded m < s.slot .n)
    (h2 : 3 ≤ s.slot .n) (h3 : s.slot .n % 2 = 1) :
    s.encryptInteger m = .ok ⟨s.padded m, s.padded m ^ 2 % s.slot .n⟩ := by
  simp only [State.encryptInteger, State.padval_ok h, if_neg (Nat.not_le.2 h1), if_pos ((modulusOk_iff _).2 ⟨h2, h3⟩),
    pow_two]

theorem State.decryptInteger_key {s : State} (c : Nat) (h : ¬ (s.slot .p % 4 = 3 ∧ s.slot .q % 4 = 3)) :
    s.decryptInteger c = ⟨none, .error .key⟩ := by
  rw [State.decryptInteger, if_neg (by rwa [keyOk_iff])]

/-- Past the key check, the decryption's steps with the closed form for the roots. -/
theorem State.decryptInteger_eq {s : State} (c : Nat) (hp : s.slot .p % 4 = 3) (hq : s.slot .q % 4 = 3) :
    s.decryptInteger c =
      match combine s.params.w (s.slot .p) (s.slot .q) (closedRoot c (s.slot .p)) (closedRoot c (s.slot .q)) with
      | .error e => ⟨none, .error e⟩
      | .ok k =>
        ⟨(s.strategy.select [k.k0, k.k1, k.k2, k.k3]).counted,
          match (s.strategy.select [k.k0, k.k1, k.k2, k.k3]).value with
          | .error e => .error e
          | .ok r => .ok ⟨closedRoot c (s.slot .p), closedRoot c (s.slot .q), k, r⟩⟩ := by
  rw [State.decryptInteger, if_pos ((keyOk_iff _ _).2 ⟨hp, hq⟩)]
  simp only [root_eq] <;> rfl

end Sys2Proof.Machine
end

