-- ==== Sys2Proof/Laws/Rules.lean ====
section
/-! SUPPORT. Everything a rule's end can be: its staged writes fit their destinations (slots below 2^W, OBUF, OUTLEN and
CONSUMED within BUF_BYTES, the count within 4), they go to the command's destinations and to all of them, and the rule
depends on the command's operands alone. -/

namespace Sys2Proof.Machine

/-- A staged write that fits its destination. -/
def StagedWrite.Fits (p : Params) : StagedWrite → Prop
  | .slot _ v => v < 2 ^ p.w
  | .obuf bytes => bytes.length ≤ p.bufBytes
  | .outlen n => n.toNat ≤ p.bufBytes
  | .consumed n => n.toNat ≤ p.bufBytes

/-- A rule's end whose count and writes fit. -/
def RuleEnd.Fits (p : Params) (r : RuleEnd) : Prop :=
  (∀ n, r.counted = some n → n.toNat ≤ 4) ∧ ∀ ws, r.ending = .complete ws → ∀ w ∈ ws, w.Fits p

theorem fail_fits (p : Params) (e : Err) : (fail e).Fits p := ⟨by simp [fail], by simp [fail]⟩

theorem succeed_fits {p : Params} {ws : List StagedWrite} (h : ∀ w ∈ ws, w.Fits p) : (succeed ws).Fits p :=
  ⟨by simp [succeed], by rintro _ ⟨⟩; exact h⟩

theorem ofNat16_le (n : Nat) : (BitVec.ofNat 16 n).toNat ≤ n := by
  rw [BitVec.toNat_ofNat]
  exact Nat.mod_le _ _

/-- What `select` answers: a count of at most the number of candidates, and a candidate with its quotient. -/
theorem select_fits (st : Strategy) (cands : List Nat) (h4 : cands.length ≤ 4) :
    (∀ n, (st.select cands).counted = some n → n.toNat ≤ 4) ∧
      ∀ r, (st.select cands).value = .ok r → r.cand ∈ cands ∧ r.plain ≤ r.cand := by
  have hlen : (distinct (cands.filter st.accepts)).length ≤ cands.length := by
    have : ∀ l : List Nat, (distinct l).length ≤ l.length := by
      intro l
      induction l with
      | nil => exact le_rfl
      | cons a l ih =>
        rw [distinct]
        split
        · exact ih.trans (Nat.le_succ _)
        · exact Nat.succ_le_succ ih
    exact (this _).trans (List.length_filter_le _ _)
  rw [Strategy.select]
  split
  · constructor
    · rintro n ⟨⟩
      rw [BitVec.toNat_ofNat]
      omega
    · intro r hr
      split at hr
      · next c hc =>
        obtain rfl : (⟨c, st.strip c⟩ : Selected) = r := by simpa using hr
        have hmem : c ∈ distinct (cands.filter st.accepts) := by rw [hc]; exact List.mem_cons_self
        rw [mem_distinct] at hmem
        exact ⟨List.mem_of_mem_filter hmem, Nat.div_le_self _ _⟩
      · exact absurd hr (by simp)
  · exact ⟨by simp, by simp⟩

/-- What `combine` answers: gcd 1, a product below 2^w, and four candidates up to it. -/
theorem combine_fits {w p q mp mq : Nat} {k : Combined} (h : combine w p q mp mq = .ok k) :
    k.bezout = egcd p q ∧ k.bezout.g = 1 ∧ p * q < 2 ^ w ∧ k.k0 < 2 ^ w ∧ k.k1 < 2 ^ w ∧ k.k2 < 2 ^ w ∧ k.k3 < 2 ^ w := by
  rw [combine] at h
  split at h
  · exact absurd h (by simp)
  · next hg =>
    split at h
    · exact absurd h (by simp)
    · next hn =>
      split at h
      · next hm =>
        rw [modulusOk_iff] at hm
        have h0 := crtSum_lt (egcd p q) mp mq rfl (by omega : 0 < p * q)
        have h2 := crtDifference_lt (egcd p q) mp mq rfl (by omega : 0 < p * q)
        obtain rfl := by simpa using h
        refine ⟨rfl, not_not.1 hg, by omega, ?_, ?_, ?_, ?_⟩ <;> simp only <;> omega
      · exact absurd h (by simp)

theorem combined_writes_fit {w p q mp mq : Nat} {k : Combined} (par : Params) (hw : par.w = w)
    (h : combine w p q mp mq = .ok k) : ∀ x ∈ k.writes w, x.Fits par := by
  subst hw
  obtain ⟨-, hg, -, h0, h1, h2, h3⟩ := combine_fits h
  have h1' : 1 < 2 ^ par.w := by
    rcases Nat.eq_zero_or_pos par.w with hz | hz
    · rw [hz] at h0 h1 h2 h3
      exfalso
      rw [combine] at h
      split at h <;> try exact absurd h (by simp)
      split at h <;> try exact absurd h (by simp)
      next hn =>
        split at h
        · next hm =>
          rw [modulusOk_iff] at hm
          rw [hz] at hn
          omega
        · exact absurd h (by simp)
    · exact Nat.one_lt_two_pow (by omega)
  simp only [Combined.writes, List.forall_mem_cons, StagedWrite.Fits, List.not_mem_nil, false_implies, implies_true,
    and_true]
  exact ⟨by omega, twosComplement_lt _ _, twosComplement_lt _ _, h0, h1, h2, h3⟩

theorem State.encryptInteger_fits {s : State} {m : Nat} {r : Encrypted} (h : s.encryptInteger m = .ok r) :
    s.Paddable m ∧ r.padded = s.padded m ∧ r.padded < s.slot .n ∧ r.cipher < s.slot .n := by
  by_cases hp : s.Paddable m
  · rw [State.encryptInteger, State.padval_ok hp] at h
    simp only at h
    split at h
    · exact absurd h (by simp)
    · next hlt =>
      split at h
      · next hm =>
        rw [modulusOk_iff] at hm
        obtain rfl := by simpa using h
        exact ⟨hp, rfl, by simpa using hlt, Nat.mod_lt _ (by omega)⟩
      · exact absurd h (by simp)
  · rw [State.encryptInteger_param hp] at h
    exact absurd h (by simp)

theorem State.decryptInteger_fits {s : State} (hs : ∀ r : Slot, s.slot r < 2 ^ s.params.w) (c : Nat) :
    (∀ n, (s.decryptInteger c).counted = some n → n.toNat ≤ 4) ∧
      ∀ d, (s.decryptInteger c).value = .ok d →
        (∀ x ∈ d.writes s.params.w, x.Fits s.params) ∧ d.selected.plain < 2 ^ s.params.w := by
  by_cases hk : s.slot .p % 4 = 3 ∧ s.slot .q % 4 = 3
  · rw [State.decryptInteger_eq c hk.1 hk.2]
    split
    · exact ⟨by simp, by simp⟩
    · next k hc =>
      have hsel := select_fits s.strategy [k.k0, k.k1, k.k2, k.k3] (by simp)
      refine ⟨hsel.1, ?_⟩
      intro d hd
      simp only at hd
      split at hd
      · exact absurd hd (by simp)
      · next r hr =>
        obtain rfl := by simpa using hd
        obtain ⟨hmem, hle⟩ := hsel.2 r hr
        have hf := combine_fits hc
        have hcand : r.cand < 2 ^ s.params.w := by
          simp only [List.mem_cons, List.not_mem_nil, or_false] at hmem
          rcases hmem with h | h | h | h <;> rw [h]
          exacts [hf.2.2.2.1, hf.2.2.2.2.1, hf.2.2.2.2.2.1, hf.2.2.2.2.2.2]
        have hroot : ∀ k : Slot, s.slot k % 4 = 3 → closedRoot c (s.slot k) < 2 ^ s.params.w := fun k hx =>
          (Nat.mod_lt _ (by omega)).trans (hs k)
        refine ⟨?_, by simp only; omega⟩
        intro x hx
        simp only [Decrypted.writes, List.mem_append, List.mem_cons, List.not_mem_nil, or_false] at hx
        rcases hx with ((rfl | rfl) | hx) | (rfl | rfl)
        · exact hroot _ hk.1
        · exact hroot _ hk.2
        · exact combined_writes_fit s.params rfl hc x hx
        · exact hcand
        · exact lt_of_le_of_lt hle hcand
  · rw [State.decryptInteger_key c hk]
    exact ⟨by simp, by simp⟩

theorem State.chunkOk_iff (s : State) (len : Nat) :
    s.chunkOk len = true ↔ ¬ (s.BadBlockSizes ∨ len = 0 ∨ s.ptb.toNat < len) := by
  have h : ∀ b : BitVec 16, b = 0#16 ↔ b.toNat = 0 := fun b => by rw [← BitVec.toNat_inj]; rfl
  simp only [State.chunkOk, State.blockSizesOk, State.BadBlockSizes, h, Bool.and_eq_true, bne_iff_ne, decide_eq_true_eq]
  omega

/-- What `beforeTerminator` answers: the bytes below the first terminator. -/
theorem beforeTerminator_some {bytes pre : List Byte} (h : beforeTerminator bytes = some pre) :
    ∃ post, bytes = pre ++ terminator :: post ∧ terminator ∉ pre := by
  rw [beforeTerminator] at h
  split at h
  · next hm =>
    obtain rfl := by simpa using h
    induction bytes with
    | nil => exact absurd hm (by simp)
    | cons b rest ih =>
      by_cases hb : b = terminator
      · exact ⟨rest, by simp [hb], by simp [hb]⟩
      · obtain ⟨post, h1, h2⟩ := ih (by simpa [Ne.symm hb] using hm) (by simp_all)
        refine ⟨post, ?_, ?_⟩
        · rw [List.takeWhile_cons_of_pos (by simpa using hb), List.cons_append, ← h1]
        · rw [List.takeWhile_cons_of_pos (by simpa using hb), List.mem_cons]
          exact fun h' => h'.elim (fun e => hb e.symm) h2
  · exact absurd h (by simp)

theorem beforeTerminator_none_iff (bytes : List Byte) : beforeTerminator bytes = none ↔ terminator ∉ bytes := by
  rw [beforeTerminator]
  split <;> simp_all

theorem beforeTerminator_append {pre post : List Byte} (h : terminator ∉ pre) :
    beforeTerminator (pre ++ terminator :: post) = some pre := by
  rw [beforeTerminator, if_pos (by simp)]
  rw [List.takeWhile_append_of_pos (by
    intro b hb
    simp only [bne_iff_ne]
    rintro rfl
    exact h hb)]
  simp

/-- Every rule's end fits. -/
theorem ruleOf_fits {s : State} (hs : ∀ r : Slot, s.slot r < 2 ^ s.params.w) (i : Instr) : (ruleOf i s).Fits s.params := by
  cases i with
  | nop => exact succeed_fits (by simp)
  | egcd =>
    rw [ruleOf, ruleEgcd]
    split
    · exact fail_fits _ _
    · next h =>
      apply succeed_fits
      simp only [List.forall_mem_cons, StagedWrite.Fits, List.not_mem_nil, false_implies, implies_true, and_true]
      refine ⟨?_, twosComplement_lt _ _, twosComplement_lt _ _⟩
      rw [egcd_gcd]
      rcases Nat.eq_zero_or_pos (s.slot .a) with h0 | h0
      · rw [h0, Nat.gcd_zero_left]; exact hs _
      · exact (Nat.gcd_le_left _ h0).trans_lt (hs _)
  | pad =>
    rw [ruleOf, rulePad]
    split
    · exact fail_fits _ _
    · split
      · exact fail_fits _ _
      · apply succeed_fits
        simp only [List.forall_mem_cons, StagedWrite.Fits, List.not_mem_nil, false_implies, implies_true, and_true]
        omega
  | unpad =>
    rw [ruleOf, ruleUnpad]
    have hsel := select_fits s.strategy s.candidates (by simp [State.candidates])
    refine ⟨hsel.1, ?_⟩
    intro ws h
    simp only at h
    split at h
    · exact absurd h (by simp)
    · next r hr =>
      obtain rfl := by simpa using h
      obtain ⟨hmem, hle⟩ := hsel.2 r hr
      have hcand : r.cand < 2 ^ s.params.w := by
        simp only [State.candidates, List.mem_cons, List.not_mem_nil, or_false] at hmem
        rcases hmem with h | h | h | h <;> rw [h] <;> exact hs _
      simp only [List.forall_mem_cons, StagedWrite.Fits, List.not_mem_nil, false_implies, implies_true, and_true]
      omega
  | modsqr =>
    rw [ruleOf, ruleModsqr]
    split
    · exact fail_fits _ _
    · split
      · next hm =>
        rw [modulusOk_iff] at hm
        apply succeed_fits
        simp only [List.forall_mem_cons, StagedWrite.Fits, List.not_mem_nil, false_implies, implies_true, and_true]
        exact (Nat.mod_lt _ (by omega)).trans (hs _)
      · exact fail_fits _ _
  | sqrt =>
    rw [ruleOf, ruleSqrt]
    split
    · next hk =>
      rw [keyOk_iff] at hk
      apply succeed_fits
      simp only [List.forall_mem_cons, StagedWrite.Fits, List.not_mem_nil, false_implies, implies_true, and_true, root_eq]
      exact ⟨(Nat.mod_lt _ (by omega)).trans (hs _), (Nat.mod_lt _ (by omega)).trans (hs _)⟩
    · exact fail_fits _ _
  | crt =>
    rw [ruleOf, ruleCrt]
    split
    · exact fail_fits _ _
    · next k hk => exact succeed_fits (combined_writes_fit s.params rfl hk)
  | encrypt =>
    rw [ruleOf, ruleEncrypt]
    split
    · exact fail_fits _ _
    · next r hr =>
      have := State.encryptInteger_fits hr
      have := hs .n
      apply succeed_fits
      simp only [List.forall_mem_cons, StagedWrite.Fits, List.not_mem_nil, false_implies, implies_true, and_true]
      omega
  | decrypt =>
    rw [ruleOf, ruleDecrypt]
    have hd := State.decryptInteger_fits hs (s.slot .c)
    refine ⟨hd.1, ?_⟩
    intro ws h
    simp only at h
    split at h
    · exact absurd h (by simp)
    · next r hr =>
      obtain rfl := by simpa using h
      exact (hd.2 r hr).1
  | encblk len =>
    rw [ruleOf, ruleEncblk]
    split
    · next hok =>
      rw [State.chunkOk_iff, State.BadBlockSizes] at hok
      split
      · exact fail_fits _ _
      · next r hr =>
        have h1 := State.encryptInteger_fits hr
        have h2 := hs .n
        have h3 := s.le_padded (be (s.ibuf.readBytes 0 len))
        split
        · exact fail_fits _ _
        · apply succeed_fits
          simp only [List.forall_mem_cons, StagedWrite.Fits, List.not_mem_nil, false_implies, implies_true, and_true,
            beBytes_length]
          omega
    · exact fail_fits _ _
  | decblk len =>
    rw [ruleOf, ruleDecblk]
    split
    · next hok =>
      rw [State.chunkOk_iff, State.BadBlockSizes] at hok
      split
      · exact fail_fits _ _
      · next hc =>
        have hd := State.decryptInteger_fits hs (be (s.ibuf.readBytes 0 s.ctb.toNat))
        refine ⟨hd.1, ?_⟩
        intro ws h
        simp only at h
        split at h
        · exact absurd h (by simp)
        · next r hr =>
          split at h
          · exact absurd h (by simp)
          · obtain rfl := by simpa using h
            intro x hx
            rw [List.mem_cons, List.mem_append] at hx
            rcases hx with rfl | hx | hx
            · exact Nat.not_le.1 hc
            · exact (hd.2 r hr).1 x hx
            · simp only [List.mem_cons, List.not_mem_nil, or_false] at hx
              rcases hx with rfl | rfl
              · simp only [StagedWrite.Fits, beBytes_length]
                omega
              · have := ofNat16_le len
                simp only [StagedWrite.Fits]
                omega
    · exact fail_fits _ _
  | hdrEmit =>
    rw [ruleOf, ruleHdrEmit]
    split
    · apply succeed_fits
      simp [StagedWrite.Fits]
    · split
      · exact fail_fits _ _
      · split
        · exact fail_fits _ _
        · next v _ _ hl =>
          have := ofNat16_le (headerRecord v).length
          apply succeed_fits
          simp only [List.forall_mem_cons, StagedWrite.Fits, List.not_mem_nil, false_implies, implies_true, and_true]
          omega
  | hdrParse len =>
    rw [ruleOf, ruleHdrParse]
    split
    · exact fail_fits _ _
    · next hl =>
      split
      · exact fail_fits _ _
      · next digits hd =>
        obtain ⟨post, hp, -⟩ := beforeTerminator_some hd
        have hlen := congrArg List.length hp
        rw [Memory.readBytes_length, List.length_append, List.length_cons] at hlen
        split
        · exact fail_fits _ _
        · split
          · split
            · exact fail_fits _ _
            · have := ofNat16_le (digits.length + 1)
              apply succeed_fits
              simp only [List.forall_mem_cons, StagedWrite.Fits, List.not_mem_nil, false_implies, implies_true, and_true]
              omega
          · exact fail_fits _ _

/-- The rule of any command word fits. -/
theorem wordRule_fits {s : State} (hs : ∀ r : Slot, s.slot r < 2 ^ s.params.w) (w : Word) : (wordRule w s).Fits s.params := by
  rw [wordRule]
  split
  · exact ruleOf_fits hs _
  · exact fail_fits _ _

/-! ## Destinations (R16, R28, R29, R31) -/

/-- Staged writes that go to the destinations of the command and to all of them; OBUF and OUTLEN come last, and OUTLEN is
the number of bytes written. -/
structure WritesOf (i : Instr) (ws : List StagedWrite) : Prop where
  slots : ∀ k, (∃ v, .slot k v ∈ ws) ↔ k ∈ slotsWrittenBy i
  consumed : (∃ n, .consumed n ∈ ws) ↔ writesConsumed i = true
  outs : (writesObuf i = false ∧ (∀ n, .outlen n ∉ ws) ∧ ∀ b, .obuf b ∉ ws) ∨
    (writesObuf i = true ∧ ∃ pre, (∀ n, .outlen n ∉ pre) ∧ (∀ b, .obuf b ∉ pre) ∧
      (ws = pre ++ [.outlen 0#16] ∨ ∃ bytes n, ws = pre ++ [.obuf bytes, .outlen n] ∧ n.toNat = bytes.length))

theorem combined_writesOf (w : Nat) (k : Combined) : WritesOf .crt (k.writes w) := by
  refine ⟨?_, by simp [writesConsumed, Combined.writes], .inl ⟨rfl, by simp [Combined.writes], by simp [Combined.writes]⟩⟩
  intro r
  cases r <;> simp [slotsWrittenBy, Combined.writes]

theorem decrypted_writesOf (w : Nat) (d : Decrypted) : WritesOf .decrypt (d.writes w) := by
  refine ⟨?_, by simp [writesConsumed, Decrypted.writes, Combined.writes],
    .inl ⟨rfl, by simp [Decrypted.writes, Combined.writes], by simp [Decrypted.writes, Combined.writes]⟩⟩
  intro r
  cases r <;> simp [slotsWrittenBy, Decrypted.writes, Combined.writes]

/-- A rule that completes writes its command's destinations. -/
theorem ruleOf_writesOf {s : State} (hb : s.params.bufBytes ≤ 8192) {i : Instr} {ws : List StagedWrite}
    (h : (ruleOf i s).ending = .complete ws) : WritesOf i ws := by
  cases i with
  | nop =>
    obtain rfl : [] = ws := by simpa [ruleOf, ruleNop, succeed] using h
    exact ⟨by simp [slotsWrittenBy], by simp [writesConsumed], .inl ⟨rfl, by simp, by simp⟩⟩
  | egcd =>
    rw [ruleOf, ruleEgcd] at h
    split at h
    · cases h
    · cases h
      exact ⟨fun k => by cases k <;> simp [slotsWrittenBy], by simp [writesConsumed], .inl ⟨rfl, by simp, by simp⟩⟩
  | pad =>
    rw [ruleOf, rulePad] at h
    split at h
    · cases h
    · split at h
      · cases h
      · cases h
        exact ⟨fun k => by cases k <;> simp [slotsWrittenBy], by simp [writesConsumed], .inl ⟨rfl, by simp, by simp⟩⟩
  | unpad =>
    simp only [ruleOf, ruleUnpad] at h
    split at h
    · cases h
    · cases h
      exact ⟨fun k => by cases k <;> simp [slotsWrittenBy], by simp [writesConsumed], .inl ⟨rfl, by simp, by simp⟩⟩
  | modsqr =>
    rw [ruleOf, ruleModsqr] at h
    split at h
    · cases h
    · split at h
      · cases h
        exact ⟨fun k => by cases k <;> simp [slotsWrittenBy], by simp [writesConsumed], .inl ⟨rfl, by simp, by simp⟩⟩
      · cases h
  | sqrt =>
    rw [ruleOf, ruleSqrt] at h
    split at h
    · cases h
      exact ⟨fun k => by cases k <;> simp [slotsWrittenBy], by simp [writesConsumed], .inl ⟨rfl, by simp, by simp⟩⟩
    · cases h
  | crt =>
    rw [ruleOf, ruleCrt] at h
    split at h
    · cases h
    · cases h
      exact combined_writesOf _ _
  | encrypt =>
    rw [ruleOf, ruleEncrypt] at h
    split at h
    · cases h
    · cases h
      exact ⟨fun k => by cases k <;> simp [slotsWrittenBy], by simp [writesConsumed], .inl ⟨rfl, by simp, by simp⟩⟩
  | decrypt =>
    simp only [ruleOf, ruleDecrypt] at h
    split at h
    · cases h
    · cases h
      exact decrypted_writesOf _ _
  | encblk len =>
    rw [ruleOf, ruleEncblk] at h
    split at h
    · split at h
      · cases h
      · split at h
        · cases h
        · cases h
          exact ⟨fun k => by cases k <;> simp [slotsWrittenBy], by simp [writesConsumed],
            .inr ⟨rfl, [_, _, _], by simp, by simp, .inr ⟨_, _, rfl, by simp⟩⟩⟩
    · cases h
  | decblk len =>
    simp only [ruleOf, ruleDecblk] at h
    split at h
    · next hok =>
      rw [State.chunkOk_iff] at hok
      split at h
      · cases h
      · simp only at h
        split at h
        · cases h
        · next d hd =>
          split at h
          · cases h
          · cases h
            have hlen : len < 65536 := by
              have := s.ptb.isLt
              omega
            have hd := decrypted_writesOf s.params.w d
            refine ⟨?_, ?_, .inr ⟨rfl, .slot .c (be (s.ibuf.readBytes 0 s.ctb.toNat)) :: d.writes s.params.w, ?_, ?_,
              .inr ⟨_, _, rfl, ?_⟩⟩⟩
            · intro k
              cases k <;> simp [slotsWrittenBy, Decrypted.writes, Combined.writes]
            · simp [writesConsumed, Decrypted.writes, Combined.writes]
            · simp [Decrypted.writes, Combined.writes]
            · simp [Decrypted.writes, Combined.writes]
            · rw [beBytes_length, BitVec.toNat_ofNat, Nat.mod_eq_of_lt hlen]
    · cases h
  | hdrEmit =>
    rw [ruleOf, ruleHdrEmit] at h
    split at h
    · cases h
      exact ⟨fun k => by cases k <;> simp [slotsWrittenBy], by simp [writesConsumed],
        .inr ⟨rfl, [], by simp, by simp, .inl rfl⟩⟩
    · split at h
      · cases h
      · split at h
        · cases h
        · next v _ _ hl =>
          cases h
          refine ⟨fun k => by cases k <;> simp [slotsWrittenBy], by simp [writesConsumed],
            .inr ⟨rfl, [], by simp, by simp, .inr ⟨_, _, rfl, ?_⟩⟩⟩
          rw [BitVec.toNat_ofNat, Nat.mod_eq_of_lt]
          omega
  | hdrParse len =>
    rw [ruleOf, ruleHdrParse] at h
    split at h
    · cases h
    · split at h
      · cases h
      · split at h
        · cases h
        · split at h
          · split at h
            · cases h
            · cases h
              exact ⟨fun k => by cases k <;> simp [slotsWrittenBy], by simp [writesConsumed], .inl ⟨rfl, by simp, by simp⟩⟩
          · cases h

/-! ## Operands (R16) -/

/-- The strategy depends on PADCFG and SUF. -/
theorem State.strategy_congr {s t : State} (hc : s.padcfg = t.padcfg) (hs : s.slot .suf = t.slot .suf) :
    s.strategy = t.strategy := by
  rw [State.strategy, State.strategy, hc, hs]

/-- A rule depends on the slots its command reads, the parameters, PADCFG, PTB, CTB and IBUF. -/
theorem ruleOf_reads {i : Instr} {s t : State} (hk : ∀ k ∈ slotsReadBy i, s.slot k = t.slot k) (hp : s.params = t.params)
    (hc : s.padcfg = t.padcfg) (hpt : s.ptb = t.ptb) (hct : s.ctb = t.ctb) (hi : s.ibuf = t.ibuf) :
    ruleOf i s = ruleOf i t := by
  cases i <;> simp only [slotsReadBy, List.forall_mem_cons, List.not_mem_nil, false_implies, implies_true, and_true] at hk
  case nop => rfl
  case egcd => simp only [ruleOf, ruleEgcd, hk, hp]
  case pad => simp only [ruleOf, rulePad, hk, hp, State.strategy_congr hc hk.2]
  case unpad => simp only [ruleOf, ruleUnpad, State.candidates, hk, State.strategy_congr hc hk.1]
  case modsqr => simp only [ruleOf, ruleModsqr, hk]
  case sqrt => simp only [ruleOf, ruleSqrt, hk]
  case crt => simp only [ruleOf, ruleCrt, hk, hp]
  case encrypt => simp only [ruleOf, ruleEncrypt, State.encryptInteger, hk, State.strategy_congr hc hk.2.2]
  case decrypt => simp only [ruleOf, ruleDecrypt, State.decryptInteger, hk, hp, State.strategy_congr hc hk.2.2.2]
  case encblk =>
    simp only [ruleOf, ruleEncblk, State.chunkOk, State.blockSizesOk, State.encryptInteger, hk, hp, hpt, hct, hi,
      State.strategy_congr hc hk.2]
    rfl
  case decblk =>
    simp only [ruleOf, ruleDecblk, State.chunkOk, State.blockSizesOk, State.decryptInteger, hk, hp, hpt, hct, hi,
      State.strategy_congr hc hk.2.2]
    rfl
  case hdrEmit => simp only [ruleOf, ruleHdrEmit, hp, State.strategy_congr hc hk]
  case hdrParse => simp only [ruleOf, ruleHdrParse, hp, hi]

/-! ## The engine's turn (R118) -/

/-- The step of a state in which the engine has the turn. -/
theorem step_of_engineTurn {s : State} (h : s.EngineTurn) :
    step s = completeTurn { s with input := s.input.tail, reply := none } := by
  obtain h | ⟨rest, h⟩ := h
  · rw [step, h]
    rfl
  · rw [step, h]
    rfl

end Sys2Proof.Machine
end

