-- ==== Sys2Proof/Tests/Slice0.lean ====
section
/-! SUPPORT. Tests of the model on values written out in the spec (95_test_vectors.md, named by their ids), and for every
statement with hypotheses a concrete state that meets them. -/

open Sys2Proof Sys2Proof.Machine

namespace Sys2Proof.Tests

/-! ## Helpers -/

/-- A reset block with parameters `p`, a strategy, some slots and the first bytes of IBUF set. -/
def start (p : Params) (variant k : Nat) (slots : List (Slot × Nat)) (bytes : List Byte) : State :=
  { slots.foldl (fun s kv => s.setSlot kv.1 kv.2) (State.resetWith p) with
    padcfg := ⟨BitVec.ofNat 2 variant, BitVec.ofNat 16 k⟩
    ibuf := Memory.writeBytes [] 0 bytes }

/-- The start state of a vector: the default parameters of R5. -/
def vector (variant k : Nat) (slots : List (Slot × Nat)) (bytes : List Byte) : State :=
  start Params.default variant k slots bytes

/-- Key K1 of 95_test_vectors.md section 2.9, with the first bytes of IBUF. -/
def k1 (bytes : List Byte) : State :=
  { vector 2 16 [(.suf, 0xA5), (.n, 1050589), (.p, 1019), (.q, 1031)] bytes with ctb := 4#16 }

/-- The smallest W, with a buffer just above its lower bound (R5). -/
def small : Params := ⟨64, 24, 0, false⟩

/-- A small start state, with PTB = CTB = 4. -/
def little (variant k : Nat) (slots : List (Slot × Nat)) (bytes : List Byte) : State :=
  { start small variant k slots bytes with ptb := 4#16, ctb := 4#16 }

/-- The state in an outcome, `s` if the machine stopped. -/
def stateOf (s : State) : Host.Outcome State Fault Refusal → State
  | .next t => t
  | .fault _ => s
  | .refused _ => s

/-- One step that runs the command word `w` from `s`. -/
def ran (w : Nat) (s : State) : State := stateOf s (step (s.withFetchWord 32 w))

/-- One step that serves an aligned access. -/
def served (s : State) (off : Nat) (dir : Dir) : State := stateOf s (step (s.presents off 4 dir []))

/-- Whether an outcome is a next state with a property. -/
def goes (p : State → Bool) : Host.Outcome State Fault Refusal → Bool
  | .next t => p t
  | .fault _ => false
  | .refused _ => false

theorem exists_next {o : Host.Outcome State Fault Refusal} {p : State → Bool} (h : goes p o = true) :
    ∃ t, o = .next t ∧ p t = true := by
  cases o with
  | next t => exact ⟨t, rfl, h⟩
  | fault f => exact absurd h (by simp [goes])
  | refused r => exact absurd h (by simp [goes])

/-- Whether an outcome is a stop at an access outside the window. -/
def stopsAt (addr : Nat) : Host.Outcome State Fault Refusal → Bool
  | .next _ => false
  | .fault f => decide (f = .outsideWindow addr)
  | .refused _ => false

theorem eq_fault {o : Host.Outcome State Fault Refusal} {addr : Nat} (h : stopsAt addr o = true) :
    o = .fault (.outsideWindow addr) := by
  cases o with
  | next t => exact absurd h (by simp [stopsAt])
  | fault f => exact congrArg _ (of_decide_eq_true h)
  | refused r => exact absurd h (by simp [stopsAt])

/-- The invariant as a computation. -/
def sound (s : State) : Bool :=
  decide s.params.legal && Slot.all.all (fun r => decide (s.slot r < 2 ^ s.params.w)) &&
    (s.ibuf.wf && s.ibuf.all (fun c => decide (c.1 < s.params.bufBytes))) &&
    (s.obuf.wf && s.obuf.all (fun c => decide (c.1 < s.params.bufBytes))) &&
    decide (s.outlen.toNat ≤ s.params.bufBytes) && decide (s.consumed.toNat ≤ s.params.bufBytes) &&
    decide (s.status.errcode.toNat ≤ 7) && decide (s.status.nmatches.toNat ≤ 4) &&
    decide (s.status.err = true → s.status.errcode ≠ 0#4) &&
    decide (s.phase = .busy → s.status.done = false ∧ s.status.err = false ∧ s.status.errcode = 0#4) &&
    decide (s.phase = .idle → s.staged = none) &&
    decide (s.phase = .busy → s.staged = none → s.status.nmatches = 0#3) &&
    match s.staged with
    | none => true
    | some r => decide (r = wordRule s.cmd s ∧ s.status.nmatches = r.counted.getD 0#3)

theorem read_eq_unlisted {mem : Memory} {n : Nat} (h : mem.all (fun c => decide (c.1 < n)) = true) {i : Nat} (hi : n ≤ i) :
    mem.read i = 0x00#8 := by
  induction mem with
  | nil => rfl
  | cons c rest ih =>
    obtain ⟨k, b⟩ := c
    simp only [List.all_cons, Bool.and_eq_true, decide_eq_true_eq] at h
    rw [Memory.read, if_neg (by omega)]
    exact ih h.2

theorem inv_of_sound {s : State} (h : sound s = true) : s.Inv := by
  simp only [sound, Bool.and_eq_true, decide_eq_true_eq, List.all_eq_true] at h
  obtain ⟨⟨⟨⟨⟨⟨⟨⟨⟨⟨⟨⟨hl, hs⟩, hi, hia⟩, ho, hoa⟩, hol⟩, hco⟩, he⟩, hm⟩, hec⟩, hb⟩, hid⟩, hu⟩, hst⟩ := h
  refine ⟨hl, fun r => hs r (Slot.mem_all r), hi, ho,
    fun i hn => read_eq_unlisted (List.all_eq_true.2 fun c hc => decide_eq_true (hia c hc)) hn,
    fun i hn => read_eq_unlisted (List.all_eq_true.2 fun c hc => decide_eq_true (hoa c hc)) hn,
    hol, hco, he, hm, hec, hb, hid, hu, fun r hr => ?_⟩
  rw [hr] at hst
  exact of_decide_eq_true hst

/-- The refusals of R43 as a computation. -/
def refusedCheck (p : Params) (off : Nat) (a : Access) : Bool :=
  decide (a.size ≠ 4) || decide (off % 4 ≠ 0) || decide (0x0028 ≤ off ∧ off < 0x4000) ||
    decide (0x4000 + p.bufBytes ≤ off ∧ off < 0x6000) || decide (0x6000 + p.bufBytes ≤ off ∧ off < 0x8000) ||
    decide (0xC800 ≤ off) ||
    (a.dir.isWrite &&
      decide (off = 0x0000 ∨ off = 0x0004 ∨ off = 0x0020 ∨ off = 0x0024 ∨ (0x6000 ≤ off ∧ off < 0x8000)))

theorem refusedAccess_iff (p : Params) (off : Nat) (a : Access) : RefusedAccess p off a ↔ refusedCheck p off a = true := by
  have hd : (∃ v, a.dir = .write v) ↔ a.dir.isWrite = true := by
    cases a.dir with
    | read => simp [Dir.isWrite]
    | write v => simp [Dir.isWrite]
  simp only [RefusedAccess, refusedCheck, Bool.or_eq_true, Bool.and_eq_true, decide_eq_true_eq, hd, or_assoc]

theorem refused_of {p : Params} {off : Nat} {a : Access} (h : refusedCheck p off a = true) : RefusedAccess p off a :=
  (refusedAccess_iff p off a).2 h

theorem accepted_of {p : Params} {off : Nat} {a : Access} (h : refusedCheck p off a = false) : ¬ RefusedAccess p off a :=
  fun hr => absurd ((refusedAccess_iff p off a).1 hr) (by simp [h])

/-- The events that keep a running command, as a computation. -/
def keepsCheck (p : Params) : Event → Bool
  | .bus a =>
    decide (p.base ≤ a.addr ∧ a.addr < p.base + 0x10000) &&
      match a.dir with
      | .read => true
      | .write v => decide (a.size = 4 → a.addr = p.base + 0x0008 → v.toNat / 2 % 2 = 0)
  | .execute => true
  | .complete => false
  | .resetInput => false

theorem keepsCommand_of {p : Params} {e : Event} (h : keepsCheck p e = true) : e.KeepsCommand p := by
  cases e with
  | bus a =>
    simp only [keepsCheck, Bool.and_eq_true, decide_eq_true_eq] at h
    refine ⟨h.1.1, h.1.2, fun v hv => ?_⟩
    rw [hv] at h
    exact of_decide_eq_true h.2
  | execute => trivial
  | complete => exact absurd h (by simp [keepsCheck])
  | resetInput => exact absurd h (by simp [keepsCheck])

/-- The set D of R68 for four candidates. -/
def matching (s : State) (c0 c1 c2 c3 : Nat) : Finset Nat := ({c0, c1, c2, c3} : Finset Nat).filter fun c => s.strategy.accepts c

theorem matchSet_matching (s : State) (c0 c1 c2 c3 : Nat) : s.MatchSet {c0, c1, c2, c3} (matching s c0 c1 c2 c3) := by
  intro c
  simp [matching, State.accepts_iff]

theorem paramZero_of {s : State} (h : s.strategy.paramOk = false) : s.ParamZero := (State.paramOk_false_iff s).1 h

theorem not_paramZero_of {s : State} (h : s.strategy.paramOk = true) : ¬ s.ParamZero := (State.paramOk_iff s).1 h

/-! ## Well-formedness and decoding -/

/-- A count above the 16-bit LEN field has no encoding, for each command with a count (R54). -/
theorem test_wellformed_refuses :
    ¬ (Instr.encblk 65536).WellFormed ∧ ¬ (Instr.decblk 65536).WellFormed ∧ ¬ (Instr.hdrParse 65536).WellFormed := by
  decide

/-- The largest count, 0xFFFF, and every command without a count are well-formed (R54). -/
theorem test_wellformed_accepts :
    (Instr.encblk 65535).WellFormed ∧ (Instr.decblk 65535).WellFormed ∧ (Instr.hdrParse 65535).WellFormed ∧
      Instr.decrypt.WellFormed := by
  decide

/-- The words of R56 without a count, one for each command. -/
theorem test_decode_plain :
    decode 0b00000000000000000000000000000000#32 = .instr .nop ∧
    decode 0b00000000000000000000000000000001#32 = .instr .egcd ∧
    decode 0b00000000000000000000000000000010#32 = .instr .pad ∧
    decode 0b00000000000000000000000000000011#32 = .instr .unpad ∧
    decode 0b00000000000000000000000000000100#32 = .instr .modsqr ∧
    decode 0b00000000000000000000000000000101#32 = .instr .sqrt ∧
    decode 0b00000000000000000000000000000110#32 = .instr .crt ∧
    decode 0b00000000000000000000000000000111#32 = .instr .encrypt ∧
    decode 0b00000000000000000000000000001000#32 = .instr .decrypt ∧
    decode 0b00000000000000000000000000001011#32 = .instr .hdrEmit := by
  decide

/-- The words of R56 with a count: LEN in bits 31 to 16. -/
theorem test_decode_counts :
    decode 0b00000000000000100000000000001001#32 = .instr (.encblk 2) ∧
    decode 0b10000000000000010000000000001010#32 = .instr (.decblk 32769) ∧
    decode 0b00000000000010000000000000001100#32 = .instr (.hdrParse 8) := by
  decide

/-- R57 and V-CMD-2 to V-CMD-7, V-BLK-12. -/
theorem test_decode_illegal :
    decode 0x0000000D#32 = .illegal .unassignedOpcode ∧ decode 0x000000FF#32 = .illegal .unassignedOpcode ∧
    decode 0x00000100#32 = .illegal .reservedNotZero ∧ decode 0x00020109#32 = .illegal .reservedNotZero ∧
    decode 0x00010000#32 = .illegal .lengthNotZero ∧ decode 0x00010001#32 = .illegal .lengthNotZero ∧
    decode 0x00020002#32 = .illegal .lengthNotZero := by
  decide

/-- The table's words through the host's two entry points: DECBLK with LEN 2, and what is not a 32-bit word. -/
theorem test_table_word :
    decodeTableWord 32 0x0002000A = some (.decblk 2) ∧ decodeTableWord 32 0x0D = none ∧
      decodeTableWord 32 0x100000001 = none := by
  decide

/-- A word placed for the next step runs in it, right after reset: NOP sets DONE (R91). -/
theorem test_fetch_word_runs : (ran 0x00000000 State.reset).statusWord = 0x00000002#32 := by decide +kernel

/-! ## One command, one step (95_test_vectors.md section 2) -/

/-- V-EGCD-1. -/
theorem test_egcd_example :
    (ran 0x1 (vector 0 16 [(.a, 240), (.b, 46)] [])).slot .g = 2 ∧
      (ran 0x1 (vector 0 16 [(.a, 240), (.b, 46)] [])).signedSlot .x = -9 ∧
      (ran 0x1 (vector 0 16 [(.a, 240), (.b, 46)] [])).signedSlot .y = 47 := by
  decide +kernel

/-- V-EGCD-11. -/
theorem test_egcd_zero : (ran 0x1 State.reset).statusWord = 0x00000106#32 := by decide +kernel

/-- V-PAD-1 and V-PAD-10. -/
theorem test_pad_values :
    (ran 0x2 (vector 0 4 [(.m, 0xBEEF)] [])).slot .padv = 0xBEEFF ∧
      (ran 0x2 (vector 3 16 [(.m, 0xAB), (.suf, 0x1234)] [])).slot .padv = 0x157234 := by
  decide +kernel

/-- V-PAD-4 and V-PAD-12. -/
theorem test_pad_errors :
    (ran 0x2 (vector 0 4 [(.m, 7)] [])).statusWord = 0x00000106#32 ∧
      (ran 0x2 (vector 0 3072 [(.m, 2 ^ 3071)] [])).statusWord = 0x00000206#32 := by
  decide +kernel

/-- V-UNP-1. -/
theorem test_unpad_one_match :
    (ran 0x3 (vector 0 4 [(.cand0, 0xBEEFF), (.cand1, 0x12345), (.cand2, 1), (.cand3, 0x9ABCD)] [])).statusWord =
        0x00001002#32 ∧
      (ran 0x3 (vector 0 4 [(.cand0, 0xBEEFF), (.cand1, 0x12345), (.cand2, 1), (.cand3, 0x9ABCD)] [])).slot .m =
        0xBEEF := by
  decide +kernel

/-- V-UNP-2 and V-UNP-3. -/
theorem test_unpad_counts_distinct :
    (ran 0x3 (vector 0 4 [(.cand0, 0xBEEFF), (.cand2, 1), (.cand3, 0x9ABCD)] [])).statusWord = 0x00002306#32 ∧
      (ran 0x3
          (vector 0 4 [(.cand0, 0xBEEFF), (.cand1, 0xBEEFF), (.cand2, 0xBEEFF), (.cand3, 0xBEEFF)] [])).statusWord =
        0x00001002#32 := by
  decide +kernel

/-- V-SQR-1 and V-SQR-8. -/
theorem test_modsqr_values :
    (ran 0x4 (vector 0 16 [(.padv, 21), (.n, 77)] [])).slot .c = 56 ∧
      (ran 0x4 (vector 0 16 [(.padv, 2), (.n, 3)] [])).slot .c = 1 := by
  decide +kernel

/-- V-SQR-4 and V-SQR-6. -/
theorem test_modsqr_errors :
    (ran 0x4 State.reset).statusWord = 0x00000206#32 ∧
      (ran 0x4 (vector 0 16 [(.padv, 5), (.n, 78)] [])).statusWord = 0x00000506#32 := by
  decide +kernel

/-- V-SQRT-5: a non-residue gets the formula's value. -/
theorem test_sqrt_values :
    (ran 0x5 (vector 0 16 [(.c, 3), (.p, 7), (.q, 11)] [])).slot .mp = 2 ∧
      (ran 0x5 (vector 0 16 [(.c, 3), (.p, 7), (.q, 11)] [])).slot .mq = 5 := by
  decide +kernel

/-- V-SQRT-2 and V-SQRT-4. -/
theorem test_sqrt_key :
    (ran 0x5 (vector 0 16 [(.c, 56), (.p, 5), (.q, 11)] [])).statusWord = 0x00000506#32 ∧
      (ran 0x5 (vector 0 16 [(.c, 2), (.p, 7), (.q, 7)] [])).slot .mp = 4 := by
  decide +kernel

/-- V-CRT-2. -/
theorem test_crt_candidates :
    (ran 0x6 (vector 0 16 [(.p, 7), (.q, 11), (.mp, 3), (.mq, 5)] [])).slot .cand0 = 38 ∧
      (ran 0x6 (vector 0 16 [(.p, 7), (.q, 11), (.mp, 3), (.mq, 5)] [])).slot .cand2 = 60 ∧
      (ran 0x6 (vector 0 16 [(.p, 7), (.q, 11), (.mp, 3), (.mq, 5)] [])).slot .cand3 = 17 := by
  decide +kernel

/-- V-CRT-4 and V-CRT-8. -/
theorem test_crt_errors :
    (ran 0x6 (vector 0 16 [(.p, 7), (.q, 7), (.mp, 1), (.mq, 1)] [])).statusWord = 0x00000406#32 ∧
      (ran 0x6 (vector 0 16 [(.p, 2 ^ 1536 + 1), (.q, 2 ^ 1536 + 3), (.mp, 1), (.mq, 1)] [])).statusWord =
        0x00000506#32 := by
  decide +kernel

/-- V-ENC-1. -/
theorem test_encrypt_value :
    (ran 0x7 (vector 0 2 [(.m, 5), (.n, 77)] [])).slot .c = 56 ∧
      (ran 0x7 (vector 0 2 [(.m, 5), (.n, 77)] [])).slot .padv = 21 := by
  decide +kernel

/-- V-ENC-2 and V-ENC-3. -/
theorem test_encrypt_errors :
    (ran 0x7 (vector 0 2 [(.m, 19), (.n, 77)] [])).statusWord = 0x00000206#32 ∧
      (ran 0x7 (vector 0 2 [(.m, 1), (.n, 77)] [])).statusWord = 0x00000106#32 := by
  decide +kernel

/-- V-DEC-5. -/
theorem test_decrypt_value :
    (ran 0x8 (vector 2 16 [(.suf, 0xA5), (.c, 464332), (.p, 1019), (.q, 1031)] [])).statusWord = 0x00001002#32 ∧
      (ran 0x8 (vector 2 16 [(.suf, 0xA5), (.c, 464332), (.p, 1019), (.q, 1031)] [])).slot .m = 42 ∧
      (ran 0x8 (vector 2 16 [(.suf, 0xA5), (.c, 464332), (.p, 1019), (.q, 1031)] [])).slot .cand0 = 1039672 := by
  decide +kernel

/-- V-DEC-4 and V-DEC-6. -/
theorem test_decrypt_errors :
    (ran 0x8 (vector 0 2 [(.c, 56), (.p, 7), (.q, 7)] [])).statusWord = 0x00000406#32 ∧
      (ran 0x8 (vector 2 16 [(.suf, 0xA4), (.c, 464332), (.p, 1019), (.q, 1031)] [])).statusWord = 0x00000306#32 := by
  decide +kernel

/-- V-BLK-1. -/
theorem test_encblk_block :
    (ran 0x00020009 (k1 [0x00#8, 0x2A#8])).obuf.readBytes 0 4 = [0x00#8, 0x07#8, 0x15#8, 0xCC#8] ∧
      (ran 0x00020009 (k1 [0x00#8, 0x2A#8])).outlen = 4#16 := by
  decide +kernel

/-- V-BLK-4 and V-BLK-2. -/
theorem test_encblk_errors :
    (ran 0x00020009
        (let s := k1 [0x00#8, 0x2A#8]
         { s with ctb := 2#16 })).statusWord = 0x00000606#32 ∧
      (ran 0x00000009 (k1 [0x00#8, 0x2A#8])).statusWord = 0x00000606#32 := by
  decide +kernel

/-- V-DBL-3. -/
theorem test_decblk_block :
    (ran 0x0003000A (k1 [0x00#8, 0x07#8, 0x15#8, 0xCC#8])).obuf.readBytes 0 3 = [0x00#8, 0x00#8, 0x2A#8] ∧
      (ran 0x0003000A (k1 [0x00#8, 0x07#8, 0x15#8, 0xCC#8])).outlen = 3#16 := by
  decide +kernel

/-- V-DBL-5: MATCHES = 1 stays after the later FormatError. -/
theorem test_decblk_error_keeps_count :
    (ran 0x0001000A (k1 [0x00#8, 0x09#8, 0xAE#8, 0xEA#8])).statusWord = 0x00001606#32 ∧
      (ran 0x0001000A (k1 [0x00#8, 0x09#8, 0xAE#8, 0xEA#8])).slot .m = 0 := by
  decide +kernel

/-- V-HDR-1. -/
theorem test_hdr_emit_record :
    (ran 0xB (vector 2 16 [(.suf, 165)] [])).obuf.readBytes 0 4 = [0x31#8, 0x36#8, 0x35#8, 0x0A#8] ∧
      (ran 0xB (vector 2 16 [(.suf, 165)] [])).outlen = 4#16 := by
  decide +kernel

/-- V-HDR-2 and V-HDR-3. -/
theorem test_hdr_emit_other :
    (ran 0xB (vector 0 16 [(.suf, 165)] [])).statusWord = 0x00000002#32 ∧
      (ran 0xB (vector 3 16 [] [])).statusWord = 0x00000106#32 := by
  decide +kernel

/-- V-HDR-14: the first terminator ends the record. -/
theorem test_hdr_parse_record :
    (ran 0x0004000C (vector 0 16 [(.suf, 90)] [0x39#8, 0x0A#8, 0x38#8, 0x0A#8])).slot .suf = 9 ∧
      (ran 0x0004000C (vector 0 16 [(.suf, 90)] [0x39#8, 0x0A#8, 0x38#8, 0x0A#8])).consumed = 2#16 := by
  decide +kernel

/-- V-HDR-8 and V-HDR-10. -/
theorem test_hdr_parse_errors :
    (ran 0x0003000C (vector 0 16 [(.suf, 90)] [0x31#8, 0x36#8, 0x35#8, 0x0A#8])).statusWord = 0x00000606#32 ∧
      (ran 0x0003000C (vector 0 16 [(.suf, 90)] [0x31#8, 0x41#8, 0x0A#8])).slot .suf = 90 := by
  decide +kernel

/-- V-CMD-1 and V-CMD-2. -/
theorem test_nop_and_illegal :
    (ran 0x00000000 State.reset).slots = Slots.zero ∧ (ran 0x0000000D State.reset).statusWord = 0x00000706#32 ∧
      (ran 0x0000000D State.reset).cmd = 0x0000000D#32 := by
  decide +kernel

/-! ## Bus accesses (95_test_vectors.md sections 2.13 and 2.14) -/

/-- V-BUS-1. -/
theorem test_bus_reset_reads :
    (served State.reset 0x000 .read).reply = some (.readData 0x52414231#32 false) ∧
      (served State.reset 0x004 .read).reply = some (.readData 0x01000060#32 false) ∧
      (served State.reset 0x014 .read).reply = some (.readData 0x00100000#32 false) ∧
      (served State.reset 0x018 .read).reply = some (.readData 0x00000100#32 false) ∧
      (served State.reset 0x01C .read).reply = some (.readData 0x00000180#32 false) := by
  decide +kernel

/-- V-BUS-2, V-BUS-3 and V-BUS-5: refused accesses set BUSERR. -/
theorem test_bus_refusals :
    (served State.reset 0x000 (.write 0x12345678#32)).statusWord = 0x00000010#32 ∧
      (served State.reset 0xC800 .read).statusWord = 0x00000010#32 ∧
      (served State.reset 0x4400 .read).reply = some (.readData 0x00000000#32 false) := by
  decide +kernel

/-- V-BUS-4: word 96 of a slot is ignored without BUSERR. -/
theorem test_bus_word_above_w :
    (served State.reset 0x8180 (.write 1#32)).statusWord = 0x00000000#32 ∧
      (served State.reset 0x8180 (.write 1#32)).slot .m = 0 := by
  decide +kernel

/-- V-BUS-8, V-BUS-9 and V-BUS-10: reserved bits have no storage. -/
theorem test_bus_reserved_bits :
    (served State.reset 0x014 (.write 0xFFFFFFFF#32)).readTarget .padcfg = 0xFFFF0003#32 ∧
      (served State.reset 0x018 (.write 0x12345678#32)).readTarget .ptb = 0x00005678#32 ∧
      (served State.reset 0x008 (.write 0xFFFFFFFD#32)).readTarget .ctrl = 0x00000001#32 := by
  decide +kernel

/-- V-BUS-11 and the lanes of R39. -/
theorem test_bus_buffer_lanes :
    (served State.reset 0x4000 (.write 0x3136350A#32)).ibuf.readBytes 0 4 = [0x31#8, 0x36#8, 0x35#8, 0x0A#8] := by
  decide +kernel

/-- V-BUS-12: after V-CMD-2, a write clears ERR and leaves ERRCODE. -/
theorem test_bus_status_clear :
    (served (ran 0x0000000D State.reset) 0x010 (.write 0x00000004#32)).statusWord = 0x00000702#32 := by
  decide +kernel

/-- V-BSY-1: a busy CMD write is ignored with WBUSY, and CMD reads back the running command. -/
theorem test_busy_write_ignored :
    (served ((vector 0 16 [(.a, 240), (.b, 46)] []).issue 0x00000001#32) 0x00C (.write 0#32)).statusWord =
        0x00000009#32 ∧
      (served ((vector 0 16 [(.a, 240), (.b, 46)] []).issue 0x00000001#32) 0x00C (.write 0#32)).cmd =
        0x00000001#32 := by
  decide +kernel

/-- V-BSY-4: a busy SOFT_RESET leaves the reset values. -/
theorem test_busy_soft_reset :
    (served ((vector 0 2 [(.c, 56), (.p, 7), (.q, 11)] []).issue 0x00000008#32) 0x008 (.write 2#32)).slots =
        Slots.zero ∧
      (served ((vector 0 2 [(.c, 56), (.p, 7), (.q, 11)] []).issue 0x00000008#32) 0x008 (.write 2#32)).statusWord =
        0x00000000#32 := by
  decide +kernel

/-- LDS of R58 at W = 64: two accesses, the low word first. -/
theorem test_host_lds :
    (HostOp.lds .a 0x100000002).expand small =
      [.bus ⟨0xC000, 4, .write 0x00000002#32⟩, .bus ⟨0xC004, 4, .write 0x00000001#32⟩] := by
  decide +kernel

/-- LDB of R58: the last word is filled up with 0x00 (program 3). -/
theorem test_host_ldb :
    (HostOp.ldb [0x00#8, 0x2A#8]).expand small = [.bus ⟨0x4000, 4, .write 0x002A0000#32⟩] := by
  decide +kernel

/-! ## Witnesses: the hypotheses of each statement are met -/

/-- The reset block with the smallest W, idle. -/
def idle : State := State.resetWith small

/-- A small key: P = 7, Q = 11, N = 77, AppendBits(2). -/
def tiny (slots : List (Slot × Nat)) (bytes : List Byte) : State :=
  little 0 2 ([(.p, 7), (.q, 11), (.n, 77)] ++ slots) bytes

/-- An accepted word whose rule has not run. -/
def accepted (s : State) (w : Word) : State := s.issue w

/-- An accepted word whose rule has run and is staged. -/
def executed (s : State) (w : Word) : State := executeTurn (s.issue w)

theorem witness_DecodeOfEncodeIsTheInstruction : (Instr.encblk 65535).WellFormed ∧ Instr.nop.WellFormed := by decide

theorem witness_IllegalWordsEndInIllegalCommand :
    (∃ r, decode 0x0000000D#32 = .illegal r) ∧ (∃ r, decode 0x00000100#32 = .illegal r) ∧
      (∃ r, decode 0x00010000#32 = .illegal r) ∧ idle.phase = .idle :=
  ⟨⟨_, rfl⟩, ⟨_, rfl⟩, ⟨_, rfl⟩, rfl⟩

theorem witness_StepRunsTheAcceptedCommand :
    (accepted idle 0x00020009#32).phase = .busy ∧ (accepted idle 0x00020009#32).staged = none ∧
      decode (accepted idle 0x00020009#32).cmd = .instr (.encblk 2) ∧ (accepted idle 0x00020009#32).input = [] ∧
      { accepted idle 0x00020009#32 with input := [.complete] }.input = .complete :: [] := by
  decide +kernel

theorem witness_CmdWriteIssuesTheCommand :
    idle.phase = .idle ∧ decode 0x00000001#32 = .instr .egcd ∧ (accepted idle 0x00000001#32).cmd = 0x00000001#32 ∧
      (accepted idle 0x00000001#32).phase = .busy ∧ (accepted idle 0x00000001#32).staged = none ∧
      (accepted idle 0x00000001#32).input = [] := by
  decide +kernel

/-- A staged error: EGCD of (0, 0). -/
theorem witness_CompletionCommitsAllOrNothing_raise :
    (executed idle 0x00000001#32).Inv ∧ (executed idle 0x00000001#32).phase = .busy ∧
      (executed idle 0x00000001#32).staged = some ⟨none, .raise .parameter⟩ ∧
      (executed idle 0x00000001#32).EngineTurn :=
  ⟨inv_of_sound (by decide +kernel), by decide +kernel, by decide +kernel, .inl (by decide +kernel)⟩

/-- A staged success with slots, OBUF and OUTLEN: ENCBLK of the one byte 0x05 (M = 5, t = 21, c = 56). -/
theorem witness_CompletionCommitsAllOrNothing_complete :
    (executed (tiny [] [0x05#8]) 0x00010009#32).Inv ∧ (executed (tiny [] [0x05#8]) 0x00010009#32).phase = .busy ∧
      (executed (tiny [] [0x05#8]) 0x00010009#32).staged =
        some
          ⟨none,
            .complete
              [.slot .m 5, .slot .padv 21, .slot .c 56, .obuf [0x00#8, 0x00#8, 0x00#8, 0x38#8], .outlen 4#16]⟩ ∧
      (executed (tiny [] [0x05#8]) 0x00010009#32).EngineTurn :=
  ⟨inv_of_sound (by decide +kernel), by decide +kernel, by decide +kernel, .inl (by decide +kernel)⟩

/-- A staged success with CONSUMED: HDR_PARSE of "7" and a terminator. -/
theorem witness_CompletionCommitsAllOrNothing_consumed :
    (executed (tiny [] [0x37#8, 0x0A#8]) 0x0002000C#32).Inv ∧
      (executed (tiny [] [0x37#8, 0x0A#8]) 0x0002000C#32).staged =
        some ⟨none, .complete [.slot .suf 7, .consumed 2#16]⟩ ∧
      { executed (tiny [] [0x37#8, 0x0A#8]) 0x0002000C#32 with input := [.complete, .execute] }.EngineTurn :=
  ⟨inv_of_sound (by decide +kernel), by decide +kernel, .inr ⟨[.execute], rfl⟩⟩

theorem witness_BusyEngineAlwaysCompletes :
    (accepted idle 0x00000001#32).phase = .busy ∧ (accepted idle 0x00000001#32).EngineTurn ∧
      { accepted idle 0x0000000D#32 with input := [.complete] }.phase = .busy ∧
      { accepted idle 0x0000000D#32 with input := [.complete] }.EngineTurn :=
  ⟨rfl, .inl rfl, rfl, .inr ⟨[], rfl⟩⟩

/-- A command that reports a code. -/
theorem witness_NoCommandIsFatal : ∃ t, exec .egcd idle = .next t ∧ t.status.errcode ≠ 0#4 :=
  ⟨_, exec_eq _ _, by decide +kernel⟩

/-- A read of one address at a block at BASE = 65536. -/
def readAt (addr : Nat) : State :=
  { State.resetWith ⟨64, 24, 65536, false⟩ with input := [.bus ⟨addr, 4, .read⟩] }

/-- The addresses on each side of the window's two ends. -/
theorem witness_StepStopsOnlyOutsideTheWindow :
    step (readAt 65535) = .fault (.outsideWindow 65535) ∧ step (readAt 131072) = .fault (.outsideWindow 131072) ∧
      (∃ t, step (readAt 65536) = .next t) ∧ ∃ t, step (readAt 131071) = .next t :=
  ⟨eq_fault (by decide +kernel), eq_fault (by decide +kernel),
    (exists_next (p := fun _ => true) (by decide +kernel)).imp fun _ h => h.1,
    (exists_next (p := fun _ => true) (by decide +kernel)).imp fun _ h => h.1⟩

/-- Every kind of event that keeps the running command: reads, an ignored write, STATUS and CTRL writes without bit 1,
writes of bit 1 that do not reach CTRL, and the engine's run of the rule. -/
def busyEvents : List Event :=
  [.bus ⟨0x0010, 4, .read⟩, .bus ⟨0x8000, 4, .write 9#32⟩, .bus ⟨0x0008, 4, .write 1#32⟩, .execute,
    .bus ⟨0x0010, 4, .write 0x1E#32⟩, .bus ⟨0x0008, 2, .write 2#32⟩, .bus ⟨0xFFFF, 4, .write 2#32⟩]

theorem witness_AccessesWhileBusyDoNotChangeTheResult :
    (accepted (tiny [(.m, 5)] []) 0x00000007#32).Inv ∧ (accepted (tiny [(.m, 5)] []) 0x00000007#32).phase = .busy ∧
      ∀ e ∈ busyEvents, e.KeepsCommand (accepted (tiny [(.m, 5)] []) 0x00000007#32).params := by
  have h : busyEvents.all (keepsCheck (accepted (tiny [(.m, 5)] []) 0x00000007#32).params) = true := by decide +kernel
  exact ⟨inv_of_sound (by decide +kernel), by decide +kernel, fun e he => keepsCommand_of (List.all_eq_true.1 h e he)⟩

theorem witness_StepKeepsTheInvariant :
    (accepted (tiny [(.m, 5)] []) 0x00000007#32).Inv ∧
      ∃ t, step (accepted (tiny [(.m, 5)] []) 0x00000007#32) = .next t ∧ t.slot .c = 56 :=
  ⟨inv_of_sound (by decide +kernel), by
    obtain ⟨t, h, ht⟩ := exists_next (p := fun t => decide (t.slot .c = 56))
      (o := step (accepted (tiny [(.m, 5)] []) 0x00000007#32)) (by decide +kernel)
    exact ⟨t, h, of_decide_eq_true ht⟩⟩

/-- Both ends of the legal range of W (R5). -/
theorem witness_ResetMeetsTheInvariant : small.legal ∧ (⟨8192, 8192, 65536, true⟩ : Params).legal := by decide +kernel

/-- The CTRL values 2 and 3 reset, 0 and 1 do not. -/
theorem witness_SoftResetIsTheReset :
    (2#32).toNat / 2 % 2 = 1 ∧ (3#32).toNat / 2 % 2 = 1 ∧ (0#32).toNat / 2 % 2 = 0 ∧ (1#32).toNat / 2 % 2 = 0 := by
  decide

theorem witness_ResetAndCompletionCommute : (accepted idle 0x00000001#32).phase = .busy := rfl

/-- Each reason of R43 at a boundary of its range, and the accepted offset beside it. -/
theorem witness_RefusedAccessesSetBuserrOnly :
    small.legal ∧ RefusedAccess small 0x0010 ⟨0x0010, 2, .read⟩ ∧ RefusedAccess small 0x4002 ⟨0x4002, 4, .read⟩ ∧
      RefusedAccess small 0x0028 ⟨0x0028, 4, .read⟩ ∧ RefusedAccess small 0x3FFC ⟨0x3FFC, 4, .write 0#32⟩ ∧
      RefusedAccess small 0x4018 ⟨0x4018, 4, .write 1#32⟩ ∧ RefusedAccess small 0x5FFC ⟨0x5FFC, 4, .read⟩ ∧
      RefusedAccess small 0x6018 ⟨0x6018, 4, .read⟩ ∧ RefusedAccess small 0x7FFC ⟨0x7FFC, 4, .read⟩ ∧
      RefusedAccess small 0xC800 ⟨0xC800, 4, .read⟩ ∧ RefusedAccess small 0xFFFC ⟨0xFFFC, 4, .read⟩ ∧
      RefusedAccess small 0x0000 ⟨0x0000, 4, .write 1#32⟩ ∧ RefusedAccess small 0x0024 ⟨0x0024, 4, .write 1#32⟩ ∧
      RefusedAccess small 0x6000 ⟨0x6000, 4, .write 1#32⟩ ∧
      ¬ RefusedAccess small 0x0024 ⟨0x0024, 4, .read⟩ ∧ ¬ RefusedAccess small 0x4014 ⟨0x4014, 4, .write 1#32⟩ ∧
      ¬ RefusedAccess small 0x6014 ⟨0x6014, 4, .read⟩ ∧ ¬ RefusedAccess small 0x8000 ⟨0x8000, 4, .write 1#32⟩ ∧
      ¬ RefusedAccess small 0xC7FC ⟨0xC7FC, 4, .write 1#32⟩ := by
  refine ⟨by decide +kernel, ?_, ?_, ?_, ?_, ?_, ?_, ?_, ?_, ?_, ?_, ?_, ?_, ?_, ?_, ?_, ?_, ?_, ?_⟩ <;>
    simp only [refusedAccess_iff] <;> decide +kernel

theorem witness_BusyWritesAreIgnoredWithWbusy :
    (accepted idle 0x00000001#32).params.legal ∧ (accepted idle 0x00000001#32).phase = .busy ∧
      ¬ RefusedAccess small 0x000C ⟨0x000C, 4, .write 1#32⟩ ∧ ¬ RefusedAccess small 0x0014 ⟨0x0014, 4, .write 1#32⟩ ∧
      ¬ RefusedAccess small 0x0008 ⟨0x0008, 4, .write 2#32⟩ ∧ ¬ RefusedAccess small 0x0010 ⟨0x0010, 4, .write 2#32⟩ ∧
      ¬ RefusedAccess small 0xC7FC ⟨0xC7FC, 4, .read⟩ ∧ RefusedAccess small 0x6000 ⟨0x6000, 4, .write 1#32⟩ := by
  refine ⟨by decide +kernel, rfl, ?_, ?_, ?_, ?_, ?_, ?_⟩ <;> simp only [refusedAccess_iff] <;> decide +kernel

/-- An accepted read of every register, and of the first and the last word of each buffer and of the slots. -/
theorem witness_ReadsReturnTheMappedWordAndChangeNothing :
    idle.Inv ∧
      (∀ off ∈ [0x0000, 0x0004, 0x0008, 0x000C, 0x0010, 0x0014, 0x0018, 0x001C, 0x0020, 0x0024, 0x4000, 0x4000 + 4 * 5,
          0x6000, 0x6000 + 4 * 5, 0x8000 + 0x400 * Slot.m.number + 4 * 0, 0x8000 + 0x400 * Slot.b.number + 4 * 255],
        off < 0x10000 ∧ ¬ RefusedAccess idle.params off ⟨idle.params.base + off, 4, .read⟩) := by
  refine ⟨inv_of_sound (by decide +kernel), ?_⟩
  simp only [refusedAccess_iff]
  decide +kernel

theorem witness_SlotWordsAreTheSlotValue : idle.Inv ∧ idle.phase = .idle ∧ 1 < idle.params.w / 32 ∧ idle.params.w / 32 ≤ 2 :=
  ⟨inv_of_sound (by decide +kernel), rfl, by decide, by decide⟩

theorem witness_BufferWordsAreBigEndianLanes : idle.Inv ∧ idle.phase = .idle ∧ 4 * 5 < idle.params.bufBytes :=
  ⟨inv_of_sound (by decide +kernel), rfl, by decide⟩

theorem witness_ConfigurationRegistersStoreTheirFields : idle.phase = .idle := rfl

/-- IRQ rises at a completion with IRQ_EN set, and when the host sets IRQ_EN over DONE. -/
theorem witness_InterruptRisesOnlyAtCompletionOrEnable :
    ({ accepted idle 0x00000000#32 with irqEn := true }.irq = false ∧
      ∃ t, step { accepted idle 0x00000000#32 with irqEn := true } = .next t ∧ t.irq = true) ∧
    ((ran 0x00000000 idle).irq = false ∧
      ∃ t, step ((ran 0x00000000 idle).presents 0x0008 4 (.write 1#32) []) = .next t ∧ t.irq = true) :=
  ⟨⟨by decide +kernel, exists_next (by decide +kernel)⟩, ⟨by decide +kernel, exists_next (by decide +kernel)⟩⟩

theorem witness_EgcdWritesGXY :
    (idle.slot .a = 0 ∧ idle.slot .b = 0) ∧
      ¬ ((little 0 2 [(.b, 1)] []).slot .a = 0 ∧ (little 0 2 [(.b, 1)] []).slot .b = 0) := by
  decide +kernel

theorem witness_EgcdStoresABezoutPair :
    (little 0 2 [(.a, 240), (.b, 46)] []).Inv ∧
      ∃ t, exec .egcd (little 0 2 [(.a, 240), (.b, 46)] []) = .next t ∧ t.status.errcode = 0#4 :=
  ⟨inv_of_sound (by decide +kernel), _, exec_eq _ _, by decide +kernel⟩

theorem witness_EgcdCoefficientsFit :
    64 ≤ 64 ∧ 2 ^ 64 - 1 < 2 ^ 64 ∧ ¬ (2 ^ 64 - 1 = 0 ∧ 0 = 0) ∧ ¬ (0 = 0 ∧ 1 = 0) := by
  decide

/-- M = 8 has exactly k = 4 bits and M = 7 one too few (V-PAD-4, V-PAD-5); 2^63 has no room for its padding. -/
theorem witness_PadWritesThePaddedValue :
    (¬ (little 0 4 [(.m, 7)] []).Paddable 7 ∧ (little 0 4 [(.m, 7)] []).slot .m = 7) ∧
      ((little 0 1 [(.m, 2 ^ 63)] []).Paddable (2 ^ 63) ∧ 2 ^ 64 ≤ (little 0 1 [(.m, 2 ^ 63)] []).padded (2 ^ 63)) ∧
      ((little 0 4 [(.m, 8)] []).Paddable 8 ∧ (little 0 4 [(.m, 8)] []).padded 8 < 2 ^ 64) ∧
      (¬ (little 2 4 [] []).Paddable 0) ∧ (little 2 4 [(.suf, 1)] []).Paddable 0 ∧
      (little 2 4 [(.suf, 1)] []).padded 0 < 2 ^ 64 := by
  unfold State.Paddable State.ParamZero
  decide +kernel

/-- No match, two matches, one match, and a zero parameter (V-UNP-4, V-UNP-2, V-UNP-1, V-UNP-5). -/
theorem witness_UnpadSelectsTheOneMatch :
    (∀ s c0 c1 c2 c3, State.MatchSet s {c0, c1, c2, c3} (matching s c0 c1 c2 c3)) ∧
      (little 0 0 [] []).ParamZero ∧ ¬ (little 0 4 [] []).ParamZero ∧
      (matching (little 0 4 [] []) 0x12345 1 2 3).card = 0 ∧ (matching (little 0 4 [] []) 0xBEEFF 0 1 0x9ABCD).card = 2 ∧
      matching (little 0 4 [] []) 0xBEEFF 0x12345 1 0x9ABCD = {0xBEEFF} :=
  ⟨matchSet_matching, paramZero_of (by decide +kernel), not_paramZero_of (by decide +kernel), by decide +kernel,
    by decide +kernel, by decide +kernel⟩

theorem witness_PaddingRoundTrips :
    (little 0 4 [] []).Paddable 8 ∧ (little 3 4 [(.suf, 1)] []).Paddable 0 := by
  unfold State.Paddable State.ParamZero
  decide +kernel

theorem witness_VariantPairsBehaveIdentically :
    (0#2 = 0#2 ∧ 1#2 = 1#2) ∧ (2#2 = 2#2 ∧ 3#2 = 3#2) ∧
      ∃ t, exec .decrypt (little 0 4 [] []) = .next (stateOf idle (exec .decrypt (little 0 4 [] []))) ∧
        t = stateOf idle (exec .decrypt (little 0 4 [] [])) :=
  ⟨by decide, by decide, _, rfl, rfl⟩

/-- N = PADV, N = 1, N even, and N = 3. -/
theorem witness_ModsqrSquaresModN :
    (little 0 2 [(.padv, 77), (.n, 77)] []).slot .n ≤ (little 0 2 [(.padv, 77), (.n, 77)] []).slot .padv ∧
      ((little 0 2 [(.n, 1)] []).slot .padv < (little 0 2 [(.n, 1)] []).slot .n ∧ (little 0 2 [(.n, 1)] []).slot .n < 3) ∧
      ((little 0 2 [(.n, 4)] []).slot .padv < (little 0 2 [(.n, 4)] []).slot .n ∧
        (little 0 2 [(.n, 4)] []).slot .n % 2 = 0) ∧
      ((little 0 2 [(.padv, 2), (.n, 3)] []).slot .padv < (little 0 2 [(.padv, 2), (.n, 3)] []).slot .n ∧
        3 ≤ (little 0 2 [(.padv, 2), (.n, 3)] []).slot .n ∧ (little 0 2 [(.padv, 2), (.n, 3)] []).slot .n % 2 = 1) := by
  decide +kernel

theorem witness_SqrtWritesTheClosedForm :
    ¬ (idle.slot .p % 4 = 3 ∧ idle.slot .q % 4 = 3) ∧ (tiny [] []).slot .p % 4 = 3 ∧ (tiny [] []).slot .q % 4 = 3 := by
  decide +kernel

/-- gcd 7; gcd 1 with n = 2^64 + 2^32, 2 and 6; and 7, 11. -/
theorem witness_CrtWritesTheCandidates :
    Nat.gcd ((little 0 2 [(.p, 7), (.q, 7)] []).slot .p) ((little 0 2 [(.p, 7), (.q, 7)] []).slot .q) ≠ 1 ∧
      (Nat.gcd (2 ^ 32) (2 ^ 32 + 1) = 1 ∧ 2 ^ 64 ≤ 2 ^ 32 * (2 ^ 32 + 1) ∧
        (little 0 2 [(.p, 2 ^ 32), (.q, 2 ^ 32 + 1)] []).slot .p = 2 ^ 32) ∧
      (Nat.gcd 1 2 = 1 ∧ 1 * 2 < 3 ∧ (little 0 2 [(.p, 1), (.q, 2)] []).slot .q = 2) ∧
      (Nat.gcd 2 3 = 1 ∧ 2 * 3 % 2 = 0 ∧ (little 0 2 [(.p, 2), (.q, 3)] []).slot .q = 3) ∧
      (Nat.gcd ((tiny [] []).slot .p) ((tiny [] []).slot .q) = 1 ∧ (tiny [] []).slot .p * (tiny [] []).slot .q < 2 ^ 64 ∧
        3 ≤ (tiny [] []).slot .p * (tiny [] []).slot .q ∧ (tiny [] []).slot .p * (tiny [] []).slot .q % 2 = 1) := by
  decide +kernel

/-- V-CRT-1 and V-CRT-2: p = 7, q = 11 with roots 0 and 1 (of 56), 3 and 5, 1 and 0. -/
theorem witness_CrtCandidatesAreTheCombinedRoots :
    Nat.gcd 7 11 = 1 ∧ 0 < 7 * 11 ∧ (-3 : Int) * 7 + 2 * 11 = 1 ∧ (0 ^ 2 ≡ 56 [MOD 7] ∧ 1 ^ 2 ≡ 56 [MOD 11]) ∧
      (1 ^ 2 ≡ 22 [MOD 7] ∧ 0 ^ 2 ≡ 22 [MOD 11]) ∧ (3 ^ 2 ≡ 58 [MOD 7] ∧ 5 ^ 2 ≡ 58 [MOD 11]) := by
  decide

/-- V-ENC-1 to V-ENC-5. -/
theorem witness_EncryptPadsAndSquares :
    (¬ (tiny [(.m, 1)] []).Paddable 1) ∧ ((tiny [(.m, 19)] []).Paddable 19 ∧ 77 ≤ (tiny [(.m, 19)] []).padded 19) ∧
      ((tiny [(.m, 5), (.n, 78)] []).Paddable 5 ∧ (tiny [(.m, 5), (.n, 78)] []).padded 5 < 78 ∧ 78 % 2 = 0) ∧
      ((little 2 0 [(.suf, 1), (.n, 2)] []).Paddable 0 ∧ (little 2 0 [(.suf, 1), (.n, 2)] []).padded 0 < 2 ∧ 2 < 3) ∧
      ((tiny [(.m, 5)] []).Paddable 5 ∧ (tiny [(.m, 5)] []).padded 5 < (tiny [(.m, 5)] []).slot .n ∧
        3 ≤ (tiny [(.m, 5)] []).slot .n ∧ (tiny [(.m, 5)] []).slot .n % 2 = 1) := by
  unfold State.Paddable State.ParamZero
  decide +kernel

/-- PAD fails; PAD and MODSQR succeed; PAD succeeds and MODSQR fails. -/
theorem witness_EncryptIsPadThenModsqr :
    ((tiny [(.m, 1)] []).Inv ∧ ∃ t u, exec .pad (tiny [(.m, 1)] []) = .next t ∧ exec .encrypt (tiny [(.m, 1)] []) = .next u ∧
        t.status.errcode ≠ 0#4) ∧
      ((tiny [(.m, 5)] []).Inv ∧ ∃ t u v, exec .pad (tiny [(.m, 5)] []) = .next t ∧
        exec .encrypt (tiny [(.m, 5)] []) = .next u ∧ t.status.errcode = 0#4 ∧ exec .modsqr t = .next v ∧
          v.status.errcode = 0#4) ∧
      ((tiny [(.m, 19)] []).Inv ∧ ∃ t u v, exec .pad (tiny [(.m, 19)] []) = .next t ∧
        exec .encrypt (tiny [(.m, 19)] []) = .next u ∧ t.status.errcode = 0#4 ∧ exec .modsqr t = .next v ∧
          v.status.errcode = 2#4) :=
  ⟨⟨inv_of_sound (by decide +kernel), _, _, exec_eq _ _, exec_eq _ _, by decide +kernel⟩,
    ⟨inv_of_sound (by decide +kernel), _, _, _, exec_eq _ _, exec_eq _ _, by decide +kernel, exec_eq _ _,
      by decide +kernel⟩,
    ⟨inv_of_sound (by decide +kernel), _, _, _, exec_eq _ _, exec_eq _ _, by decide +kernel, exec_eq _ _,
      by decide +kernel⟩⟩

/-- The set of matches among the four candidates of a ciphertext. -/
def decryptMatches (s : State) (c : Nat) : Finset Nat :=
  let k := crtCandidates (s.slot .p) (s.slot .q) (closedRoot c (s.slot .p)) (closedRoot c (s.slot .q))
  matching s k.1 k.2.1 k.2.2.1 k.2.2.2

/-- A ciphertext's roots, candidates and matches exist in every state. -/
theorem decrypt_operands (s : State) (c : Nat) :
    ∃ mp mq k0 k1 k2 k3, mp = closedRoot c (s.slot .p) ∧ mq = closedRoot c (s.slot .q) ∧
      (k0, k1, k2, k3) = crtCandidates (s.slot .p) (s.slot .q) mp mq ∧
      s.MatchSet {k0, k1, k2, k3} (decryptMatches s c) :=
  ⟨_, _, _, _, _, _, rfl, rfl, rfl, matchSet_matching s _ _ _ _⟩

/-- Each case of DECRYPT: V-DEC-3, V-DEC-4, P * Q too large, V-DEC-7, V-DEC-6, two matches, and V-DEC-1. -/
theorem witness_DecryptRootsCombinesAndSelects :
    (∀ s : State, ∃ mp mq k0 k1 k2 k3, mp = closedRoot (s.slot .c) (s.slot .p) ∧ mq = closedRoot (s.slot .c) (s.slot .q) ∧
      (k0, k1, k2, k3) = crtCandidates (s.slot .p) (s.slot .q) mp mq ∧
      s.MatchSet {k0, k1, k2, k3} (decryptMatches s (s.slot .c))) ∧
    ¬ ((little 0 2 [(.p, 5), (.q, 11)] []).slot .p % 4 = 3 ∧ (little 0 2 [(.p, 5), (.q, 11)] []).slot .q % 4 = 3) ∧
    (7 % 4 = 3 ∧ Nat.gcd ((little 0 2 [(.p, 7), (.q, 7)] []).slot .p) ((little 0 2 [(.p, 7), (.q, 7)] []).slot .q) ≠ 1) ∧
    ((little 0 2 [(.p, 2 ^ 32 + 3), (.q, 2 ^ 32 - 1)] []).slot .p % 4 = 3 ∧
      (little 0 2 [(.p, 2 ^ 32 + 3), (.q, 2 ^ 32 - 1)] []).slot .q % 4 = 3 ∧ Nat.gcd (2 ^ 32 + 3) (2 ^ 32 - 1) = 1 ∧
      2 ^ 64 ≤ (2 ^ 32 + 3) * (2 ^ 32 - 1)) ∧
    (little 0 0 [(.p, 7), (.q, 11)] []).ParamZero ∧ ¬ (tiny [] []).ParamZero ∧
    (decryptMatches (little 2 0 [(.p, 1019), (.q, 1031), (.suf, 0xA4)] []) 464332).card = 0 ∧
    (decryptMatches (tiny [] []) 71).card = 2 ∧ decryptMatches (tiny [] []) 56 = {21} := by
  refine ⟨fun s => decrypt_operands s _, by decide +kernel, by decide +kernel, by decide +kernel,
    paramZero_of (by decide +kernel), not_paramZero_of (by decide +kernel), by decide +kernel, by decide +kernel,
    by decide +kernel⟩

/-- M = 5 decrypts back; the ciphertext of M = 3 has two matching candidates. -/
theorem witness_DecryptUndoesEncrypt :
    (7 : Nat).Prime ∧ (11 : Nat).Prime ∧
      ((tiny [(.m, 5)] []).Inv ∧ (tiny [(.m, 5)] []).slot .p = 7 ∧ (tiny [(.m, 5)] []).slot .q = 11 ∧
        (tiny [(.m, 5)] []).slot .n = 7 * 11 ∧
        ∃ t u, exec .encrypt (tiny [(.m, 5)] []) = .next t ∧ t.status.errcode = 0#4 ∧ exec .decrypt t = .next u ∧
          u.status.errcode = 0#4) ∧
      ((tiny [(.m, 3)] []).Inv ∧
        ∃ t u, exec .encrypt (tiny [(.m, 3)] []) = .next t ∧ t.status.errcode = 0#4 ∧ exec .decrypt t = .next u ∧
          u.status.errcode = 3#4) :=
  ⟨by norm_num, by norm_num,
    ⟨inv_of_sound (by decide +kernel), by decide +kernel, by decide +kernel, by decide +kernel, _, _, exec_eq _ _,
      by decide +kernel, exec_eq _ _, by decide +kernel⟩,
    ⟨inv_of_sound (by decide +kernel), _, _, exec_eq _ _, by decide +kernel, exec_eq _ _, by decide +kernel⟩⟩

/-- The small key with other block sizes. -/
def sized (ptb ctb : Nat) : State := { tiny [] [] with ptb := BitVec.ofNat 16 ptb, ctb := BitVec.ofNat 16 ctb }

/-- Each case of ENCBLK: the size checks at their boundaries, then the cases of ENCRYPT, then the fit in CTB bytes. -/
theorem witness_EncblkEncryptsOneChunk :
    (tiny [] [0x05#8]).Inv ∧ beSum (tiny [] [0x05#8]).ibuf 1 = 5 ∧
      (sized 0 4).BadBlockSizes ∧ (sized 25 4).BadBlockSizes ∧
      (sized 4 0).BadBlockSizes ∧ (sized 4 25).BadBlockSizes ∧
      ¬ (sized 24 24).BadBlockSizes ∧ (tiny [] []).ptb.toNat < 5 ∧
      ¬ ((tiny [] []).BadBlockSizes ∨ 4 = 0 ∨ (tiny [] []).ptb.toNat < 4) ∧ ¬ (tiny [] []).Paddable 1 ∧
      ((tiny [] []).Paddable 19 ∧ (tiny [] []).slot .n ≤ (tiny [] []).padded 19) ∧
      ((tiny [(.n, 78)] []).Paddable 5 ∧ (tiny [(.n, 78)] []).padded 5 < (tiny [(.n, 78)] []).slot .n ∧
        (tiny [(.n, 78)] []).slot .n % 2 = 0) ∧
      ((tiny [] []).Paddable 5 ∧ (tiny [] []).padded 5 < (tiny [] []).slot .n ∧ 3 ≤ (tiny [] []).slot .n ∧
        (tiny [] []).slot .n % 2 = 1 ∧ (tiny [] []).padded 5 ^ 2 % (tiny [] []).slot .n < 2 ^ (8 * 4)) ∧
      ((tiny [(.n, 1001)] []).Paddable 5 ∧ (tiny [(.n, 1001)] []).padded 5 < (tiny [(.n, 1001)] []).slot .n ∧
        2 ^ (8 * 1) ≤ (tiny [(.n, 1001)] []).padded 5 ^ 2 % (tiny [(.n, 1001)] []).slot .n) := by
  refine ⟨inv_of_sound (by decide +kernel), by decide +kernel, ?_, ?_, ?_, ?_, ?_, by decide +kernel, ?_, ?_, ?_, ?_, ?_,
    ?_⟩ <;> simp only [State.BadBlockSizes, State.Paddable, State.ParamZero] <;> decide +kernel

/-- Each case of DECBLK that is not a case of DECRYPT or a size check of ENCBLK: c at and above 2^64, and a plaintext
that does not fit its bytes (V-DBL-5) or does (V-DBL-1). -/
theorem witness_DecblkDecryptsOneBlock :
    (∀ s : State, ∃ mp mq k0 k1 k2 k3, mp = closedRoot (beSum s.ibuf s.ctb.toNat) (s.slot .p) ∧
      mq = closedRoot (beSum s.ibuf s.ctb.toNat) (s.slot .q) ∧
      (k0, k1, k2, k3) = crtCandidates (s.slot .p) (s.slot .q) mp mq ∧
      s.MatchSet {k0, k1, k2, k3} (decryptMatches s (beSum s.ibuf s.ctb.toNat))) ∧
    (tiny [] [0x01#8, 0, 0, 0, 0, 0, 0, 0, 0]).Inv ∧ beSum (tiny [] [0x01#8, 0, 0, 0, 0, 0, 0, 0, 0]).ibuf 9 = 2 ^ 64 ∧
    (little 2 0 [(.p, 1019), (.q, 1031), (.suf, 0xA5)] [0x00#8, 0x09#8, 0xAE#8, 0xEA#8]).Inv ∧
    beSum (little 2 0 [(.p, 1019), (.q, 1031), (.suf, 0xA5)] [0x00#8, 0x09#8, 0xAE#8, 0xEA#8]).ibuf 4 = 634602 ∧
    decryptMatches (little 2 0 [(.p, 1019), (.q, 1031), (.suf, 0xA5)] []) 634602 = {76453} ∧
    (little 2 0 [(.suf, 0xA5)] []).padWidth = 8 ∧ 2 ^ (8 * 1) ≤ 76453 / 2 ^ 8 ∧ 76453 / 2 ^ 8 < 2 ^ (8 * 2) ∧
    ¬ ((tiny [] []).BadBlockSizes ∨ 2 = 0 ∨ (tiny [] []).ptb.toNat < 2 ∨ 2 ^ 64 ≤ 634602) := by
  refine ⟨fun s => decrypt_operands s _, inv_of_sound (by decide +kernel), by decide +kernel,
    inv_of_sound (by decide +kernel), by decide +kernel, by decide +kernel, by decide +kernel, by decide, by decide, ?_⟩
  unfold State.BadBlockSizes
  decide +kernel

/-- A bit-copy strategy; SUF = 0; a record one byte too long for a buffer of 2 bytes; the longest SUF of 64 bits. -/
theorem witness_HdrEmitWritesTheRecord :
    (little 0 2 [] []).padcfg.variant = 0#2 ∧ (little 1 2 [] []).padcfg.variant = 1#2 ∧
      ((little 2 0 [] []).padcfg.variant = 2#2 ∧ (little 2 0 [] []).slot .suf = 0) ∧
      ((start ⟨64, 2, 0, false⟩ 2 0 [(.suf, 10)] []).padcfg.variant = 2#2 ∧ 1 ≤ 2 ∧ 10 ^ (2 - 1) ≤ 10 ∧
        (start ⟨64, 2, 0, false⟩ 2 0 [(.suf, 10)] []).slot .suf = 10) ∧
      (little 3 0 [(.suf, 2 ^ 64 - 1)] []).Inv ∧ (little 3 0 [(.suf, 2 ^ 64 - 1)] []).padcfg.variant = 3#2 ∧
      (little 3 0 [(.suf, 2 ^ 64 - 1)] []).slot .suf ≠ 0 :=
  ⟨rfl, rfl, ⟨rfl, rfl⟩, ⟨rfl, by decide, by decide, rfl⟩, inv_of_sound (by decide +kernel), rfl, by decide +kernel⟩

/-- Each case of HDR_PARSE: a count above the buffer, no terminator, an empty value, the bytes 0x2F and 0x3A beside the
digits, the values 0, 2^64 and 2^64 - 1, and a terminator in the last byte of the buffer. -/
theorem witness_HdrParseLoadsTheValue :
    idle.params.bufBytes < 25 ∧ (∀ i, i < 24 → idle.ibuf.read i ≠ 0x0A#8) ∧
      (little 0 2 [] [0x0A#8]).ibuf.read 0 = 0x0A#8 ∧
      (((little 0 2 [] [0x2F#8, 0x0A#8]).ibuf.read 0).toNat < 0x30 ∧ (little 0 2 [] [0x2F#8, 0x0A#8]).ibuf.read 1 = 0x0A#8) ∧
      0x39 < ((little 0 2 [] [0x3A#8, 0x0A#8]).ibuf.read 0).toNat ∧
      undecSum (little 0 2 [] [0x30#8, 0x0A#8]).ibuf 1 = 0 ∧
      undecSum (little 0 2 [] (dec (2 ^ 64) ++ [0x0A#8])).ibuf 20 = 2 ^ 64 ∧
      (undecSum (little 0 2 [] (dec (2 ^ 64 - 1) ++ [0x0A#8])).ibuf 20 = 2 ^ 64 - 1 ∧
        (little 0 2 [] (dec (2 ^ 64 - 1) ++ [0x0A#8])).ibuf.read 20 = 0x0A#8 ∧
        ∀ j, j < 20 → (little 0 2 [] (dec (2 ^ 64 - 1) ++ [0x0A#8])).ibuf.read j ≠ 0x0A#8 ∧
          0x30 ≤ ((little 0 2 [] (dec (2 ^ 64 - 1) ++ [0x0A#8])).ibuf.read j).toNat ∧
          ((little 0 2 [] (dec (2 ^ 64 - 1) ++ [0x0A#8])).ibuf.read j).toNat ≤ 0x39) ∧
      (undecSum (little 0 2 [] (List.replicate 22 0x30#8 ++ [0x37#8, 0x0A#8])).ibuf 23 = 7 ∧
        (little 0 2 [] (List.replicate 22 0x30#8 ++ [0x37#8, 0x0A#8])).ibuf.read 23 = 0x0A#8) := by
  decide +kernel

/-- ENCBLK of one byte and DECBLK of its block: 5 comes back, 3 is a DisambiguationError. -/
theorem witness_BlockCodecRoundTrips :
    ∀ m ∈ [(5, 0#4), (3, 3#4)],
      ∃ t u v, (tiny [] [BitVec.ofNat 8 m.1]).Inv ∧ exec (.encblk 1) (tiny [] [BitVec.ofNat 8 m.1]) = .next t ∧
        t.status.errcode = 0#4 ∧ u = { tiny [] [BitVec.ofNat 8 m.1] with ibuf := t.obuf } ∧ u.Inv ∧
        (∀ i, i < t.outlen.toNat → u.ibuf.read i = t.obuf.read i) ∧ exec (.decblk 1) u = .next v ∧
        v.status.errcode = m.2 := by
  intro m hm
  simp only [List.mem_cons, List.not_mem_nil, or_false] at hm
  rcases hm with rfl | rfl
  · exact ⟨_, _, _, inv_of_sound (by decide +kernel), exec_eq _ _, by decide +kernel, rfl,
      inv_of_sound (by decide +kernel), fun _ _ => rfl, exec_eq _ _, by decide +kernel⟩
  · exact ⟨_, _, _, inv_of_sound (by decide +kernel), exec_eq _ _, by decide +kernel, rfl,
      inv_of_sound (by decide +kernel), fun _ _ => rfl, exec_eq _ _, by decide +kernel⟩

theorem witness_HeaderRecordRoundTrips :
    (little 2 0 [(.suf, 165)] []).Inv ∧ (little 2 0 [(.suf, 165)] []).slot .suf ≠ 0 ∧
      ∃ t u, exec .hdrEmit (little 2 0 [(.suf, 165)] []) = .next t ∧ u = { idle with ibuf := t.obuf } ∧
        u.params = (little 2 0 [(.suf, 165)] []).params ∧
        (∀ i, i < t.outlen.toNat → u.ibuf.read i = t.obuf.read i) ∧ t.outlen.toNat ≤ 4 ∧ 24 ≤ u.params.bufBytes :=
  ⟨inv_of_sound (by decide +kernel), by decide +kernel, _, _, exec_eq _ _, rfl, rfl, fun _ _ => rfl, by decide +kernel,
    by decide⟩

theorem witness_CommandsWriteOnlyTheirDestinations :
    (tiny [(.m, 5)] []).Inv ∧ (∃ t, exec .encrypt (tiny [(.m, 5)] []) = .next t) ∧ Slot.p ∉ slotsWrittenBy .encrypt ∧
      writesObuf .encrypt = false ∧ writesConsumed .encrypt = false ∧
      (tiny [] [0x05#8]).Inv ∧ ∃ t, exec (.encblk 1) (tiny [] [0x05#8]) = .next t ∧ t.outlen.toNat ≤ 4 :=
  ⟨inv_of_sound (by decide +kernel), ⟨_, exec_eq _ _⟩, by decide, rfl, rfl, inv_of_sound (by decide +kernel), _,
    exec_eq _ _, by decide +kernel⟩

/-- Two states with different secret keys, for ENCBLK and for HDR_PARSE. -/
theorem witness_CommandsReadOnlyTheirOperands :
    (tiny [] [0x05#8]).Inv ∧ (tiny [(.p, 3), (.q, 5)] [0x05#8]).Inv ∧
      (∀ k ∈ slotsReadBy (.encblk 1), (tiny [] [0x05#8]).slot k = (tiny [(.p, 3), (.q, 5)] [0x05#8]).slot k) ∧
      (tiny [] [0x05#8]).ibuf = (tiny [(.p, 3), (.q, 5)] [0x05#8]).ibuf ∧
      (∃ t u, exec (.encblk 1) (tiny [] [0x05#8]) = .next t ∧ exec (.encblk 1) (tiny [(.p, 3), (.q, 5)] [0x05#8]) = .next u ∧
        t.status.errcode = 0#4) ∧ writesObuf (.encblk 1) = true ∧
      (∃ t u, exec (.hdrParse 2) (tiny [] [0x37#8, 0x0A#8]) = .next t ∧
        exec (.hdrParse 2) (tiny [(.p, 3)] [0x37#8, 0x0A#8]) = .next u ∧ t.status.errcode = 0#4) ∧
      writesConsumed (.hdrParse 2) = true :=
  ⟨inv_of_sound (by decide +kernel), inv_of_sound (by decide +kernel), by decide +kernel, by decide +kernel,
    ⟨_, _, exec_eq _ _, exec_eq _ _, by decide +kernel⟩, rfl, ⟨_, _, exec_eq _ _, exec_eq _ _, by decide +kernel⟩, rfl⟩

/-- UNPAD with two matches, and DECBLK with a plaintext too long, change MATCHES and report a code. -/
theorem witness_FailingCommandsChangeOnlyStatus :
    (∃ t, exec .unpad (little 0 4 [(.cand0, 0xBEEFF), (.cand2, 1)] []) = .next t ∧ t.status.errcode ≠ 0#4 ∧
      t.status.nmatches ≠ 0#3) ∧
    ∃ t, exec (.decblk 1) (little 2 0 [(.p, 1019), (.q, 1031), (.suf, 0xA5)] [0x00#8, 0x09#8, 0xAE#8, 0xEA#8]) = .next t ∧
      t.status.errcode ≠ 0#4 ∧ t.status.nmatches ≠ 0#3 :=
  ⟨⟨_, exec_eq _ _, by decide +kernel, by decide +kernel⟩, _, exec_eq _ _, by decide +kernel, by decide +kernel⟩

/-- OUTLEN and CONSUMED change at a commit, and at a reset. -/
theorem witness_ResultLengthsChangeOnlyAtTheirCommits :
    ((accepted (tiny [] [0x05#8]) 0x00010009#32).Inv ∧
      ∃ t, step (accepted (tiny [] [0x05#8]) 0x00010009#32) = .next t ∧
        decide (t.outlen ≠ (accepted (tiny [] [0x05#8]) 0x00010009#32).outlen) = true) ∧
    ((accepted (tiny [] [0x37#8, 0x0A#8]) 0x0002000C#32).Inv ∧
      ∃ t, step (accepted (tiny [] [0x37#8, 0x0A#8]) 0x0002000C#32) = .next t ∧
        decide (t.consumed ≠ (accepted (tiny [] [0x37#8, 0x0A#8]) 0x0002000C#32).consumed) = true) ∧
    ({ idle with outlen := 4#16, consumed := 2#16, input := [.resetInput] }.Inv ∧
      ∃ t, step { idle with outlen := 4#16, consumed := 2#16, input := [.resetInput] } = .next t ∧
        decide (t.outlen ≠ 4#16 ∧ t.consumed ≠ 2#16) = true) :=
  ⟨⟨inv_of_sound (by decide +kernel), exists_next (by decide +kernel)⟩,
    ⟨inv_of_sound (by decide +kernel), exists_next (by decide +kernel)⟩,
    ⟨inv_of_sound (by decide +kernel), exists_next (by decide +kernel)⟩⟩

theorem witness_BitlenCountsBinaryDigits : bitlen 8 = 4 ∧ bitlen 7 = 3 ∧ bitlen 1 = 1 := by decide

/-- The largest value of one byte, and the byte strings of V-BLK-1. -/
theorem witness_BigEndianBytesAreUnique :
    1 ≤ 1 ∧ 255 < 2 ^ (8 * 1) ∧ be [0x00#8, 0x07#8, 0x15#8, 0xCC#8] = 464332 ∧
      beBytes 464332 4 = [0x00#8, 0x07#8, 0x15#8, 0xCC#8] := by
  decide +kernel

/-- V-HDR-1 and V-HDR-12. -/
theorem witness_DecimalTextReadsBack :
    (∀ b ∈ [0x30#8, 0x30#8, 0x37#8], 0x30 ≤ b.toNat ∧ b.toNat ≤ 0x39) ∧ undec [0x30#8, 0x30#8, 0x37#8] = 7 ∧
      dec 165 = [0x31#8, 0x36#8, 0x35#8] := by
  decide +kernel

theorem witness_LoadSlotMacroLoadsTheSlot : idle.Inv ∧ idle.phase = .idle ∧ 2 ^ 64 - 1 < 2 ^ idle.params.w :=
  ⟨inv_of_sound (by decide +kernel), rfl, by decide⟩

end Sys2Proof.Tests
end

section
/-! SUPPORT. The block's invariant: what each update of the state must respect to keep it, and that every step does. -/

namespace Sys2Proof.Machine

/-! ## Reset, flags and issue -/

/-- The reset state of R112 meets the invariant for every legal choice of the parameters. -/
theorem State.inv_resetWith {p : Params} (hp : p.legal) : (State.resetWith p).Inv where
  legal := hp
  slots r := by cases r <;> exact Nat.two_pow_pos _
  ibufForm := rfl
  obufForm := rfl
  ibufSize _ _ := rfl
  obufSize _ _ := rfl
  outlen := Nat.zero_le _
  consumed := Nat.zero_le _
  errcode := Nat.zero_le _
  matches_le := Nat.zero_le _
  errCoded h := nomatch h
  busyFlags h := nomatch h
  idleStaged _ := rfl
  uncounted h := nomatch h
  stagedRule _ h := nomatch h

section
variable {s : State} (h : s.Inv)
include h

/-- The invariant does not speak of the schedule, the bus answer, IRQ_EN, WBUSY and BUSERR, and it lets the host clear
DONE and ERR at any time. -/
theorem State.Inv.of_flags (st : Status) (hdone : st.done = true → s.status.done = true)
    (herr : st.err = true → s.status.err = true) (hcode : st.errcode = s.status.errcode)
    (hcount : st.nmatches = s.status.nmatches) (irq : Bool) (input : List Event) (reply : Option Reply) :
    ({ s with irqEn := irq, status := st, input := input, reply := reply } : State).Inv :=
  { h with
    errcode := hcode ▸ h.errcode
    matches_le := hcount ▸ h.matches_le
    errCoded := fun he => hcode ▸ h.errCoded (herr he)
    busyFlags := fun hb => by
      obtain ⟨hd, he, hc⟩ := h.busyFlags hb
      exact ⟨Bool.eq_false_of_not_eq_true fun ht => by simp [hdone ht] at hd,
        Bool.eq_false_of_not_eq_true fun ht => by simp [herr ht] at he, hcode.trans hc⟩
    uncounted := fun hb hs => hcount.trans (h.uncounted hb hs)
    stagedRule := fun r hr => by
      obtain ⟨hrule, hn⟩ := h.stagedRule r hr
      exact ⟨hrule.trans (wordRule_congr rfl rfl rfl rfl rfl rfl _), hcount.trans hn⟩ }

/-- A bus answer and the schedule are outside the invariant. -/
theorem State.Inv.of_outside (input : List Event) (reply : Option Reply) :
    ({ s with input := input, reply := reply } : State).Inv :=
  h.of_flags s.status id id rfl rfl s.irqEn input reply

/-- Issue shows no result and nothing staged (R51). -/
theorem State.Inv.issue (v : Word) : (s.issue v).Inv :=
  { h with
    errcode := Nat.zero_le _
    matches_le := Nat.zero_le _
    errCoded := nofun
    busyFlags := fun _ => ⟨rfl, rfl, rfl⟩
    idleStaged := nofun
    uncounted := fun _ _ => rfl
    stagedRule := nofun }

/-! ## Host writes (R42, R47) -/

/-- While the engine is idle nothing is staged, so the configuration registers, a slot within 2^W and a canonical IBUF
within BUF_BYTES may be replaced. -/
theorem State.Inv.of_idle (hi : s.phase = .idle) (c : Padcfg) (ptb ctb : BitVec 16) {f : Slots}
    (hf : ∀ r, f.get r < 2 ^ s.params.w) {mem : Memory} (hwf : mem.wf = true)
    (hsize : ∀ i, s.params.bufBytes ≤ i → mem.read i = 0x00#8) :
    ({ s with padcfg := c, ptb := ptb, ctb := ctb, slots := f, ibuf := mem } : State).Inv :=
  { h with
    slots := hf
    ibufForm := hwf
    ibufSize := hsize
    stagedRule := fun r hr => by simp [h.idleStaged hi] at hr }

theorem State.Inv.setSlot (hi : s.phase = .idle) (r : Slot) {v : Nat} (hv : v < 2 ^ s.params.w) : (s.setSlot r v).Inv :=
  h.of_idle hi s.padcfg s.ptb s.ctb
    (fun k => by
      rw [Slots.get_set]
      split
      · exact hv
      · exact h.slots k)
    h.ibufForm h.ibufSize

theorem State.Inv.setIbufWord (hi : s.phase = .idle) {j : Nat} (hj : 4 * j + 4 ≤ s.params.bufBytes) (v : Word) :
    ({ s with ibuf := s.ibuf.setWord j v } : State).Inv :=
  h.of_idle hi s.padcfg s.ptb s.ctb h.slots (Memory.wf_setWord h.ibufForm j v) fun i hle => by
    have houtside : 4 * j + (beBytes v.toNat 4).length ≤ i := by rw [beBytes_length]; omega
    rw [Memory.setWord, Memory.read_writeBytes_outside h.ibufForm (.inr houtside), h.ibufSize i hle]

/-- A write of CTRL is a reset or a write of IRQ_EN. -/
theorem State.Inv.writeCtrl (v : Word) : (s.writeCtrl v).Inv := by
  rw [State.writeCtrl]
  split
  · exact (State.inv_resetWith h.legal).of_outside _ _
  · exact h.of_flags s.status id id rfl rfl _ _ _

theorem State.Inv.writeStatus (v : Word) : ({ s with status := s.status.w1c v } : State).Inv :=
  h.of_flags (s.status.w1c v) (fun hd => (Bool.and_eq_true_iff.1 hd).1) (fun he => (Bool.and_eq_true_iff.1 he).1)
    rfl rfl _ _ _

/-- An accepted write to an idle block keeps the invariant; a mapped IBUF word lies within BUF_BYTES. -/
theorem State.Inv.writeTarget_idle (hi : s.phase = .idle) {off : Nat} {t : Target} (h4 : off % 4 = 0)
    (ht : targetAt s.params off = some t) (v : Word) : (s.writeTarget t v).Inv := by
  obtain ⟨⟨hw, -⟩, ⟨hbuf, -⟩, -⟩ := h.legal
  cases t with
  | id | params | outlen | consumed | obuf => exact h
  | ctrl => exact h.writeCtrl v
  | cmd => exact h.issue v
  | status => exact h.writeStatus v
  | padcfg | ptb | ctb => exact h.of_idle hi _ _ _ h.slots h.ibufForm h.ibufSize
  | ibuf j => exact h.setIbufWord hi (targetAt_ibuf_lt hbuf h4 ht) v
  | slot r i => exact h.setSlot hi r (setSlotWord_lt hw (h.slots r) i v)

/-- The busy rule lets only writes of CTRL and STATUS through, and those keep the invariant in every state. -/
theorem State.Inv.writeUnlessBusy {off : Nat} {t : Target} (h4 : off % 4 = 0) (ht : targetAt s.params off = some t)
    (v : Word) : (s.writeUnlessBusy t v).Inv := by
  cases hphase : s.phase with
  | idle =>
    rw [State.writeUnlessBusy_idle hphase]
    exact h.writeTarget_idle hphase h4 ht v
  | busy =>
    cases hlive : t.writableBusy with
    | false =>
      rw [State.writeUnlessBusy_busy hphase hlive]
      exact h.of_flags { s.status with wbusy := true } id id rfl rfl _ _ _
    | true =>
      rw [State.writeUnlessBusy_live s hlive]
      cases t with
      | ctrl => exact h.writeCtrl v
      | status => exact h.writeStatus v
      | _ => cases hlive

/-- Serving a bus access keeps the invariant. -/
theorem State.Inv.serveAccess {a : Access} {t : State} (ht : serveAccess a s = .next t) : t.Inv := by
  obtain ⟨-, hs⟩ | ⟨off, -, ⟨-, hs⟩ | ⟨tgt, hreach, ⟨-, hs⟩ | ⟨v, -, hs⟩⟩⟩ := serveAccess_cases s a <;>
    rw [hs] at ht <;> cases ht
  · exact h.of_flags { s.status with buserr := true } id id rfl rfl _ _ _
  · exact h.of_outside _ _
  · obtain ⟨-, h4, htgt, -⟩ := reaches_some hreach
    exact (h.writeUnlessBusy h4 htgt v).of_outside _ _

end

/-! ## The engine's turns (R51, R52) -/

/-- A commit of writes that fit keeps every slot below 2^W and OUTLEN and CONSUMED within BUF_BYTES. -/
theorem State.commit_bounded {s : State} {ws : List StagedWrite} (hfit : ∀ w ∈ ws, w.Fits s.params)
    (hs : ∀ r, s.slot r < 2 ^ s.params.w) (ho : s.outlen.toNat ≤ s.params.bufBytes)
    (hc : s.consumed.toNat ≤ s.params.bufBytes) :
    (∀ r, (s.commit ws).slot r < 2 ^ s.params.w) ∧ (s.commit ws).outlen.toNat ≤ s.params.bufBytes ∧
      (s.commit ws).consumed.toNat ≤ s.params.bufBytes := by
  induction ws generalizing s with
  | nil => exact ⟨hs, ho, hc⟩
  | cons w ws ih =>
    obtain ⟨hw, hrest⟩ := List.forall_mem_cons.1 hfit
    rw [State.commit_cons]
    cases w with
    | slot r v =>
      refine ih (s := s.setSlot r v) hrest (fun k => ?_) ho hc
      rw [State.slot_setSlot]
      split
      · exact hw
      · exact hs k
    | obuf bytes => exact ih (s := s.commitWrite (.obuf bytes)) hrest hs ho hc
    | outlen n => exact ih (s := s.commitWrite (.outlen n)) hrest hs hw hc
    | consumed n => exact ih (s := s.commitWrite (.consumed n)) hrest hs ho hw

theorem Err.code_le (e : Err) : e.code.toNat ≤ 7 := by cases e <;> decide

theorem Err.code_ne_zero (e : Err) : e.code ≠ 0#4 := by cases e <;> decide

section
variable {s : State} (h : s.Inv)
include h

/-- A count within 4 in STATUS.MATCHES. -/
theorem State.Inv.count_le {r : RuleEnd} (hr : r.Fits s.params) :
    (s.status.count r.counted).nmatches.toNat ≤ 4 := by
  cases hcount : r.counted with
  | none => exact h.matches_le
  | some n => exact hr.1 n hcount

/-- An error completion shows a code with ERR and changes STATUS alone. -/
theorem State.Inv.raiseError {st : Status} (hn : st.nmatches.toNat ≤ 4) (e : Err) :
    (({ s with status := st } : State).raiseError e).Inv :=
  { h with
    errcode := e.code_le
    matches_le := hn
    errCoded := fun _ => e.code_ne_zero
    busyFlags := nofun
    idleStaged := fun _ => rfl
    uncounted := nofun
    stagedRule := nofun }

/-- A successful completion commits writes that fit; ERR is clear because the command was running. -/
theorem State.Inv.completeOk {st : Status} (hn : st.nmatches.toNat ≤ 4) (herr : st.err = false)
    {ws : List StagedWrite} (hfit : ∀ w ∈ ws, w.Fits s.params) :
    (({ s with status := st } : State).completeOk ws).Inv := by
  obtain ⟨hslots, houtlen, hconsumed⟩ :=
    State.commit_bounded (s := { s with status := st }) hfit h.slots h.outlen h.consumed
  have hform := State.commit_obuf_wf (s := { s with status := st }) h.obufForm ws
  have hsize : ∀ i, s.params.bufBytes ≤ i → (State.commit { s with status := st } ws).obuf.read i = s.obuf.read i :=
    fun i hi => State.commit_obuf_of_above (s := { s with status := st }) h.obufForm
      fun bytes hb => (hfit _ hb).trans hi
  rw [State.completeOk_frame]
  exact
    { h with
      slots := hslots
      obufForm := hform
      obufSize := fun i hi => (hsize i hi).trans (h.obufSize i hi)
      outlen := houtlen
      consumed := hconsumed
      errcode := Nat.zero_le _
      matches_le := hn
      errCoded := fun he => by simp [herr] at he
      busyFlags := nofun
      idleStaged := fun _ => rfl
      uncounted := nofun
      stagedRule := nofun }

/-- The completion step of a busy engine keeps the invariant, whatever end that fits it takes. -/
theorem State.Inv.finish (hb : s.phase = .busy) {r : RuleEnd} (hr : r.Fits s.params) : (s.finish r).Inv := by
  obtain ⟨e, -, hs⟩ | ⟨ws, hend, hs⟩ := s.finish_cases r <;> rw [hs]
  · exact h.raiseError (h.count_le hr) e
  · exact h.completeOk (h.count_le hr) (h.busyFlags hb).2.1 (hr.2 ws hend)

/-- What a busy engine has staged, or will stage, fits: it is the rule of the accepted word. -/
theorem State.Inv.end_fits : (s.staged.getD (wordRule s.cmd s)).Fits s.params := by
  cases hst : s.staged with
  | none => exact wordRule_fits h.slots _
  | some r =>
    obtain ⟨rfl, -⟩ := h.stagedRule r hst
    exact wordRule_fits h.slots _

theorem State.Inv.completeTurn {t : State} (ht : completeTurn s = .next t) : t.Inv := by
  cases hphase : s.phase with
  | idle =>
    rw [completeTurn_idle hphase] at ht
    cases ht
    exact h
  | busy =>
    rw [completeTurn_busy hphase] at ht
    cases ht
    exact h.finish hphase h.end_fits

/-- Running the rule stages its end and shows its count, which was 0 before. -/
theorem State.Inv.executeTurn : (executeTurn s).Inv := by
  rw [Machine.executeTurn]
  split
  · next hrun =>
    obtain ⟨hbusy, hnone⟩ := Bool.and_eq_true_iff.1 hrun
    rw [State.busy_iff] at hbusy
    exact
      { h with
        matches_le := h.count_le (wordRule_fits h.slots s.cmd)
        idleStaged := fun hi => by simp [hbusy] at hi
        uncounted := nofun
        stagedRule := fun r hr => by
          cases hr
          refine ⟨wordRule_congr rfl rfl rfl rfl rfl rfl _, ?_⟩
          rw [← h.uncounted hbusy (Option.isNone_iff_eq_none.1 hnone)]
          rfl }
  · exact h

/-! ## One step -/

theorem State.Inv.serve {e : Event} {t : State} (ht : serve e s = .next t) : t.Inv := by
  cases e with
  | bus a => exact h.serveAccess ht
  | execute =>
    cases ht
    exact h.executeTurn
  | complete => exact h.completeTurn ht
  | resetInput =>
    cases ht
    exact (State.inv_resetWith h.legal).of_outside _ _

/-- Every step keeps the invariant. -/
theorem State.Inv.step {t : State} (ht : step s = .next t) : t.Inv := by
  obtain ⟨-, hs⟩ | ⟨e, rest, -, hs⟩ := step_cases s <;> rw [hs] at ht
  · exact (h.of_outside _ none).completeTurn ht
  · exact (h.of_outside rest none).serve ht

end

/-- Settles O12: each event's effect keeps the invariant, because a host write respects the bounds and a rule's end fits
its destinations. -/
theorem stepKeepsTheInvariant : Obligations.StepKeepsTheInvariant := fun _ _ h ht => h.step ht

end Sys2Proof.Machine
end

section
/-! SUPPORT. The spec's terms for numbers (R9 to R11): bit lengths, byte strings and decimal text as sums. -/

namespace Sys2Proof

/-- Settles O52, from the bounds that fix the bit length of a positive number. -/
theorem bitlenCountsBinaryDigits : Obligations.BitlenCountsBinaryDigits := by
  refine ⟨rfl, fun v b hb => ?_⟩
  rcases Nat.eq_zero_or_pos v with rfl | hv
  · have hpow : 0 < 2 ^ (b - 1) := Nat.two_pow_pos _
    have hzero : bitlen 0 = 0 := rfl
    omega
  · rw [bitlen_eq_iff hv.ne']
    exact and_iff_right hb

/-- The first byte's term of a positional sum. -/
theorem positional_sum_cons (digit : Byte → Nat) (base : Nat) (b : Byte) (rest : List Byte) :
    ∑ i ∈ Finset.range (b :: rest).length, digit ((b :: rest).getD i 0#8) * base ^ ((b :: rest).length - 1 - i) =
      digit b * base ^ rest.length +
        ∑ i ∈ Finset.range rest.length, digit (rest.getD i 0#8) * base ^ (rest.length - 1 - i) := by
  rw [List.length_cons, Finset.sum_range_succ', Nat.add_comm]
  refine congrArg₂ (· + ·) rfl (Finset.sum_congr rfl fun i _ => ?_)
  rw [List.getD_cons_succ, show rest.length + 1 - 1 - (i + 1) = rest.length - 1 - i by omega]

/-- R10: `be` is the sum with the first byte most significant. -/
theorem be_eq_sum (bytes : List Byte) :
    be bytes = ∑ i ∈ Finset.range bytes.length, (bytes.getD i 0#8).toNat * 256 ^ (bytes.length - 1 - i) := by
  induction bytes with
  | nil => rfl
  | cons b rest ih => rw [positional_sum_cons BitVec.toNat, be_cons, ih]

/-- R11: `undec` is the sum with the first digit most significant. -/
theorem undec_eq_sum (bytes : List Byte) :
    undec bytes = ∑ i ∈ Finset.range bytes.length, ((bytes.getD i 0#8).toNat - 0x30) * 10 ^ (bytes.length - 1 - i) := by
  induction bytes with
  | nil => rfl
  | cons b rest ih => rw [positional_sum_cons (fun x => x.toNat - 0x30), undec_cons, ih]

/-- R10: the bytes of a value that fits are the only ones of their length with that value. -/
theorem eq_beBytes_iff {v len : Nat} (hv : v < 256 ^ len) (bytes : List Byte) :
    (bytes.length = len ∧ be bytes = v) ↔ bytes = beBytes v len := by
  constructor
  · rintro ⟨rfl, rfl⟩
    exact (beBytes_be bytes).symm
  · rintro rfl
    exact ⟨beBytes_length v len, be_beBytes hv⟩

/-- Settles O53: the sum by induction on the byte string, uniqueness because `beBytes` inverts `be`. -/
theorem bigEndianBytesAreUnique : Obligations.BigEndianBytesAreUnique := by
  refine ⟨fun bytes => ?_, fun v len _ hv bytes => ?_⟩
  · simp only [be_eq_sum bytes, pow_mul, Nat.reducePow]
  · rw [pow_mul] at hv
    exact eq_beBytes_iff hv bytes

theorem isDigit_iff (b : Byte) : isDigit b = true ↔ 0x30 ≤ b.toNat ∧ b.toNat ≤ 0x39 := by simp [isDigit]

/-- R11: decimal text begins with the most significant digit, which is not 0. -/
theorem dec_eq_cons {v : Nat} (hv : v ≠ 0) : ∃ b rest, dec v = b :: rest ∧ b ≠ 0x30#8 := by
  have hne : Nat.digits 10 v ≠ [] := Nat.digits_ne_nil_iff_ne_zero.2 hv
  have hlt : (Nat.digits 10 v).getLast hne < 10 := Nat.digits_lt_base (by norm_num) (List.getLast_mem hne)
  have hlast : (Nat.digits 10 v).getLast hne ≠ 0 := Nat.getLast_digit_ne_zero 10 hv
  refine ⟨digitByte ((Nat.digits 10 v).getLast hne), (Nat.digits 10 v).dropLast.reverse.map digitByte, ?_, fun h => ?_⟩
  · rw [dec_eq_digits, ← List.map_cons, ← List.reverse_concat, List.dropLast_append_getLast]
  · have h30 := congrArg BitVec.toNat h
    rw [digitByte_toNat hlt] at h30
    exact hlast (Nat.add_left_cancel h30)

/-- Settles O54: the sum by induction on the text, and the digits of `dec` through `Nat.digits`. -/
theorem decimalTextReadsBack : Obligations.DecimalTextReadsBack :=
  ⟨fun bytes _ _ => undec_eq_sum bytes, fun v hv =>
    ⟨undec_dec v, fun b hb => (isDigit_iff b).1 (dec_isDigit v b hb), dec_eq_cons (Nat.one_le_iff_ne_zero.1 hv)⟩⟩

end Sys2Proof
end

section
/-! SUPPORT. What a command leaves behind: its destinations, and what they depend on (R16, R28, R29, R31, R52). -/

namespace Sys2Proof.Machine

/-! ## The commit of a command's staged writes -/

/-- Two commits of the same writes agree on a view of the state that one of the writes sets and that no write draws from
elsewhere. -/
theorem State.commit_agree {α : Type} (view : State → α) {ws : List StagedWrite}
    (hkeep : ∀ (w : StagedWrite) (s u : State), view s = view u → view (s.commitWrite w) = view (u.commitWrite w))
    {w : StagedWrite} (hw : w ∈ ws) (hset : ∀ s u : State, view (s.commitWrite w) = view (u.commitWrite w)) (s u : State) :
    view (s.commit ws) = view (u.commit ws) := by
  obtain ⟨pre, post, rfl⟩ := List.append_of_mem hw
  rw [State.commit_append, State.commit_append, State.commit_cons, State.commit_cons]
  exact List.foldl_rel (r := fun s u => view s = view u) (hset _ _) fun w _ s u h => hkeep w s u h

/-- A slot that a staged write names does not depend on the state before the commit. -/
theorem State.commit_slot_agree {ws : List StagedWrite} {r : Slot} (h : ∃ v, .slot r v ∈ ws) (s u : State) :
    (s.commit ws).slot r = (u.commit ws).slot r := by
  obtain ⟨v, hv⟩ := h
  refine State.commit_agree (fun s => s.slot r) (fun w s u hsu => ?_) hv (fun s u => ?_) s u
  · cases w with
    | slot k x => simp only [State.commitWrite_slot, State.slot_setSlot, hsu]
    | obuf | outlen | consumed => exact hsu
  · simp only [State.commitWrite_slot, State.slot_setSlot, if_true]

/-- CONSUMED does not depend on the state before a commit that writes it. -/
theorem State.commit_consumed_agree {ws : List StagedWrite} (h : ∃ n, .consumed n ∈ ws) (s u : State) :
    (s.commit ws).consumed = (u.commit ws).consumed := by
  obtain ⟨n, hn⟩ := h
  refine State.commit_agree State.consumed (fun w s u hsu => ?_) hn (fun _ _ => rfl) s u
  cases w with
  | consumed => rfl
  | slot | obuf | outlen => exact hsu

section
variable {i : Instr} {ws : List StagedWrite} (h : WritesOf i ws)
include h

/-- ENCBLK, DECBLK and HDR_EMIT put one string at the start of OBUF and leave its length in OUTLEN. -/
theorem WritesOf.commit_bytes (hi : writesObuf i = true) :
    ∃ bytes : List Byte, ∀ s : State, s.obuf.wf = true →
      (s.commit ws).outlen.toNat = bytes.length ∧
        ∀ a, (s.commit ws).obuf.read a = bytes.getD a (s.obuf.read a) := by
  obtain ⟨hno, -⟩ | ⟨-, pre, -, hpre, rfl | ⟨bytes, n, rfl, hn⟩⟩ := h.outs
  · rw [hi] at hno
    cases hno
  · refine ⟨[], fun s _ => ?_⟩
    rw [State.commit_append]
    exact ⟨rfl, fun a => congrArg (Memory.read · a) (State.commit_obuf_of_not_mem hpre s)⟩
  · refine ⟨bytes, fun s hwf => ?_⟩
    rw [State.commit_append]
    refine ⟨hn, fun a => ?_⟩
    have hread := Memory.read_writeBytes (State.commit_obuf_wf hwf pre) 0 a bytes
    rw [if_pos a.zero_le, Nat.sub_zero] at hread
    exact hread.trans (by rw [State.commit_obuf_of_not_mem hpre s])

theorem WritesOf.commit_slot (s : State) {k : Slot} (hk : k ∉ slotsWrittenBy i) : (s.commit ws).slot k = s.slot k :=
  State.commit_slot_of_not_mem (fun v hv => hk ((h.slots k).1 ⟨v, hv⟩)) s

theorem WritesOf.commit_consumed (s : State) (hi : writesConsumed i = false) : (s.commit ws).consumed = s.consumed :=
  State.commit_consumed_of_not_mem (fun n hn => by simp [h.consumed.1 ⟨n, hn⟩] at hi) s

theorem WritesOf.commit_outs (s : State) (hi : writesObuf i = false) :
    (s.commit ws).obuf = s.obuf ∧ (s.commit ws).outlen = s.outlen := by
  obtain ⟨-, hlen, hbytes⟩ | ⟨hyes, -⟩ := h.outs
  · exact ⟨State.commit_obuf_of_not_mem hbytes s, State.commit_outlen_of_not_mem hlen s⟩
  · rw [hi] at hyes
    cases hyes

/-- OBUF changes only below the OUTLEN that the command leaves (R31). -/
theorem WritesOf.commit_obuf_above {s : State} (hwf : s.obuf.wf = true) {a : Nat}
    (ha : (s.commit ws).outlen.toNat ≤ a) : (s.commit ws).obuf.read a = s.obuf.read a := by
  cases hi : writesObuf i with
  | false => rw [(h.commit_outs s hi).1]
  | true =>
    obtain ⟨bytes, hbytes⟩ := h.commit_bytes hi
    obtain ⟨hlen, hread⟩ := hbytes s hwf
    rw [hread, List.getD_eq_default _ _ (hlen ▸ ha)]

end

/-! ## The completion step, by the rule's end -/

theorem State.finish_of_raise {r : RuleEnd} {e : Err} (h : r.ending = .raise e) (s : State) :
    s.finish r = { s with status := s.status.count r.counted }.raiseError e := by
  rw [State.finish, h]

theorem State.commit_withStatus (s : State) (st : Status) (ws : List StagedWrite) :
    State.commit { s with status := st } ws = { s.commit ws with status := st } := by
  induction ws generalizing s with
  | nil => rfl
  | cons w ws ih =>
    have hw : State.commitWrite { s with status := st } w = { s.commitWrite w with status := st } := by cases w <;> rfl
    rw [State.commit_cons, hw, ih, State.commit_cons]

theorem State.finish_of_complete {r : RuleEnd} {ws : List StagedWrite} (h : r.ending = .complete ws) (s : State) :
    s.finish r =
      { s with
        phase := .idle
        staged := none
        status := { s.status.count r.counted with done := true, errcode := 0#4 }
        slots := (s.commit ws).slots
        obuf := (s.commit ws).obuf
        outlen := (s.commit ws).outlen
        consumed := (s.commit ws).consumed } := by
  rw [State.finish, h]
  simp only [State.completeOk_frame, State.commit_withStatus]

/-! ## The obligations -/

/-- Settles O49: the rule's end is the same in both states, and what it commits is drawn from that end alone. -/
theorem commandsReadOnlyTheirOperands : Obligations.CommandsReadOnlyTheirOperands := by
  intro i s u s' u' hs hu hk hp hc hpt hct hi hst hs' hu'
  obtain ⟨-, ⟨-, hbuf, -⟩, -⟩ := hs.legal
  rw [exec_eq] at hs' hu'
  rw [← ruleOf_reads hk hp hc hpt hct hi] at hu'
  cases hs'
  cases hu'
  cases hend : (ruleOf i s).ending with
  | raise e =>
    rw [State.finish_of_raise hend, State.finish_of_raise hend, hst]
    exact ⟨rfl, fun hcode => absurd hcode e.code_ne_zero⟩
  | complete ws =>
    have hw : WritesOf i ws := ruleOf_writesOf hbuf hend
    rw [State.finish_of_complete hend, State.finish_of_complete hend, hst]
    refine ⟨rfl, fun _ => ⟨fun k hkw => State.commit_slot_agree ((hw.slots k).2 hkw) _ _, fun ho => ?_,
      fun hcons => State.commit_consumed_agree (hw.consumed.2 hcons) _ _⟩⟩
    obtain ⟨bytes, hbytes⟩ := hw.commit_bytes ho
    obtain ⟨hslen, hsread⟩ := hbytes s hs.obufForm
    obtain ⟨hulen, huread⟩ := hbytes u hu.obufForm
    refine ⟨BitVec.eq_of_toNat_eq (hslen.trans hulen.symm), fun a ha => ?_⟩
    have hlt : a < bytes.length := hslen ▸ ha
    refine (hsread a).trans (Eq.trans ?_ (huread a).symm)
    rw [List.getD_eq_getElem _ _ hlt, List.getD_eq_getElem _ _ hlt]

/-- Settles O48: an error commits nothing, and a success commits writes to the command's destinations. -/
theorem commandsWriteOnlyTheirDestinations : Obligations.CommandsWriteOnlyTheirDestinations := by
  intro i s t hs ht
  obtain ⟨-, ⟨-, hbuf, -⟩, -⟩ := hs.legal
  rw [exec_eq] at ht
  cases ht
  cases hend : (ruleOf i s).ending with
  | raise e =>
    rw [State.finish_of_raise hend]
    exact ⟨fun _ _ => rfl, fun _ => ⟨fun _ => rfl, rfl⟩, fun _ _ => rfl, fun _ => rfl, fun _ => rfl,
      rfl, rfl, rfl, rfl, rfl, rfl, rfl, rfl, rfl, rfl⟩
  | complete ws =>
    have hw : WritesOf i ws := ruleOf_writesOf hbuf hend
    rw [State.finish_of_complete hend]
    refine ⟨fun k hk => hw.commit_slot s hk, fun ho => ?_, fun a ha => hw.commit_obuf_above hs.obufForm ha,
      fun hc => hw.commit_consumed s hc, fun _ => rfl, rfl, rfl, rfl, rfl, rfl, rfl, rfl, rfl, rfl, rfl⟩
    obtain ⟨hobuf, houtlen⟩ := hw.commit_outs s ho
    exact ⟨fun a => congrArg (Memory.read · a) hobuf, houtlen⟩

end Sys2Proof.Machine
end

section
/-! SUPPORT. Accesses one by one: what an accepted read returns and what a write to a register stores (R20 to R29, R38,
R39, R42, R47). -/

namespace Sys2Proof

/-- R21: a legal block's word counts fit their half words. -/
theorem Params.word_toNat {p : Params} (h : p.legal) : p.word.toNat = p.w / 32 + 65536 * (p.bufBytes / 4) := by
  obtain ⟨⟨-, -, hw⟩, ⟨-, hbuf, -⟩, -⟩ := h
  rw [Params.word, BitVec.toNat_ofNat]
  omega

end Sys2Proof

namespace Sys2Proof.Machine

/-! ## The words of the registers -/

theorem State.ctrlWord_toNat (s : State) : s.ctrlWord.toNat = s.irqEn.toNat := by
  rw [State.ctrlWord, bitOf_eq, BitVec.toNat_ofNat]
  have := s.irqEn.toNat_lt
  omega

theorem State.statusWord_toNat (s : State) :
    s.statusWord.toNat =
      (decide (s.phase = .busy)).toNat + 2 * s.status.done.toNat + 4 * s.status.err.toNat +
        8 * s.status.wbusy.toNat + 16 * s.status.buserr.toNat + 256 * s.status.errcode.toNat +
        4096 * s.status.nmatches.toNat := by
  have hbusy : s.busy = decide (s.phase = .busy) := by rw [Bool.eq_iff_iff, State.busy_iff, decide_eq_true_eq]
  have hb := (decide (s.phase = .busy)).toNat_lt
  have hd := s.status.done.toNat_lt
  have he := s.status.err.toNat_lt
  have hw := s.status.wbusy.toNat_lt
  have hr := s.status.buserr.toNat_lt
  have hc := s.status.errcode.isLt
  have hn := s.status.nmatches.isLt
  simp only [State.statusWord, bitOf_eq, hbusy, BitVec.toNat_ofNat]
  omega

theorem Padcfg.word_toNat (c : Padcfg) : c.word.toNat = c.variant.toNat + 65536 * c.k.toNat := by
  have hv := c.variant.isLt
  have hk := c.k.isLt
  rw [Padcfg.word, BitVec.toNat_ofNat]
  omega

theorem halfWord_toNat (v : BitVec 16) : (halfWord v).toNat = v.toNat := by
  have hv := v.isLt
  rw [halfWord, BitVec.toNat_ofNat]
  omega

theorem lowHalf_toNat (v : Word) : (lowHalf v).toNat = v.toNat % 65536 := by
  rw [lowHalf, bits, BitVec.toNat_ofNat]
  omega

theorem Padcfg.ofWord_toNat (v : Word) :
    (Padcfg.ofWord v).variant.toNat = v.toNat % 4 ∧ (Padcfg.ofWord v).k.toNat = v.toNat / 65536 := by
  have hv := v.isLt
  simp only [Padcfg.ofWord, bits, BitVec.toNat_ofNat]
  omega

/-- R24: the write of STATUS, bit by bit. -/
theorem Status.w1c_eq (st : Status) (v : Word) :
    st.w1c v =
      { st with
        done := if v.toNat / 2 % 2 = 1 then false else st.done
        err := if v.toNat / 4 % 2 = 1 then false else st.err
        wbusy := if v.toNat / 8 % 2 = 1 then false else st.wbusy
        buserr := if v.toNat / 16 % 2 = 1 then false else st.buserr } := by
  have hclear : ∀ (flag : Bool) (i : Nat), (flag && !wordBit v i) = if v.toNat / 2 ^ i % 2 = 1 then false else flag := by
    intro flag i
    rw [wordBit_eq]
    split <;> simp_all
  rw [Status.w1c, hclear, hclear, hclear, hclear]
  norm_num

/-! ## One accepted access -/

/-- The step of an accepted read. -/
theorem step_presents_read (s : State) {off : Nat} (hoff : off < 0x10000) (h4 : off % 4 = 0) {t : Target}
    (ht : targetAt s.params off = some t) (rest : List Event) :
    step (s.presents off 4 .read rest) =
      .next { s with input := rest, reply := some (.readData (s.readTarget t) false) } := by
  rw [step_presents s hoff,
    State.accessAt_read { s with input := rest, reply := none } (s.params.base + off) h4 ht]
  cases t <;> rfl

/-- The step of an accepted write that the busy rule lets through. -/
theorem step_presents_write (s : State) {off : Nat} (hoff : off < 0x10000) (h4 : off % 4 = 0) {t : Target}
    (ht : targetAt s.params off = some t) (hr : t.readOnly = false) (hlive : s.phase = .idle ∨ t.writableBusy = true)
    (v : Word) (rest : List Event) :
    step (s.presents off 4 (.write v) rest) =
      .next { State.writeTarget { s with input := rest, reply := none } t v with reply := some (.writeDone false) } := by
  rw [step_presents s hoff,
    State.accessAt_write { s with input := rest, reply := none } (s.params.base + off) v h4 ht hr]
  obtain hi | hw := hlive
  · rw [State.writeUnlessBusy_idle (s := { s with input := rest, reply := none }) hi]
  · rw [State.writeUnlessBusy_live _ hw]

/-- Settles O22, from the step of an accepted write to an idle block. -/
theorem configurationRegistersStoreTheirFields : Obligations.ConfigurationRegistersStoreTheirFields := by
  intro s v rest hi
  refine ⟨⟨Padcfg.ofWord v, (Padcfg.ofWord_toNat v).1, (Padcfg.ofWord_toNat v).2, ?_⟩,
    ⟨lowHalf v, lowHalf_toNat v, ?_⟩, ⟨lowHalf v, lowHalf_toNat v, ?_⟩⟩
  · exact step_presents_write s (t := .padcfg) (by norm_num) rfl rfl rfl (.inl hi) v rest
  · exact step_presents_write s (t := .ptb) (by norm_num) rfl rfl rfl (.inl hi) v rest
  · exact step_presents_write s (t := .ctb) (by norm_num) rfl rfl rfl (.inl hi) v rest

/-- Settles O23: the busy rule lets the write of STATUS through, and it clears where the word has a 1. -/
theorem statusWritesClearTheirOnes : Obligations.StatusWritesClearTheirOnes := by
  intro s v rest
  rw [step_presents_write s (t := .status) (by norm_num) rfl rfl rfl (.inr rfl) v rest, ← Status.w1c_eq]
  rfl

/-- Settles O19: an accepted read is of the one word its offset names, and each word is its fields' sum. -/
theorem readsReturnTheMappedWordAndChangeNothing : Obligations.ReadsReturnTheMappedWordAndChangeNothing := by
  intro s off rest hs hoff hacc
  obtain ⟨⟨hw32, -⟩, ⟨-, hbuf, -⟩, -⟩ := hs.legal
  obtain ⟨-, href⟩ | ⟨t, hreach, -⟩ := reaches_cases hbuf hoff ⟨s.params.base + off, 4, .read⟩
  · exact absurd href hacc
  obtain ⟨-, h4, ht, -⟩ := reaches_some hreach
  have hword : ∀ u, targetAt s.params off = some u → s.readTarget t = s.readTarget u := fun u hu => by
    rw [Option.some.inj (ht.symm.trans hu)]
  have hinside : ¬ (0x4000 + s.params.bufBytes ≤ off ∧ off < 0x6000) ∧
      ¬ (0x6000 + s.params.bufBytes ≤ off ∧ off < 0x8000) := by
    unfold RefusedAccess at hacc
    omega
  refine ⟨s.readTarget t, step_presents_read s hoff h4 ht rest, ?_, ?_, ?_, ?_, ?_, ?_, ?_, ?_, ?_, ?_, ?_, ?_, ?_⟩
  · exact fun h => hword .id (h ▸ rfl)
  · exact fun h => hword .params (h ▸ rfl) ▸ Params.word_toNat hs.legal
  · exact fun h => hword .ctrl (h ▸ rfl) ▸ s.ctrlWord_toNat
  · exact fun h => hword .cmd (h ▸ rfl)
  · exact fun h => hword .status (h ▸ rfl) ▸ s.statusWord_toNat
  · exact fun h => hword .padcfg (h ▸ rfl) ▸ s.padcfg.word_toNat
  · exact fun h => hword .ptb (h ▸ rfl) ▸ halfWord_toNat s.ptb
  · exact fun h => hword .ctb (h ▸ rfl) ▸ halfWord_toNat s.ctb
  · exact fun h => hword .outlen (h ▸ rfl) ▸ halfWord_toNat s.outlen
  · exact fun h => hword .consumed (h ▸ rfl) ▸ halfWord_toNat s.consumed
  · exact fun j h hlt => hword (.ibuf j) (h ▸ targetAt_ibuf hbuf (by omega)) ▸ s.ibuf.word_toNat j
  · exact fun j h hlt => hword (.obuf j) (h ▸ targetAt_obuf hbuf (by omega)) ▸ s.obuf.word_toNat j
  · exact fun k i hi h => hword (.slot k i) (h ▸ targetAt_slot s.params k hi) ▸ slotWord_toNat hw32 (hs.slots k)

end Sys2Proof.Machine
end

section
/-! SUPPORT. What one step can do to DONE, IRQ_EN, OUTLEN and CONSUMED, and when IRQ and the result lengths change (R28,
R29, R32, R102, R112). -/

namespace Sys2Proof.Machine

/-- No result appears: OUTLEN and CONSUMED stay and DONE is not raised. -/
structure State.NoResult (s t : State) : Prop where
  outlen : t.outlen = s.outlen
  consumed : t.consumed = s.consumed
  done : t.status.done = true → s.status.done = true

/-! ## Host accesses -/

/-- CTRL is at offset 0x0008, whatever the parameters. -/
theorem targetAt_ctrl {p : Params} {off : Nat} (h : targetAt p off = some .ctrl) (h4 : off % 4 = 0) : off = 0x0008 := by
  rw [targetAt] at h
  split at h
  · split at h <;> cases h
    omega
  · split at h
    · split at h <;> cases h
    · split at h
      · split at h <;> cases h
      · split at h <;> cases h

/-- A write of SOFT_RESET resets the block; no other write brings a result, and only CTRL's sets IRQ_EN. -/
theorem State.writeTarget_cases (s : State) (t : Target) (v : Word) :
    s.writeTarget t v = s.resetBlock ∨
    (s.NoResult (s.writeTarget t v) ∧
      ((s.writeTarget t v).irqEn = s.irqEn ∨
        (t = .ctrl ∧ wordBit v 1 = false ∧ (s.writeTarget t v).irqEn = wordBit v 0))) := by
  cases t with
  | ctrl =>
    rw [State.writeTarget, State.writeCtrl]
    cases hv : wordBit v 1 with
    | true => exact .inl rfl
    | false => exact .inr ⟨⟨rfl, rfl, id⟩, .inr ⟨rfl, rfl, rfl⟩⟩
  | cmd => exact .inr ⟨⟨rfl, rfl, nofun⟩, .inl rfl⟩
  | status => exact .inr ⟨⟨rfl, rfl, fun hd => (Bool.and_eq_true_iff.1 hd).1⟩, .inl rfl⟩
  | id | params | padcfg | ptb | ctb | outlen | consumed | ibuf | obuf | slot => exact .inr ⟨⟨rfl, rfl, id⟩, .inl rfl⟩

/-- Serving an access resets the block, or it brings no result, and only a write of CTRL sets IRQ_EN. -/
theorem serveAccess_effect {s t : State} {a : Access} (h : serveAccess a s = .next t) :
    t = { State.resetWith s.params with input := t.input, reply := t.reply } ∨
    (s.NoResult t ∧
      (t.irqEn = s.irqEn ∨
        ∃ v, a = ⟨s.params.base + 0x0008, 4, .write v⟩ ∧ wordBit v 1 = false ∧ t.irqEn = wordBit v 0)) := by
  obtain ⟨-, hs⟩ | ⟨off, hoff, ⟨-, hs⟩ | ⟨tgt, hreach, ⟨-, hs⟩ | ⟨v, hdir, hs⟩⟩⟩ := serveAccess_cases s a <;>
    rw [hs] at h <;> cases h
  · exact .inr ⟨⟨rfl, rfl, id⟩, .inl rfl⟩
  · exact .inr ⟨⟨rfl, rfl, id⟩, .inl rfl⟩
  · rw [State.writeUnlessBusy]
    split
    · exact .inr ⟨⟨rfl, rfl, id⟩, .inl rfl⟩
    · obtain hreset | ⟨hno, hirq | ⟨rfl, hbit, hirq⟩⟩ := s.writeTarget_cases tgt v
      · rw [hreset]
        exact .inl rfl
      · exact .inr ⟨{ hno with }, .inl hirq⟩
      · refine .inr ⟨{ hno with }, .inr ⟨v, ?_, hbit, hirq⟩⟩
        obtain ⟨hsize, h4, htgt, -⟩ := reaches_some hreach
        have haddr : a.addr = s.params.base + 0x0008 := by
          have := targetAt_ctrl htgt h4
          rw [windowOffset] at hoff
          split at hoff <;> cases hoff
          omega
        obtain ⟨addr, size, dir⟩ := a
        cases haddr
        cases hsize
        cases hdir
        rfl

/-! ## One step -/

/-- Running the rule brings no result: it stages the rule's end and shows its count. -/
theorem executeTurn_effect (s : State) : s.NoResult (executeTurn s) ∧ (executeTurn s).irqEn = s.irqEn := by
  rw [executeTurn]
  split <;> exact ⟨⟨rfl, rfl, id⟩, rfl⟩

/-- A completion turn ends the running command, or the engine is idle and nothing changes. -/
theorem completeTurn_effect {s t : State} (h : completeTurn s = .next t) :
    (s.phase = .busy ∧ t = s.finish (s.staged.getD (wordRule s.cmd s))) ∨ t = s := by
  cases hp : s.phase with
  | busy =>
    rw [completeTurn_busy hp] at h
    cases h
    exact .inl ⟨rfl, rfl⟩
  | idle =>
    rw [completeTurn_idle hp] at h
    cases h
    exact .inr rfl

/-- Everything a step can do to the results: the engine completes the running command, the block is reset, or no result
appears; IRQ_EN changes only there at a write of CTRL with SOFT_RESET clear. -/
theorem step_effect {s t : State} (h : step s = .next t) :
    (s.EngineTurn ∧ s.phase = .busy ∧ ∃ input, t =
      State.finish { s with input := input, reply := none } (s.staged.getD (wordRule s.cmd s))) ∨
    t = { State.resetWith s.params with input := t.input, reply := t.reply } ∨
    (s.NoResult t ∧
      (t.irqEn = s.irqEn ∨
        ∃ v rest, s.input = .bus ⟨s.params.base + 0x0008, 4, .write v⟩ :: rest ∧ wordBit v 1 = false ∧
          t.irqEn = wordBit v 0)) := by
  obtain ⟨hin, hs⟩ | ⟨e, rest, hin, hs⟩ := step_cases s <;> rw [hs] at h
  · obtain ⟨hb, ht⟩ | rfl := completeTurn_effect h
    · refine .inl ⟨.inl hin, hb, s.input, ht.trans (congrArg _ (congrArg _ ?_))⟩
      exact wordRule_congr rfl rfl rfl rfl rfl rfl _
    · exact .inr (.inr ⟨⟨rfl, rfl, id⟩, .inl rfl⟩)
  · cases e with
    | bus a =>
      obtain hreset | ⟨hno, hirq | ⟨v, rfl, hbit, hirq⟩⟩ := serveAccess_effect h
      · exact .inr (.inl hreset)
      · exact .inr (.inr ⟨{ hno with }, .inl hirq⟩)
      · exact .inr (.inr ⟨{ hno with }, .inr ⟨v, rest, hin, hbit, hirq⟩⟩)
    | execute =>
      cases h
      obtain ⟨hno, hirq⟩ := executeTurn_effect { s with input := rest, reply := none }
      exact .inr (.inr ⟨{ hno with }, .inl hirq⟩)
    | complete =>
      obtain ⟨hb, ht⟩ | rfl := completeTurn_effect h
      · refine .inl ⟨.inr ⟨rest, hin⟩, hb, rest, ht.trans (congrArg _ (congrArg _ ?_))⟩
        exact wordRule_congr rfl rfl rfl rfl rfl rfl _
      · exact .inr (.inr ⟨⟨rfl, rfl, id⟩, .inl rfl⟩)
    | resetInput =>
      cases h
      exact .inr (.inl rfl)

/-- Settles O24: IRQ rises with DONE, at a completion, or with IRQ_EN, at a write of CTRL. -/
theorem interruptRisesOnlyAtCompletionOrEnable : Obligations.InterruptRisesOnlyAtCompletionOrEnable := by
  intro s t h hlow hhigh
  obtain ⟨hdone, hen⟩ := Bool.and_eq_true_iff.1 hhigh
  obtain ⟨hturn, hb, input, rfl⟩ | hreset | ⟨hno, hirq⟩ := step_effect h
  · rw [State.finish_frame] at hen ⊢
    exact .inl ⟨hb, rfl, hen, hturn⟩
  · rw [hreset] at hen
    cases hen
  · have hstanding := hno.done hdone
    have hoff : s.irqEn = false := by simpa [State.irq, hstanding] using hlow
    obtain hkept | ⟨v, rest, hin, hbit1, hbit0⟩ := hirq
    · rw [hkept, hoff] at hen
      cases hen
    · rw [hen, wordBit_eq] at hbit0
      rw [wordBit_eq] at hbit1
      refine .inr ⟨hstanding, v, rest, hin, ?_, ?_⟩
      · simpa using hbit0.symm
      · simpa using hbit1

/-- What a running command will commit is the rule of the accepted word, run now or before (R53). -/
theorem State.Inv.end_eq {s : State} (h : s.Inv) : s.staged.getD (wordRule s.cmd s) = wordRule s.cmd s := by
  cases hst : s.staged with
  | none => rfl
  | some r => exact (h.stagedRule r hst).1

/-- A completion with an error code leaves OUTLEN and CONSUMED (R97). -/
theorem State.finish_lengths_of_error {s : State} {r : RuleEnd} (h : (s.finish r).status.errcode ≠ 0#4) :
    (s.finish r).outlen = s.outlen ∧ (s.finish r).consumed = s.consumed := by
  cases hend : r.ending with
  | raise e =>
    rw [State.finish_of_raise hend]
    exact ⟨rfl, rfl⟩
  | complete ws =>
    rw [State.finish_of_complete hend] at h
    exact absurd rfl h

/-- A completion leaves OUTLEN and CONSUMED, or it is the success of a command and changes only those it writes. -/
theorem State.Inv.finish_lengths {s : State} (h : s.Inv) :
    ((s.finish (wordRule s.cmd s)).outlen = s.outlen ∧ (s.finish (wordRule s.cmd s)).consumed = s.consumed) ∨
    ((s.finish (wordRule s.cmd s)).status.errcode = 0#4 ∧ ∃ i, decode s.cmd = .instr i ∧
      (writesObuf i = false → (s.finish (wordRule s.cmd s)).outlen = s.outlen) ∧
      (writesConsumed i = false → (s.finish (wordRule s.cmd s)).consumed = s.consumed)) := by
  by_cases hcode : (s.finish (wordRule s.cmd s)).status.errcode = 0#4
  · cases hd : decode s.cmd with
    | illegal r =>
      rw [wordRule_of_illegal hd]
      exact .inl ⟨rfl, rfl⟩
    | instr i =>
      obtain ⟨-, hout, -, hcons, -⟩ := commandsWriteOnlyTheirDestinations i s _ h (exec_eq i s)
      refine .inr ⟨hcode, i, rfl, ?_⟩
      rw [wordRule_of_decode hd]
      exact ⟨fun hi => (hout hi).2, hcons⟩
  · exact .inl (State.finish_lengths_of_error hcode)

/-- Settles O51: without a reset the lengths change only at a completion, and there as the command's destinations. -/
theorem resultLengthsChangeOnlyAtTheirCommits : Obligations.ResultLengthsChangeOnlyAtTheirCommits := by
  intro s t hs h
  obtain ⟨-, hb, input, rfl⟩ | hreset | ⟨hno, -⟩ := step_effect h
  · rw [hs.end_eq]
    have hidle : (State.finish { s with input := input, reply := none } (wordRule s.cmd s)).phase = .idle := by
      rw [State.finish_frame]
    obtain ⟨hout, hcons⟩ | ⟨hcode, i, hd, hout, hcons⟩ := (hs.of_outside input none).finish_lengths
    · exact ⟨fun hne => absurd hout hne, fun hne => absurd hcons hne⟩
    · exact ⟨fun hne => .inl ⟨hb, hidle, hcode, i, hd, Bool.eq_true_of_not_eq_false fun hi => hne (hout hi)⟩,
        fun hne => .inl ⟨hb, hidle, hcode, i, hd, Bool.eq_true_of_not_eq_false fun hi => hne (hcons hi)⟩⟩
  · exact ⟨fun _ => .inr hreset, fun _ => .inr hreset⟩
  · exact ⟨fun hne => absurd hno.outlen hne, fun hne => absurd hno.consumed hne⟩

end Sys2Proof.Machine
end

section
/-! SUPPORT. When the machine stops, and one bus access at a time: refused, ignored while busy, or a word of a slot or of
a buffer read or written (R36, R38, R39, R43, R47). -/

namespace Sys2Proof

/-- R10: byte i of a byte string is the digit of its weight. -/
theorem beBytes_getD_toNat (v : Nat) {len i : Nat} (hi : i < len) (d : Byte) :
    ((beBytes v len).getD i d).toNat = v / 256 ^ (len - 1 - i) % 256 := by
  induction len generalizing i with
  | zero => omega
  | succ n ih =>
    cases i with
    | zero => rw [beBytes, List.getD_cons_zero, BitVec.toNat_ofNat]; rfl
    | succ i =>
      rw [beBytes, List.getD_cons_succ, ih (by omega)]
      congr 3
      omega

end Sys2Proof

namespace Sys2Proof.Machine

/-! ## When the machine stops (R36, R98) -/

theorem windowOffset_eq_none_iff (p : Params) (addr : Nat) :
    windowOffset p addr = none ↔ addr < p.base ∨ p.base + 0x10000 ≤ addr := by
  rw [windowOffset]
  split
  · next h => exact iff_of_false nofun (by omega)
  · next h => exact iff_of_true rfl (by omega)

/-- The engine's completion turn always ends in a next state. -/
theorem completeTurn_next (s : State) : ∃ t, completeTurn s = .next t := by
  cases h : s.phase with
  | idle => exact ⟨_, completeTurn_idle h⟩
  | busy => exact ⟨_, completeTurn_busy h⟩

/-- Serving an access stops outside the window and ends in a next state inside it. -/
theorem serveAccess_next {s : State} {a : Access} (h : windowOffset s.params a.addr ≠ none) :
    ∃ t, serveAccess a s = .next t := by
  obtain ⟨hout, -⟩ | ⟨off, -, ⟨-, hs⟩ | ⟨tgt, -, ⟨-, hs⟩ | ⟨v, -, hs⟩⟩⟩ := serveAccess_cases s a
  · exact absurd hout h
  all_goals exact ⟨_, hs⟩

/-- How a step can end: it stops at an access outside the window, or it ends in a next state and no such access is next. -/
theorem step_ends (s : State) :
    (∃ a rest, s.input = .bus a :: rest ∧ windowOffset s.params a.addr = none ∧
      step s = .fault (.outsideWindow a.addr)) ∨
    ((∃ t, step s = .next t) ∧ ∀ a rest, s.input = .bus a :: rest → windowOffset s.params a.addr ≠ none) := by
  obtain ⟨hin, hs⟩ | ⟨e, rest, hin, hs⟩ := step_cases s <;> rw [hin, hs]
  · exact .inr ⟨completeTurn_next _, nofun⟩
  · cases e with
    | bus a =>
      by_cases hout : windowOffset s.params a.addr = none
      · refine .inl ⟨a, rest, rfl, hout, ?_⟩
        simp only [serve, serveAccess, hout]
      · refine .inr ⟨serveAccess_next (s := { s with input := rest, reply := none }) hout, ?_⟩
        rintro _ _ ⟨⟩
        exact hout
    | execute => exact .inr ⟨⟨_, rfl⟩, nofun⟩
    | complete => exact .inr ⟨completeTurn_next _, nofun⟩
    | resetInput => exact .inr ⟨⟨_, rfl⟩, nofun⟩

/-- Settles O10: of the two ways a step can end, only the access outside the window is a fault. -/
theorem stepStopsOnlyOutsideTheWindow : Obligations.StepStopsOnlyOutsideTheWindow := by
  intro s
  simp only [← windowOffset_eq_none_iff]
  obtain ⟨a, rest, hin, hout, hs⟩ | ⟨⟨t, hs⟩, hinside⟩ := step_ends s <;> rw [hs]
  · refine ⟨nofun, fun f => ⟨?_, ?_⟩⟩
    · rintro ⟨⟩
      exact ⟨a, rest, hin, rfl, hout⟩
    · rintro ⟨b, rest', hin', rfl, -⟩
      cases hin.symm.trans hin'
      rfl
  · refine ⟨nofun, fun f => ⟨nofun, ?_⟩⟩
    rintro ⟨a, rest, hin, -, hout⟩
    exact absurd hout (hinside a rest hin)

/-! ## Refused and accepted accesses (R43, R47) -/

/-- The step of a refused access. -/
theorem step_presents_refused {s : State} (hbuf : s.params.bufBytes ≤ 8192) {off size : Nat} {dir : Dir}
    (hoff : off < 0x10000) (href : RefusedAccess s.params off ⟨s.params.base + off, size, dir⟩) (rest : List Event) :
    step (s.presents off size dir rest) =
      .next
        { s with
          input := rest
          reply := some (refusalAnswer s.params dir)
          status := { s.status with buserr := true } } := by
  obtain ⟨hnone, -⟩ | ⟨t, -, hacc⟩ := reaches_cases hbuf hoff ⟨s.params.base + off, size, dir⟩
  · rw [step_presents s hoff, State.accessAt_refused (s := { s with input := rest, reply := none }) hnone]
    cases dir <;> rfl
  · exact absurd href hacc

/-- An access that is not refused is a word access to one mapped word, to a writable one if it is a write. -/
theorem mapped_of_not_refused {p : Params} (hbuf : p.bufBytes ≤ 8192) {off addr size : Nat} {dir : Dir}
    (hoff : off < 0x10000) (hacc : ¬ RefusedAccess p off ⟨addr, size, dir⟩) :
    size = 4 ∧ off % 4 = 0 ∧ ∃ t, targetAt p off = some t ∧ (∀ v, dir = .write v → t.readOnly = false) ∧
      (t.writableBusy = true ↔ off = 0x0008 ∨ off = 0x0010) := by
  obtain ⟨-, href⟩ | ⟨t, hreach, -⟩ := reaches_cases hbuf hoff ⟨addr, size, dir⟩
  · exact absurd href hacc
  obtain ⟨hsize, h4, ht, hro⟩ := reaches_some hreach
  obtain ⟨hnone, -⟩ | ⟨u, hu, -, -, -, hlive⟩ := targetAt_cases p hoff h4 hbuf
  · rw [ht] at hnone
    cases hnone
  · cases ht.symm.trans hu
    exact ⟨hsize, h4, t, ht, hro, hlive⟩

/-- The step of an accepted write, before the busy rule is applied. -/
theorem step_presents_writeUnlessBusy (s : State) {off : Nat} (hoff : off < 0x10000) (h4 : off % 4 = 0) {t : Target}
    (ht : targetAt s.params off = some t) (hr : t.readOnly = false) (v : Word) (rest : List Event) :
    step (s.presents off 4 (.write v) rest) =
      .next
        { State.writeUnlessBusy { s with input := rest, reply := none } t v with reply := some (.writeDone false) } := by
  rw [step_presents s hoff,
    State.accessAt_write { s with input := rest, reply := none } (s.params.base + off) v h4 ht hr]

/-- No accepted write sets BUSERR. -/
theorem State.writeUnlessBusy_buserr {s : State} {t : Target} {v : Word}
    (h : (s.writeUnlessBusy t v).status.buserr = true) : s.status.buserr = true := by
  rw [State.writeUnlessBusy] at h
  split at h
  · exact h
  · cases t with
    | ctrl =>
      rw [State.writeTarget, State.writeCtrl] at h
      split at h
      · cases h
      · exact h
    | status => exact (Bool.and_eq_true_iff.1 h).1
    | id | params | cmd | padcfg | ptb | ctb | outlen | consumed | ibuf | obuf | slot => exact h

/-- Settles O17: `reaches` refuses what R43 lists, and neither a read nor an accepted write sets BUSERR. -/
theorem refusedAccessesSetBuserrOnly : Obligations.RefusedAccessesSetBuserrOnly := by
  intro s off size dir rest hlegal hoff
  obtain ⟨-, ⟨-, hbuf, -⟩, -⟩ := hlegal
  refine ⟨fun href => step_presents_refused hbuf hoff href rest, fun hacc => ?_⟩
  obtain ⟨rfl, h4, t, ht, hro, -⟩ := mapped_of_not_refused hbuf hoff hacc
  cases dir with
  | read => exact ⟨_, step_presents_read s hoff h4 ht rest, id, .inl ⟨_, rfl⟩⟩
  | write v =>
    exact ⟨_, step_presents_writeUnlessBusy s hoff h4 ht (hro v rfl) v rest, State.writeUnlessBusy_buserr, .inr rfl⟩

/-- A write of CTRL acts alike idle and busy, but that only SOFT_RESET ends a running command (R22, R92). -/
theorem State.writeCtrl_eq_idle (s : State) (v : Word) :
    s.writeCtrl v =
      { State.writeCtrl { s with phase := .idle } v with phase := if v.toNat / 2 % 2 = 1 then .idle else s.phase } := by
  have hbit : wordBit v 1 = true ↔ v.toNat / 2 % 2 = 1 := by rw [wordBit_eq, decide_eq_true_eq, pow_one]
  simp only [State.writeCtrl, hbit]
  split <;> rfl

/-- Settles O18: the busy rule lets writes of CTRL and STATUS through as when idle and ignores the others with WBUSY. -/
theorem busyWritesAreIgnoredWithWbusy : Obligations.BusyWritesAreIgnoredWithWbusy := by
  intro s off size dir rest hlegal hoff hbusy
  obtain ⟨-, ⟨-, hbuf, -⟩, -⟩ := hlegal
  refine ⟨fun hacc => ?_, fun href => ⟨_, step_presents_refused hbuf hoff href rest, rfl, rfl⟩⟩
  obtain ⟨rfl, h4, t, ht, hro, hlive⟩ := mapped_of_not_refused hbuf hoff hacc
  refine ⟨?_, ?_, ?_⟩
  · rintro v rfl hctrl hstatus
    have hignored : t.writableBusy = false := Bool.eq_false_of_not_eq_true fun h => (hlive.1 h).elim hctrl hstatus
    rw [step_presents_writeUnlessBusy s hoff h4 ht (hro v rfl),
      State.writeUnlessBusy_busy (s := { s with input := rest, reply := none }) hbusy hignored]
  · rintro v rfl (rfl | rfl)
    · rw [step_presents_write s (t := .ctrl) hoff rfl rfl rfl (.inr rfl),
        step_presents_write { s with phase := .idle } (t := .ctrl) hoff rfl rfl rfl (.inr rfl)]
      simp only [State.writeTarget, true_and]
      rw [State.writeCtrl_eq_idle, hbusy]
    · rw [step_presents_write s (t := .status) hoff rfl rfl rfl (.inr rfl),
        step_presents_write { s with phase := .idle } (t := .status) hoff rfl rfl rfl (.inr rfl), ← hbusy]
      rfl
  · rintro rfl
    exact ⟨_, step_presents_read s hoff h4 ht rest⟩

/-! ## Slot words (R38) -/

/-- A word write changes that word alone, and none at or above word W/32. -/
theorem setSlotWord_digit (w v i : Nat) (x : Word) (j : Nat) :
    setSlotWord w v i x / 2 ^ (32 * j) % 2 ^ 32 =
      if j = i ∧ i < w / 32 then x.toNat else v / 2 ^ (32 * j) % 2 ^ 32 := by
  by_cases hi : i < w / 32
  · simp only [setSlotWord_word x hi, hi, and_true]
  · rw [setSlotWord_ignored x hi, if_neg fun h => hi h.2]

theorem slotWord_above {w i : Nat} (hi : w / 32 ≤ i) (v : Nat) : slotWord w v i = 0x00000000#32 := by
  rw [slotWord, if_neg (by omega)]

/-- A slot's value is the sum of its words. -/
theorem slot_eq_sum_words {w v : Nat} (hw : w % 32 = 0) (hv : v < 2 ^ w) :
    v = ∑ j ∈ Finset.range (w / 32), v / 2 ^ (32 * j) % 2 ^ 32 * 2 ^ (32 * j) := by
  have hpow : (2 ^ 32) ^ (w / 32) = 2 ^ w := by rw [← pow_mul, Nat.mul_div_cancel' (Nat.dvd_of_mod_eq_zero hw)]
  have hsum := digit_sum (2 ^ 32) v (w / 32)
  rw [hpow, Nat.mod_eq_of_lt hv] at hsum
  simpa only [pow_mul] using hsum

/-- Settles O20: each slot word is at its own offset, and replacing one word replaces one digit of the slot. -/
theorem slotWordsAreTheSlotValue : Obligations.SlotWordsAreTheSlotValue := by
  intro s hs hidle k i v rest hi
  obtain ⟨⟨hw, -⟩, -, -⟩ := hs.legal
  have hk := k.number_lt
  have hoff : 0x8000 + 0x400 * k.number + 4 * i < 0x10000 := by omega
  have h4 : (0x8000 + 0x400 * k.number + 4 * i) % 4 = 0 := by omega
  have ht := targetAt_slot s.params k hi
  refine ⟨⟨_, step_presents_write s hoff h4 ht rfl (.inl hidle) v rest, rfl, fun l hl => ?_, fun j => ?_, fun habove => ?_⟩,
    ⟨_, step_presents_read s hoff h4 ht rest, slotWord_toNat hw (hs.slots k), fun habove => slotWord_above habove _⟩,
    slot_eq_sum_words hw (hs.slots k)⟩
  · exact Slots.get_set_of_ne s.slots _ hl
  · exact (congrArg (· / 2 ^ (32 * j) % 2 ^ 32) (Slots.get_set_self s.slots k _)).trans (setSlotWord_digit _ _ i v j)
  · exact (Slots.get_set_self s.slots k _).trans (setSlotWord_ignored v (Nat.not_lt.2 habove))

/-! ## Buffer words (R39) -/

/-- The four lanes of a buffer word. -/
theorem Memory.word_lanes (mem : Memory) (j : Nat) :
    (mem.word j).toNat / 2 ^ 24 % 256 = (mem.read (4 * j)).toNat ∧
      (mem.word j).toNat / 2 ^ 16 % 256 = (mem.read (4 * j + 1)).toNat ∧
      (mem.word j).toNat / 2 ^ 8 % 256 = (mem.read (4 * j + 2)).toNat ∧
      (mem.word j).toNat % 256 = (mem.read (4 * j + 3)).toNat := by
  have h0 := (mem.read (4 * j)).isLt
  have h1 := (mem.read (4 * j + 1)).isLt
  have h2 := (mem.read (4 * j + 2)).isLt
  have h3 := (mem.read (4 * j + 3)).isLt
  rw [Memory.word_toNat]
  omega

/-- Lane c of a written word goes to byte 4j + c. -/
theorem Memory.read_setWord_lane {mem : Memory} (h : mem.wf = true) (j : Nat) (v : Word) (c : Nat) (hc : c < 4) :
    ((mem.setWord j v).read (4 * j + c)).toNat = v.toNat / 256 ^ (3 - c) % 256 := by
  rw [Memory.setWord, Memory.read_writeBytes h, if_pos (Nat.le_add_right _ _), Nat.add_sub_cancel_left,
    beBytes_getD_toNat _ hc]

/-- A word write leaves every byte outside its four. -/
theorem Memory.read_setWord_outside {mem : Memory} (h : mem.wf = true) {j a : Nat} (ha : a < 4 * j ∨ 4 * j + 3 < a)
    (v : Word) : (mem.setWord j v).read a = mem.read a :=
  Memory.read_writeBytes_outside h (by rw [beBytes_length]; omega)

/-- Settles O21: a buffer word is at its own offset, and its lanes are the bytes of the word's big-endian string. -/
theorem bufferWordsAreBigEndianLanes : Obligations.BufferWordsAreBigEndianLanes := by
  intro s hs hidle j v rest hj
  obtain ⟨-, ⟨-, hbuf, -⟩, -⟩ := hs.legal
  have hibuf := targetAt_ibuf hbuf hj
  have hoff : 0x4000 + 4 * j < 0x10000 := by omega
  have h4 : (0x4000 + 4 * j) % 4 = 0 := by omega
  have hlane := Memory.read_setWord_lane hs.ibufForm j v
  refine ⟨⟨_, step_presents_write s hoff h4 hibuf rfl (.inl hidle) v rest, rfl, ?_, ?_, ?_, ?_, fun a ha => ?_⟩,
    ⟨_, step_presents_read s hoff h4 hibuf rest, s.ibuf.word_lanes j⟩,
    ⟨_, step_presents_read s (by omega) (by omega) (targetAt_obuf hbuf hj) rest, s.obuf.word_lanes j⟩⟩
  · exact hlane 0 (by norm_num)
  · exact hlane 1 (by norm_num)
  · exact hlane 2 (by norm_num)
  · exact (hlane 3 (by norm_num)).trans (by norm_num)
  · exact Memory.read_setWord_outside hs.ibufForm ha v

end Sys2Proof.Machine
end

section
/-! SUPPORT. The decoder by the numbers of a word's fields: the words of each command and the illegal words (R54 to
R57). -/

namespace Sys2Proof

/-! ## The words of a command (R54 to R56) -/

/-- The decoder by the three fields of the word. -/
theorem decode_eq_instr_iff_toNat (w : Word) (i : Instr) :
    decode w = .instr i ↔ w.toNat / 256 % 256 = 0 ∧ w.toNat % 256 = i.opcode ∧ w.toNat / 65536 = i.len := by
  rw [decode_eq_instr_iff, rsvField_eq, opField_eq, lenField_eq]

theorem Instr.len_of_not_usesLen {i : Instr} (h : i.usesLen = false) : i.len = 0 :=
  (commandOf_some (commandOf_opcode i)).2.2 h

theorem Instr.matchWord_toNat (i : Instr) : i.matchWord.toNat = i.opcode := by
  have := i.opcode_le
  rw [Instr.matchWord, BitVec.toNat_ofNat]
  omega

/-- R56: the low half of the word is OP, and the high half is the count. -/
theorem decode_iff_halves (w : Word) (i : Instr) :
    decode w = .instr i ↔ w &&& 0x0000FFFF#32 = i.matchWord ∧ i.len = w.toNat / 2 ^ 16 := by
  have := i.opcode_le
  rw [decode_eq_instr_iff_toNat, ← BitVec.toNat_inj, Laws.EncodeShape.low_half, i.matchWord_toNat]
  omega

/-- R56 where LEN is not used: the whole word is OP. -/
theorem decode_iff_of_not_usesLen (w : Word) {i : Instr} (h : i.usesLen = false) :
    decode w = .instr i ↔ w &&& 0xFFFFFFFF#32 = i.matchWord := by
  have hmask : w &&& 0xFFFFFFFF#32 = w := BitVec.and_allOnes
  have := i.opcode_le
  rw [decode_eq_instr_iff_toNat, hmask, ← BitVec.toNat_inj, i.matchWord_toNat, Instr.len_of_not_usesLen h]
  omega

/-- Settles O1: the fields of the encoded word are the command's. -/
theorem decodeOfEncodeIsTheInstruction : Obligations.DecodeOfEncodeIsTheInstruction := fun i h =>
  (decode_eq_instr_iff _ i).2 ⟨rsvField_encode h, opField_encode h, lenField_encode h⟩

/-- Settles O2, one row of the opcode map at a time, from the two forms of the (match, mask) pair. -/
theorem opcodeMapIsExact : Obligations.OpcodeMapIsExact := fun w =>
  ⟨decode_iff_of_not_usesLen w rfl, decode_iff_of_not_usesLen w rfl, decode_iff_of_not_usesLen w rfl,
    decode_iff_of_not_usesLen w rfl, decode_iff_of_not_usesLen w rfl, decode_iff_of_not_usesLen w rfl,
    decode_iff_of_not_usesLen w rfl, decode_iff_of_not_usesLen w rfl, decode_iff_of_not_usesLen w rfl,
    fun len => decode_iff_halves w (.encblk len), fun len => decode_iff_halves w (.decblk len),
    decode_iff_of_not_usesLen w rfl, fun len => decode_iff_halves w (.hdrParse len)⟩

/-- Settles O4: the decoder evaluates each of the seven words. -/
theorem writtenOutWordsDecode : Obligations.WrittenOutWordsDecode := ⟨rfl, rfl, rfl, rfl, rfl, rfl, rfl⟩

/-! ## The illegal words (R57) -/

theorem Instr.usesLen_iff (i : Instr) :
    i.usesLen = true ↔ i.opcode = 0x09 ∨ i.opcode = 0x0A ∨ i.opcode = 0x0C := by
  cases i <;> simp [Instr.usesLen, Instr.opcode]

theorem exists_commandOf {op : Nat} (h : op < 13) (len : Nat) : ∃ i, commandOf op len = some i := by
  interval_cases op <;> exact ⟨_, rfl⟩

/-- A command has an OP and a LEN exactly when OP is assigned and LEN is 0 where it is not used. -/
theorem exists_instr_iff (op len : Nat) :
    (∃ i : Instr, i.opcode = op ∧ i.len = len) ↔ op < 13 ∧ (len = 0 ∨ op = 0x09 ∨ op = 0x0A ∨ op = 0x0C) := by
  constructor
  · rintro ⟨i, rfl, rfl⟩
    refine ⟨Nat.lt_succ_of_le i.opcode_le, ?_⟩
    cases hu : i.usesLen with
    | true => exact .inr (i.usesLen_iff.1 hu)
    | false => exact .inl (Instr.len_of_not_usesLen hu)
  · rintro ⟨hop, hlen⟩
    obtain ⟨i, hi⟩ := exists_commandOf hop len
    obtain ⟨rfl, hused, hunused⟩ := commandOf_some hi
    refine ⟨i, rfl, ?_⟩
    cases hu : i.usesLen with
    | true => exact hused hu
    | false =>
      obtain hzero | hop := hlen
      · rw [hunused hu, hzero]
      · simp [i.usesLen_iff.2 hop] at hu

/-- Which words are illegal: an unassigned OP, a reserved bit set, or a LEN where none is used. -/
theorem decode_illegal_iff_toNat (w : Word) :
    (∃ r, decode w = .illegal r) ↔
      0x0D ≤ w.toNat % 256 ∨ w.toNat / 256 % 256 ≠ 0 ∨
        (w.toNat / 65536 ≠ 0 ∧ w.toNat % 256 ≠ 0x09 ∧ w.toNat % 256 ≠ 0x0A ∧ w.toNat % 256 ≠ 0x0C) := by
  have hlegal : (∃ i, decode w = .instr i) ↔
      w.toNat / 256 % 256 = 0 ∧ ∃ i : Instr, i.opcode = w.toNat % 256 ∧ i.len = w.toNat / 65536 := by
    simp only [decode_eq_instr_iff_toNat, exists_and_left, eq_comm]
  rw [decode_illegal_iff, ← not_exists, hlegal, exists_instr_iff]
  omega

end Sys2Proof
end

section
/-! SUPPORT. The engine's turns: issue by a CMD write, the completion step, what accesses served meanwhile leave alone,
and the accesses of `LDS` (R45, R47, R51 to R53, R58). -/

namespace Sys2Proof.Machine

/-! ## Issue and the engine's turn (R51, R52, R57) -/

/-- A rule does not read the schedule or the bus answer. -/
theorem wordRule_outside (w : Word) (s : State) (input : List Event) (reply : Option Reply) :
    wordRule w { s with input := input, reply := reply } = wordRule w s :=
  wordRule_congr rfl rfl rfl rfl rfl rfl w

/-- At the engine's turn a running command ends as its rule, run now or before, says. -/
theorem step_engineTurn {s : State} (hturn : s.EngineTurn) (hb : s.phase = .busy) :
    step s =
      .next (State.finish { s with input := s.input.tail, reply := none } (s.staged.getD (wordRule s.cmd s))) := by
  have hcomplete : ∀ input, completeTurn { s with input := input, reply := none } =
      .next (State.finish { s with input := input, reply := none } (s.staged.getD (wordRule s.cmd s))) := by
    intro input
    rw [completeTurn_busy (s := { s with input := input, reply := none }) hb, wordRule_outside]
  obtain hin | ⟨rest, hin⟩ := hturn
  · rw [step, hin, List.tail_nil, ← hcomplete]
  · rw [step, hin, List.tail_cons, ← hcomplete]
    rfl

/-- At the engine's turn an accepted command whose rule has not run has its whole effect. -/
theorem step_engineTurn_exec {s : State} (hturn : s.EngineTurn) (hb : s.phase = .busy) (hst : s.staged = none)
    {i : Instr} (hd : decode s.cmd = .instr i) : step s = exec i { s with input := s.input.tail, reply := none } := by
  have hend : s.staged.getD (wordRule s.cmd s) = wordRule s.cmd s := by rw [hst, Option.getD_none]
  have hrule : wordRule s.cmd s = ruleOf i { s with input := s.input.tail, reply := none } :=
    (wordRule_of_decode hd s).trans (ruleOf_congr rfl rfl rfl rfl rfl rfl i)
  rw [step_engineTurn hturn hb, hend, hrule, exec_eq]

/-- Settles O5: both forms of the engine's turn. -/
theorem stepRunsTheAcceptedCommand : Obligations.StepRunsTheAcceptedCommand := by
  intro s i hb hst hd
  refine ⟨fun hin => ?_, fun rest hin => ?_⟩
  · rw [step_engineTurn_exec (.inl hin) hb hst hd, hin, List.tail_nil, ← hin]
  · rw [step_engineTurn_exec (.inr ⟨rest, hin⟩) hb hst hd, hin, List.tail_cons]

/-- A CMD write to an idle block issues the word. -/
theorem step_cmdWrite {s : State} (hidle : s.phase = .idle) (v : Word) (rest : List Event) :
    step (s.presents 0x000C 4 (.write v) rest) =
      .next { s.issue v with input := rest, reply := some (.writeDone false) } :=
  step_presents_write s (t := .cmd) (by norm_num) rfl rfl rfl (.inl hidle) v rest

/-- Settles O6, from the step of a CMD write and from O5. -/
theorem cmdWriteIssuesTheCommand : Obligations.CmdWriteIssuesTheCommand := by
  intro s v rest hidle
  refine ⟨step_cmdWrite hidle v rest, ?_⟩
  rintro i u hd rfl hb hst hin
  exact (stepRunsTheAcceptedCommand u i hb hst hd).1 hin

/-- Settles O3: the illegal words by their fields; such a word is issued, and its rule only raises IllegalCommand. -/
theorem illegalWordsEndInIllegalCommand : Obligations.IllegalWordsEndInIllegalCommand := by
  refine fun w => ⟨decode_illegal_iff_toNat w, ?_⟩
  rintro ⟨r, hr⟩ s rest hidle
  refine ⟨_, step_cmdWrite hidle w (.complete :: rest), rfl, rfl, ?_⟩
  rw [step_engineTurn (.inr ⟨rest, rfl⟩) rfl, State.issue_staged, Option.getD_none, State.issue_cmd,
    wordRule_of_illegal hr, State.finish_fail]
  rfl

/-! ## The completion step commits all or nothing (R12, R52) -/

/-- The last staged write of OUTLEN stands. -/
theorem State.commit_outlen_of_last {post : List StagedWrite} (h : ∀ n, .outlen n ∉ post) (s : State)
    (pre : List StagedWrite) (n : BitVec 16) : (s.commit (pre ++ .outlen n :: post)).outlen = n := by
  rw [State.commit_append, State.commit_cons, State.commit_outlen_of_not_mem h, State.commitWrite_outlen]

/-- The last staged write of CONSUMED stands. -/
theorem State.commit_consumed_of_last {post : List StagedWrite} (h : ∀ n, .consumed n ∉ post) (s : State)
    (pre : List StagedWrite) (n : BitVec 16) : (s.commit (pre ++ .consumed n :: post)).consumed = n := by
  rw [State.commit_append, State.commit_cons, State.commit_consumed_of_not_mem h, State.commitWrite_consumed]

/-- The last staged write of OBUF stands. -/
theorem State.commit_obuf_of_last {post : List StagedWrite} (h : ∀ b, .obuf b ∉ post) {s : State}
    (hwf : s.obuf.wf = true) (pre : List StagedWrite) (bytes : List Byte) :
    (s.commit (pre ++ .obuf bytes :: post)).obuf.readBytes 0 bytes.length = bytes := by
  rw [State.commit_append, State.commit_cons, State.commit_obuf_of_not_mem h, State.commitWrite_obuf]
  exact Memory.readBytes_writeBytes (State.commit_obuf_wf hwf pre) 0 bytes

/-- The completion step shows the count of the rule, or 0 if the rule did not count, whether the rule has run or not:
issue cleared MATCHES, and a rule that has run left its count there. -/
theorem State.Inv.completion_count {s : State} (h : s.Inv) (hb : s.phase = .busy) :
    s.status.count (wordRule s.cmd s).counted =
      { s.status with nmatches := (wordRule s.cmd s).counted.getD 0#3 } := by
  rw [Status.count]
  congr 1
  cases hst : s.staged with
  | none => rw [h.uncounted hb hst]
  | some r =>
    obtain ⟨rfl, hn⟩ := h.stagedRule r hst
    rw [hn]
    cases (wordRule s.cmd s).counted <;> rfl

/-- The count of a rule that has run is in STATUS.MATCHES already. -/
theorem State.Inv.count_staged {s : State} (h : s.Inv) (hb : s.phase = .busy) {r : RuleEnd} (hst : s.staged = some r) :
    s.status.count r.counted = s.status := by
  obtain ⟨rfl, hn⟩ := h.stagedRule r hst
  rw [h.completion_count hb, ← hn]

/-- Settles O7: the completion step of a staged end, whose count is shown already; the rest is what a commit does. -/
theorem completionCommitsAllOrNothing : Obligations.CompletionCommitsAllOrNothing := by
  intro s r hs hb hst hturn
  have hstep := step_engineTurn hturn hb
  have hend : s.staged.getD (wordRule s.cmd s) = r := by rw [hst, Option.getD_some]
  rw [hend] at hstep
  refine ⟨fun e he => ?_, fun ws hws => ?_⟩
  · rw [hstep, State.finish_of_raise he, hs.count_staged hb hst]
    rfl
  · rw [State.finish_of_complete hws, hs.count_staged hb hst] at hstep
    refine ⟨_, hstep, rfl, fun k hk => ?_, ?_, ?_, fun hn => ?_, ?_, fun hn => ?_, ?_, fun k hk => ?_⟩
    · exact State.commit_slot_of_not_mem hk _
    · rintro k v pre post rfl hlast
      exact State.commit_slot_of_last hlast _ pre v
    · rintro n pre post rfl hlast
      exact State.commit_outlen_of_last hlast _ pre n
    · exact State.commit_outlen_of_not_mem hn _
    · rintro n pre post rfl hlast
      exact State.commit_consumed_of_last hlast _ pre n
    · exact State.commit_consumed_of_not_mem hn _
    · rintro bytes pre post rfl hlast
      exact State.commit_obuf_of_last hlast (s := { s with input := s.input.tail, reply := none }) hs.obufForm pre bytes
    · exact State.commit_obuf_of_above (s := { s with input := s.input.tail, reply := none }) hs.obufForm hk

/-! ## Accesses served while a command runs (R45, R47, R53) -/

/-- `t` differs from `s` at most in IRQ_EN, STATUS, what is staged and the bus answer: all that an access or the
engine's run of the rule may change while the command runs. -/
def State.KeepsCommand (s t : State) : Prop :=
  ∃ irq st staged reply, t = { s with irqEn := irq, status := st, staged := staged, reply := reply }

theorem State.KeepsCommand.trans {s t u : State} (h : s.KeepsCommand t) (h' : t.KeepsCommand u) : s.KeepsCommand u := by
  obtain ⟨_, _, _, _, rfl⟩ := h
  obtain ⟨_, _, _, _, rfl⟩ := h'
  exact ⟨_, _, _, _, rfl⟩

/-- A write to a busy block, but that of SOFT_RESET, keeps the running command. -/
theorem State.writeUnlessBusy_keepsCommand {s : State} (hb : s.phase = .busy) {t : Target} {v : Word}
    (hreset : t = .ctrl → wordBit v 1 = false) : s.KeepsCommand (s.writeUnlessBusy t v) := by
  cases hlive : t.writableBusy with
  | false =>
    rw [State.writeUnlessBusy_busy hb hlive]
    exact ⟨_, _, _, _, rfl⟩
  | true =>
    rw [State.writeUnlessBusy_live s hlive]
    cases t with
    | ctrl =>
      rw [State.writeTarget, State.writeCtrl, hreset rfl]
      exact ⟨_, _, _, _, rfl⟩
    | status => exact ⟨_, _, _, _, rfl⟩
    | _ => cases hlive

/-- An access that reaches CTRL is a word access at offset 0x0008. -/
theorem reaches_ctrl {p : Params} {off : Nat} {a : Access} (hoff : windowOffset p a.addr = some off)
    (h : reaches p off a = some .ctrl) : a.size = 4 ∧ a.addr = p.base + 0x0008 := by
  obtain ⟨hsize, h4, ht, -⟩ := reaches_some h
  have h8 := targetAt_ctrl ht h4
  rw [windowOffset] at hoff
  split at hoff <;> cases hoff
  exact ⟨hsize, by omega⟩

/-- An event that keeps the command is served and keeps it. -/
theorem serve_keepsCommand {s : State} (hb : s.phase = .busy) {e : Event} (he : e.KeepsCommand s.params) :
    ∃ t, serve e s = .next t ∧ s.KeepsCommand t := by
  cases e with
  | bus a =>
    obtain ⟨hlow, hhigh, hctrl⟩ := he
    obtain ⟨hout, -⟩ | ⟨off, hoff, ⟨-, hs⟩ | ⟨t, hreach, ⟨-, hs⟩ | ⟨v, hdir, hs⟩⟩⟩ := serveAccess_cases s a
    · rw [windowOffset_eq_none_iff] at hout
      omega
    · exact ⟨_, hs, _, _, _, _, rfl⟩
    · exact ⟨_, hs, _, _, _, _, rfl⟩
    · have hreset : t = .ctrl → wordBit v 1 = false := by
        rintro rfl
        obtain ⟨hsize, haddr⟩ := reaches_ctrl hoff hreach
        have hbit := hctrl v hdir hsize haddr
        rw [wordBit_eq, pow_one, hbit]
        rfl
      exact ⟨_, hs, (State.writeUnlessBusy_keepsCommand hb hreset).trans ⟨_, _, _, _, rfl⟩⟩
  | execute =>
    refine ⟨_, rfl, ?_⟩
    rw [executeTurn]
    split <;> exact ⟨_, _, _, _, rfl⟩
  | complete => exact he.elim
  | resetInput => exact he.elim

/-- The step of such an event, with what comes after it in the schedule. -/
theorem step_keepsCommand {s : State} (hb : s.phase = .busy) {e : Event} (he : e.KeepsCommand s.params)
    (rest : List Event) :
    ∃ t, step { s with input := e :: rest } = .next t ∧ State.KeepsCommand { s with input := rest } t := by
  obtain ⟨t, ht, hkeep⟩ := serve_keepsCommand (s := { s with input := rest, reply := none }) hb he
  exact ⟨t, ht, State.KeepsCommand.trans ⟨_, _, _, _, rfl⟩ hkeep⟩

theorem run_succ_of_step {s t : State} (h : step s = .next t) (n : Nat) : run (n + 1) s = run n t := by
  rw [run, h]

/-- Two runs one after the other. -/
theorem run_add {m : Nat} {s t : State} (h : run m s = .next t) (n : Nat) : run (m + n) s = run n t := by
  induction m generalizing s with
  | zero =>
    cases h
    rw [Nat.zero_add]
  | succ m ih =>
    rw [run] at h
    split at h
    · next u hu => rw [Nat.add_right_comm, run_succ_of_step hu, ih h]
    · cases h
    · cases h

theorem run_one (s : State) : run 1 s = step s := by
  rw [run]
  cases step s <;> rfl

/-- Serving any list of such events keeps the command and the invariant. -/
theorem run_keepsCommand {s : State} (hs : s.Inv) (hb : s.phase = .busy) {es : List Event}
    (hes : ∀ e ∈ es, e.KeepsCommand s.params) (rest : List Event) :
    ∃ t, run es.length { s with input := es ++ rest } = .next t ∧ t.Inv ∧
      State.KeepsCommand { s with input := rest } t := by
  induction es generalizing s with
  | nil => exact ⟨_, rfl, hs.of_outside rest s.reply, _, _, _, _, rfl⟩
  | cons e es ih =>
    obtain ⟨he, hes⟩ := List.forall_mem_cons.1 hes
    obtain ⟨u, hu, irq, st, staged, reply, rfl⟩ := step_keepsCommand hb he (es ++ rest)
    have hinv := (hs.of_outside (e :: (es ++ rest)) s.reply).step hu
    obtain ⟨t, ht, htInv, hkeep⟩ := ih hinv hb hes
    refine ⟨t, (run_succ_of_step hu _).trans ht, htInv, State.KeepsCommand.trans ⟨_, _, _, _, rfl⟩ hkeep⟩

/-- A commit neither reads nor changes IRQ_EN, STATUS, what is staged, the schedule and the bus answer. -/
theorem State.commit_outside (s : State) (irq : Bool) (st : Status) (staged : Option RuleEnd) (input : List Event)
    (reply : Option Reply) (ws : List StagedWrite) :
    State.commit { s with irqEn := irq, status := st, staged := staged, input := input, reply := reply } ws =
      { s.commit ws with irqEn := irq, status := st, staged := staged, input := input, reply := reply } := by
  induction ws generalizing s with
  | nil => rfl
  | cons w ws ih =>
    have hw :
        State.commitWrite { s with irqEn := irq, status := st, staged := staged, input := input, reply := reply } w =
          { s.commitWrite w with irqEn := irq, status := st, staged := staged, input := input, reply := reply } := by
      cases w <;> rfl
    rw [State.commit_cons, hw, ih, State.commit_cons]

/-- At the engine's turn of a sound state, a running command ends as the rule of the accepted word says. -/
theorem step_engineTurn_of_inv {s : State} (h : s.Inv) (hturn : s.EngineTurn) (hb : s.phase = .busy) :
    step s = .next (State.finish { s with input := s.input.tail, reply := none } (wordRule s.cmd s)) := by
  rw [step_engineTurn hturn hb, h.end_eq]

/-- At the engine's turn, two sound states of one running command end alike but for IRQ_EN, WBUSY and BUSERR: both take
the end of the same rule and show its count, and a running command shows ERR = 0. -/
theorem State.KeepsCommand.step_engineTurn {s t : State} (h : s.KeepsCommand t) (hs : s.Inv) (ht : t.Inv)
    (hb : s.phase = .busy) (hturn : s.EngineTurn) :
    ∃ u, step s = .next u ∧ u.phase = .idle ∧
      step t =
        .next
          { u with
            irqEn := t.irqEn
            status := { u.status with wbusy := t.status.wbusy, buserr := t.status.buserr } } := by
  obtain ⟨irq, st, staged, reply, rfl⟩ := h
  obtain ⟨-, hserr, -⟩ := hs.busyFlags hb
  obtain ⟨-, hterr, -⟩ := ht.busyFlags hb
  have hrule : wordRule s.cmd { s with irqEn := irq, status := st, staged := staged, reply := reply } =
      wordRule s.cmd s := wordRule_congr rfl rfl rfl rfl rfl rfl _
  have hscount := hs.completion_count hb
  have htcount := ht.completion_count hb
  have hstep := step_engineTurn_of_inv ht hturn hb
  simp only [hrule] at hterr htcount hstep
  refine ⟨_, step_engineTurn_of_inv hs hturn hb, by rw [State.finish_frame], hstep.trans (congrArg _ ?_)⟩
  cases hend : (wordRule s.cmd s).ending with
  | raise e =>
    rw [State.finish_of_raise hend, State.finish_of_raise hend, hscount, htcount]
    rfl
  | complete ws =>
    rw [State.finish_of_complete hend, State.finish_of_complete hend, hscount, htcount]
    simp only [State.commit_outside, hserr, hterr]

/-- Settles O11: the events keep the command and the invariant, and then both completions take the end of the same
rule. -/
theorem accessesWhileBusyDoNotChangeTheResult : Obligations.AccessesWhileBusyDoNotChangeTheResult := by
  intro s es hs hb hes
  obtain ⟨t, hrun, ht, hkeep⟩ := run_keepsCommand hs hb hes [.complete]
  obtain ⟨u, hu, hidle, htu⟩ := hkeep.step_engineTurn (hs.of_outside [.complete] s.reply) ht hb (.inr ⟨[], rfl⟩)
  exact ⟨_, u, (run_add hrun 1).trans ((run_one t).trans htu), hu, rfl, rfl, rfl, rfl, rfl, rfl, rfl, rfl, rfl, rfl,
    hidle, hidle, rfl, rfl, rfl, rfl⟩

/-! ## The accesses of `LDS` (R38, R58) -/

/-- A value below 2^W is its words. -/
theorem eq_of_words {w x v : Nat} (hw : w % 32 = 0) (hx : x < 2 ^ w) (hv : v < 2 ^ w)
    (h : ∀ j < w / 32, x / 2 ^ (32 * j) % 2 ^ 32 = v / 2 ^ (32 * j) % 2 ^ 32) : x = v := by
  rw [slot_eq_sum_words hw hx, slot_eq_sum_words hw hv]
  exact Finset.sum_congr rfl fun j hj => by rw [h j (Finset.mem_range.1 hj)]

/-- The word that `LDS` writes is the word of the value. -/
theorem ofNat_bits_toNat (v i : Nat) :
    (BitVec.ofNat 32 (bits v (32 * i + 31) (32 * i))).toNat = v / 2 ^ (32 * i) % 2 ^ 32 := by
  rw [BitVec.toNat_ofNat, bits, show 32 * i + 31 - 32 * i + 1 = 32 by omega, Nat.mod_mod]

/-- The slots `f` after the first `n` word writes of `LDS k, v` to the slots `g`. -/
structure LoadedWords (w : Nat) (k : Slot) (v n : Nat) (g f : Slots) : Prop where
  others : ∀ l, l ≠ k → f.get l = g.get l
  fits : f.get k < 2 ^ w
  words : ∀ j < n, f.get k / 2 ^ (32 * j) % 2 ^ 32 = v / 2 ^ (32 * j) % 2 ^ 32

/-- The next word write of `LDS`. -/
theorem LoadedWords.succ {w v n : Nat} {k : Slot} {g f : Slots} (h : LoadedWords w k v n g f) (hw : w % 32 = 0)
    (hn : n < w / 32) :
    LoadedWords w k v (n + 1) g
      (f.set k (setSlotWord w (f.get k) n (BitVec.ofNat 32 (bits v (32 * n + 31) (32 * n))))) where
  others l hl := (Slots.get_set_of_ne f _ hl).trans (h.others l hl)
  fits := by
    rw [Slots.get_set_self]
    exact setSlotWord_lt hw h.fits _ _
  words j hj := by
    rw [Slots.get_set_self, setSlotWord_word _ hn, ofNat_bits_toNat]
    split
    · next hjn => rw [hjn]
    · next hjn => exact h.words j (by omega)

/-- The first `n` accesses of `LDS`, with what comes after them in the schedule. -/
theorem run_loadWords {s : State} (hs : s.Inv) (hidle : s.phase = .idle) (k : Slot) (v : Nat) {n : Nat}
    (hn : n ≤ s.params.w / 32) (rest : List Event) :
    ∃ f reply,
      run n
          { s with
            input := ((List.range n).map fun i =>
              wrEvent s.params (k.wordOffset i) (BitVec.ofNat 32 (bits v (32 * i + 31) (32 * i)))) ++ rest } =
        .next { s with slots := f, input := rest, reply := reply } ∧
      LoadedWords s.params.w k v n s.slots f := by
  obtain ⟨⟨hw, -, hmax⟩, -, -⟩ := hs.legal
  induction n generalizing rest with
  | zero => exact ⟨s.slots, s.reply, rfl, fun _ _ => rfl, hs.slots k, nofun⟩
  | succ n ih =>
    rw [List.range_succ, List.map_append, List.append_assoc]
    obtain ⟨f, reply, hrun, hf⟩ := ih (by omega) _
    have hk := k.number_lt
    refine ⟨_, some (.writeDone false), (run_add hrun 1).trans ((run_one _).trans ?_), hf.succ hw (by omega)⟩
    exact step_presents_write { s with slots := f, reply := reply } (off := k.wordOffset n)
      (by rw [Slot.wordOffset]; omega) (by rw [Slot.wordOffset]; omega) (targetAt_slot s.params k (by omega)) rfl
      (.inl hidle) _ rest

/-- Settles O55: after all W/32 word writes the slot has the words of v, so it is v. -/
theorem loadSlotMacroLoadsTheSlot : Obligations.LoadSlotMacroLoadsTheSlot := by
  intro s k v hs hidle hv
  obtain ⟨⟨hw, -⟩, -, -⟩ := hs.legal
  obtain ⟨f, reply, hrun, hf⟩ := run_loadWords hs hidle k v le_rfl []
  rw [List.append_nil] at hrun
  refine ⟨{ s with slots := f, input := [], reply := reply }, ?_, eq_of_words hw hf.fits hv hf.words, hf.others, rfl⟩
  rw [HostOp.expand, List.length_map, List.length_range]
  exact hrun

end Sys2Proof.Machine
end

section
/-! SUPPORT. The extended Euclid unit: what the loop of R59 returns, how small the coefficients are (R61), and the
command EGCD (R60, R62). -/

namespace Sys2Proof.Machine

/-! ## The loop and its coefficients (R59, R61) -/

/-- The model's loop is a run of the loop of R59 when the fuel is above the second remainder. -/
theorem egcdLoop_runs {fuel r1 : Nat} (h : r1 < fuel) (r0 : Nat) (s0 s1 t0 t1 : Int) :
    EuclidLoop r0 r1 s0 s1 t0 t1 (egcdLoop fuel r0 r1 s0 s1 t0 t1) := by
  induction fuel generalizing r0 r1 s0 s1 t0 t1 with
  | zero => omega
  | succ n ih =>
    rw [egcdLoop]
    split
    · next h0 =>
      subst h0
      exact .stop ..
    · next h0 =>
      have hmod : r0 - r0 / r1 * r1 = r0 % r1 := by rw [Nat.mod_eq_sub_div_mul]
      have hlt := Nat.mod_lt r0 (Nat.pos_of_ne_zero h0)
      rw [hmod]
      exact .turn _ _ _ _ _ _ _ (r0 / r1) (r0 % r1) h0 (Nat.div_add_mod' r0 r1).symm hlt (ih (by omega) ..)

/-- `egcd` is a run of the loop of R59 from its initial values. -/
theorem egcd_runs (a b : Nat) : EuclidLoop a b 1 0 0 1 (egcd a b) := egcdLoop_runs (Nat.lt_succ_self b) ..

/-- The shape of the coefficients of the remainders `r0` and `r1` in the result of the loop: the loop stops at once, or
after one turn, or both coefficients are at most half the other remainder over the greatest common divisor. -/
inductive SmallCoefficients (r0 r1 : Nat) : Int → Int → Prop where
  | stopped : r1 = 0 → SmallCoefficients r0 r1 1 0
  | divided : r1 ≠ 0 → r1 ∣ r0 → SmallCoefficients r0 r1 0 1
  | halved (u v : Int) : u.natAbs * (2 * Nat.gcd r0 r1) ≤ r1 → v.natAbs * (2 * Nat.gcd r0 r1) ≤ r0 →
      SmallCoefficients r0 r1 u v

/-- Back over one turn: (u, v) for the remainders after it is (v, u - q v) for those before it. -/
theorem SmallCoefficients.turn {r1 rest : Nat} {u v : Int} (h : SmallCoefficients r1 rest u v) (hlt : rest < r1)
    (q : Nat) : SmallCoefficients (q * r1 + rest) r1 v (u - q * v) := by
  have hgcd : Nat.gcd (q * r1 + rest) r1 = Nat.gcd r1 rest := by rw [Nat.gcd_comm, Nat.gcd_mul_right_add_right]
  obtain hzero | ⟨hne, k, rfl⟩ | ⟨_, _, hu, hv⟩ := h
  · subst hzero
    simpa using SmallCoefficients.divided hlt.ne' (Dvd.intro_left q rfl)
  · -- one turn more stops the loop: the divisor is `rest`, at most half of `r1`
    have hk : 1 < k := (Nat.lt_mul_iff_one_lt_right (Nat.pos_of_ne_zero hne)).1 hlt
    have hhalf : 2 * rest ≤ rest * k := by
      rw [Nat.mul_comm 2]
      exact Nat.mul_le_mul_left rest hk
    refine .halved _ _ ?_ ?_ <;> rw [hgcd, Nat.gcd_mul_right_left]
    · simpa using hhalf
    · simpa using (Nat.mul_le_mul_left q hhalf).trans (Nat.le_add_right _ rest)
  · refine .halved _ _ ?_ ?_ <;> rw [hgcd]
    · exact hv
    · have habs : (u - q * v).natAbs ≤ u.natAbs + q * v.natAbs := by
        simpa [Int.natAbs_mul] using Int.natAbs_sub_le u (q * v)
      calc (u - q * v).natAbs * (2 * Nat.gcd r1 rest)
          ≤ (u.natAbs + q * v.natAbs) * (2 * Nat.gcd r1 rest) := Nat.mul_le_mul_right _ habs
        _ = q * (v.natAbs * (2 * Nat.gcd r1 rest)) + u.natAbs * (2 * Nat.gcd r1 rest) := by ring
        _ ≤ q * r1 + rest := Nat.add_le_add (Nat.mul_le_mul_left q hv) hu

/-- A run of the loop returns one small combination of its initial coefficients, for x and for y. -/
theorem EuclidLoop.smallCoefficients {r0 r1 : Nat} {s0 s1 t0 t1 : Int} {out : Bezout}
    (h : EuclidLoop r0 r1 s0 s1 t0 t1 out) :
    ∃ u v, SmallCoefficients r0 r1 u v ∧ out.x = u * s0 + v * s1 ∧ out.y = u * t0 + v * t1 := by
  induction h with
  | stop => exact ⟨1, 0, .stopped rfl, by ring, by ring⟩
  | turn r0 r1 s0 s1 t0 t1 out q rest hne heq hlt _ ih =>
    obtain ⟨u, v, hsmall, hx, hy⟩ := ih
    refine ⟨v, u - q * v, heq ▸ hsmall.turn hlt q, ?_, ?_⟩
    · rw [hx]; ring
    · rw [hy]; ring

/-- The coefficients of `egcd` are small. -/
theorem egcd_smallCoefficients (a b : Nat) : SmallCoefficients a b (egcd a b).x (egcd a b).y := by
  obtain ⟨u, v, hsmall, hx, hy⟩ := (egcd_runs a b).smallCoefficients
  rw [hx, hy]
  simpa using hsmall

/-- R61: the bounds in absolute value. -/
theorem SmallCoefficients.abs_le {a b : Nat} {u v : Int} (h : SmallCoefficients a b u v) (hg : 0 < Nat.gcd a b) :
    |u| ≤ max 1 ((b / (2 * Nat.gcd a b) : Nat) : Int) ∧ |v| ≤ max 1 ((a / (2 * Nat.gcd a b) : Nat) : Int) := by
  obtain _ | _ | ⟨_, _, hu, hv⟩ := h
  · simp
  · simp
  · rw [← Nat.le_div_iff_mul_le (by omega)] at hu hv
    rw [Int.abs_eq_natAbs, Int.abs_eq_natAbs]
    omega

/-- R61: a coefficient within its bound fits two's complement of the width of the operands. -/
theorem abs_lt_of_le_half {w g b : Nat} {u : Int} (hw : 2 ≤ w) (hg : 0 < g) (hb : b < 2 ^ w)
    (hu : |u| ≤ max 1 ((b / (2 * g) : Nat) : Int)) : |u| < 2 ^ (w - 1) := by
  obtain ⟨k, rfl⟩ : ∃ k, w = k + 2 := ⟨w - 2, by omega⟩
  have hpow : (2 : Int) ^ (k + 1) = ((2 * 2 ^ k : Nat) : Int) := by push_cast; ring
  have hpos : 0 < 2 ^ k := by positivity
  have hhalf : b / (2 * g) ≤ b / 2 := Nat.div_le_div_left (by omega) (by norm_num)
  rw [pow_succ, pow_succ] at hb
  rw [show k + 2 - 1 = k + 1 by omega, hpow]
  omega

/-- R61: both coefficients of `egcd` are in the range of w-bit two's complement. -/
theorem egcd_abs_lt {w a b : Nat} (hw : 2 ≤ w) (ha : a < 2 ^ w) (hb : b < 2 ^ w) (h0 : ¬ (a = 0 ∧ b = 0)) :
    |(egcd a b).x| < 2 ^ (w - 1) ∧ |(egcd a b).y| < 2 ^ (w - 1) := by
  have hg : 0 < Nat.gcd a b := Nat.pos_of_ne_zero (Nat.gcd_eq_zero_iff.not.2 h0)
  obtain ⟨hx, hy⟩ := (egcd_smallCoefficients a b).abs_le hg
  exact ⟨abs_lt_of_le_half hw hg hb hx, abs_lt_of_le_half hw hg ha hy⟩

/-- A number in the range of n-bit two's complement reads back from its pattern. -/
theorem sext_twosComplement_of_abs_lt {n : Nat} (hn : 1 ≤ n) {v : Int} (h : |v| < 2 ^ (n - 1)) :
    sext n (twosComplement n v) = v :=
  sext_twosComplement hn (abs_lt.1 h).1.le (abs_lt.1 h).2

/-- Settles O26: the model's loop is the loop of R59, and its invariants give gcd and Bézout. -/
theorem egcdRunsTheIterativeLoop : Obligations.EgcdRunsTheIterativeLoop := fun a b =>
  ⟨egcd_runs a b, egcd_gcd a b, egcd_bezout a b, by rw [egcd_gcd, Nat.gcd_zero_right]⟩

/-- Settles O29, from the size of the loop's coefficients. -/
theorem egcdCoefficientsFit : Obligations.EgcdCoefficientsFit := by
  intro w a b hw ha hb h0
  have hg : 0 < Nat.gcd a b := Nat.pos_of_ne_zero (Nat.gcd_eq_zero_iff.not.2 h0)
  obtain ⟨hxle, hyle⟩ := (egcd_smallCoefficients a b).abs_le hg
  obtain ⟨hx, hy⟩ := egcd_abs_lt (by omega) ha hb h0
  exact ⟨(abs_lt.1 hx).1.le, (abs_lt.1 hx).2, (abs_lt.1 hy).1.le, (abs_lt.1 hy).2, hxle, hyle,
    sext_twosComplement_of_abs_lt (by omega) hx, sext_twosComplement_of_abs_lt (by omega) hy⟩

/-! ## The command (R60, R62) -/

/-- A command that does not use LEN has one word, its OP (R56, R57). -/
theorem onlyWord_of_not_usesLen {i : Instr} (h : i.usesLen = false) : OnlyWord i i.matchWord := by
  have hop := i.opcode_le
  have hlen : ¬ (i.opcode = 0x09 ∨ i.opcode = 0x0A ∨ i.opcode = 0x0C) := by simp [← i.usesLen_iff, h]
  refine ⟨?_, fun v hv hne => ?_⟩
  · rw [decode_eq_instr_iff_toNat, i.matchWord_toNat, Instr.len_of_not_usesLen h]
    omega
  · rw [i.matchWord_toNat] at hv
    rw [← BitVec.toNat_inj.ne, i.matchWord_toNat] at hne
    rw [decode_illegal_iff_toNat]
    omega

/-- EGCD of (0, 0) reports ParameterError (R60). -/
theorem exec_egcd_of_zero {s : State} (h : s.slot .a = 0 ∧ s.slot .b = 0) : exec .egcd s = .next (s.failed 1#4) := by
  rw [exec_eq, ruleOf, ruleEgcd, if_pos h, State.finish_fail]
  rfl

/-- EGCD of any other pair stores the triple (R60). -/
theorem exec_egcd_of_not_zero {s : State} (h : ¬ (s.slot .a = 0 ∧ s.slot .b = 0)) :
    exec .egcd s =
      .next
        (s.succeeded
          { s.slots with
            g := (egcd (s.slot .a) (s.slot .b)).g
            x := twosComplement s.params.w (egcd (s.slot .a) (s.slot .b)).x
            y := twosComplement s.params.w (egcd (s.slot .a) (s.slot .b)).y }) := by
  rw [exec_eq, ruleOf, ruleEgcd, if_neg h, State.finish_succeed]
  rfl

/-- Settles O27: the word by its fields, and the two ends of the rule. -/
theorem egcdWritesGXY : Obligations.EgcdWritesGXY :=
  ⟨onlyWord_of_not_usesLen (i := .egcd) rfl, fun _ => ⟨exec_egcd_of_zero, exec_egcd_of_not_zero⟩⟩

/-- Settles O28: a success stores the triple, and both coefficients read back from their slots. -/
theorem egcdStoresABezoutPair : Obligations.EgcdStoresABezoutPair := by
  intro s t hs ht hcode
  obtain ⟨⟨-, hw, -⟩, -, -⟩ := hs.legal
  by_cases h0 : s.slot .a = 0 ∧ s.slot .b = 0
  · rw [exec_egcd_of_zero h0] at ht
    cases ht
    exact absurd hcode (by decide : 1#4 ≠ 0#4)
  · rw [exec_egcd_of_not_zero h0] at ht
    cases ht
    obtain ⟨hx, hy⟩ := egcd_abs_lt (w := s.params.w) (by omega) (hs.slots .a) (hs.slots .b) h0
    refine ⟨?_, egcd_gcd _ _⟩
    calc ((egcd (s.slot .a) (s.slot .b)).g : Int)
        = (egcd (s.slot .a) (s.slot .b)).x * s.slot .a + (egcd (s.slot .a) (s.slot .b)).y * s.slot .b := egcd_bezout _ _
      _ = sext s.params.w (twosComplement s.params.w (egcd (s.slot .a) (s.slot .b)).x) * s.slot .a +
          sext s.params.w (twosComplement s.params.w (egcd (s.slot .a) (s.slot .b)).y) * s.slot .b := by
        rw [sext_twosComplement_of_abs_lt (by omega) hx, sext_twosComplement_of_abs_lt (by omega) hy]

end Sys2Proof.Machine
end

section
/-! SUPPORT. The padding selector: the padded value and how it reads back (R66, R67, R71), the commands PAD and UNPAD
(R68 to R70), and the two variants of each family (R65). -/

namespace Sys2Proof

/-! ## Low bits appended to an integer -/

/-- k bits appended to an integer are removed by a shift. -/
theorem shift_add_div (m : Nat) {k r : Nat} (hr : r < 2 ^ k) : (m * 2 ^ k + r) / 2 ^ k = m := by
  rw [Nat.mul_comm, Nat.mul_add_div (Nat.two_pow_pos _), Nat.div_eq_of_lt hr, Nat.add_zero]

/-- k bits appended to a positive integer make it k bits longer. -/
theorem bitlen_shift_add {m k r : Nat} (hm : m ≠ 0) (hr : r < 2 ^ k) : bitlen (m * 2 ^ k + r) = bitlen m + k := by
  obtain ⟨hpos, hlow, hhigh⟩ := (bitlen_eq_iff hm _).1 rfl
  have hbase : 0 < m * 2 ^ k := by positivity
  rw [bitlen_eq_iff (by omega)]
  refine ⟨by omega, ?_, ?_⟩
  · calc 2 ^ (bitlen m + k - 1) = 2 ^ (bitlen m - 1) * 2 ^ k := by rw [← pow_add]; congr 1; omega
      _ ≤ m * 2 ^ k := Nat.mul_le_mul_right _ hlow
      _ ≤ m * 2 ^ k + r := Nat.le_add_right _ _
  · calc m * 2 ^ k + r < (m + 1) * 2 ^ k := by rw [Nat.succ_mul]; omega
      _ ≤ 2 ^ bitlen m * 2 ^ k := Nat.mul_le_mul_right _ hhigh
      _ = 2 ^ (bitlen m + k) := (pow_add ..).symm

namespace Machine

/-! ## The padded value (R66, R67, R71) -/

/-- Padding appends as many low bits as the padding width. -/
theorem State.padded_eq_shift_add (s : State) (m : Nat) :
    ∃ r < 2 ^ s.padWidth, s.padded m = m * 2 ^ s.padWidth + r := by
  unfold State.padWidth State.padded
  split
  · exact ⟨_, Nat.mod_lt _ (Nat.two_pow_pos _), rfl⟩
  · exact ⟨_, lt_two_pow_bitlen _, rfl⟩

theorem State.padded_div (s : State) (m : Nat) : s.padded m / 2 ^ s.padWidth = m := by
  obtain ⟨r, hr, heq⟩ := s.padded_eq_shift_add m
  rw [heq, shift_add_div m hr]

/-- A padded value matches: its low bits are the appended ones, and above them it is the integer. -/
theorem State.matches_padded (s : State) (m : Nat) : s.Matches (s.padded m) := by
  unfold State.Matches State.padded
  split
  · rw [shift_add_div m (Nat.mod_lt _ (Nat.two_pow_pos _)), Nat.mul_add_mod_self_right, Nat.mod_mod]
  · rw [Nat.mul_add_mod_self_right, Nat.mod_eq_of_lt (lt_two_pow_bitlen _)]

/-- Zero has a padded value in the suffix family only, and it is the suffix. -/
theorem State.Paddable.padded_zero {s : State} (h : s.Paddable 0) : bitlen (s.padded 0) = s.padWidth := by
  obtain ⟨hparam, hbits⟩ := h
  have hv : ¬ (s.padcfg.variant = 0#2 ∨ s.padcfg.variant = 1#2) := fun hv => by
    have hk : s.padcfg.k.toNat = 0 := Nat.le_zero.1 (hbits hv)
    rw [State.ParamZero, if_pos hv] at hparam
    exact hparam (BitVec.eq_of_toNat_eq hk)
  rw [State.padded, State.padWidth, if_neg hv, if_neg hv, Nat.zero_mul, Nat.zero_add]

/-- The padded value is longer than the integer by the padding width. -/
theorem State.Paddable.bitlen_padded {s : State} {m : Nat} (h : s.Paddable m) :
    bitlen (s.padded m) = bitlen m + s.padWidth := by
  rcases eq_or_ne m 0 with rfl | hm
  · rw [h.padded_zero, show bitlen 0 = 0 from rfl, Nat.zero_add]
  · obtain ⟨r, hr, heq⟩ := s.padded_eq_shift_add m
    rw [heq, bitlen_shift_add hm hr]

/-- Settles O32: padding appends low bits, which the match reads and the strip removes. -/
theorem paddingRoundTrips : Obligations.PaddingRoundTrips := fun s m h =>
  ⟨s.matches_padded m, s.padded_div m, State.padval_ok h, h.bitlen_padded⟩

/-! ## The commands (R69, R70) -/

theorem exec_pad_of_not_paddable {s : State} (h : ¬ s.Paddable (s.slot .m)) : exec .pad s = .next (s.failed 1#4) := by
  simp only [exec_eq, ruleOf, rulePad, State.padval_error h, State.finish_fail]
  rfl

theorem exec_pad_of_too_large {s : State} (h : s.Paddable (s.slot .m)) (hbig : 2 ^ s.params.w ≤ s.padded (s.slot .m)) :
    exec .pad s = .next (s.failed 2#4) := by
  simp only [exec_eq, ruleOf, rulePad, State.padval_ok h, if_pos hbig, State.finish_fail]
  rfl

theorem exec_pad_of_fits {s : State} (h : s.Paddable (s.slot .m)) (hfits : s.padded (s.slot .m) < 2 ^ s.params.w) :
    exec .pad s = .next (s.succeeded { s.slots with padv := s.padded (s.slot .m) }) := by
  simp only [exec_eq, ruleOf, rulePad, State.padval_ok h, if_neg (Nat.not_le.2 hfits), State.finish_succeed]
  rfl

/-- Settles O30: the word by its fields, and the three ends of the rule. -/
theorem padWritesThePaddedValue : Obligations.PadWritesThePaddedValue :=
  ⟨onlyWord_of_not_usesLen (i := .pad) rfl, fun _ =>
    ⟨exec_pad_of_not_paddable, exec_pad_of_too_large, exec_pad_of_fits⟩⟩

theorem exec_unpad_of_paramZero {s : State} (h : s.ParamZero) : exec .unpad s = .next (s.failed 1#4) := by
  simp only [exec_eq, ruleOf, ruleUnpad, State.select_param h]
  rfl

section
variable {s : State} {d : Finset Nat} (hz : ¬ s.ParamZero) (h : s.MatchSet s.candidates.toFinset d)
include hz h

/-- UNPAD with no match or several counts them and reports DisambiguationError (R68). -/
theorem exec_unpad_of_card_ne_one (hd : d.card ≠ 1) :
    exec .unpad s = .next ((s.counting d.card).failed 3#4) := by
  simp only [exec_eq, ruleOf, ruleUnpad, State.select_error hz h hd]
  rfl

/-- UNPAD with one match stores it and its integer. -/
theorem exec_unpad_of_singleton {c : Nat} (hd : d = {c}) :
    exec .unpad s = .next ((s.counting 1).succeeded { s.slots with padv := c, m := c / 2 ^ s.padWidth }) := by
  simp only [exec_eq, ruleOf, ruleUnpad, State.select_one hz h hd]
  rfl

end

/-- Settles O31: the word by its fields, and the three ends of the selection. -/
theorem unpadSelectsTheOneMatch : Obligations.UnpadSelectsTheOneMatch := by
  refine ⟨onlyWord_of_not_usesLen (i := .unpad) rfl, fun s d h => ?_⟩
  have hset : s.MatchSet s.candidates.toFinset d := by
    simpa only [State.candidates, List.toFinset_cons, List.toFinset_nil, insert_empty_eq] using h
  exact ⟨exec_unpad_of_paramZero, fun hz => exec_unpad_of_card_ne_one hz hset,
    fun _ hz => exec_unpad_of_singleton hz hset⟩

/-! ## The variants of one family (R65) -/

/-- The two values of VARIANT in each family select one strategy. -/
theorem State.strategy_variantPair (s : State) {v w : BitVec 2} (h : (v = 0#2 ∧ w = 1#2) ∨ (v = 2#2 ∧ w = 3#2)) :
    State.strategy { s with padcfg := ⟨v, s.padcfg.k⟩ } = State.strategy { s with padcfg := ⟨w, s.padcfg.k⟩ } := by
  obtain ⟨rfl, rfl⟩ | ⟨rfl, rfl⟩ := h <;> rfl

/-- A rule reads PADCFG through the strategy alone. -/
theorem ruleOf_of_strategy (i : Instr) (s : State) {c c' : Padcfg}
    (h : State.strategy { s with padcfg := c } = State.strategy { s with padcfg := c' }) :
    ruleOf i { s with padcfg := c } = ruleOf i { s with padcfg := c' } := by
  have hencrypt : ∀ m, State.encryptInteger { s with padcfg := c } m = State.encryptInteger { s with padcfg := c' } m :=
    fun m => by rw [State.encryptInteger, h]; rfl
  have hdecrypt : ∀ x, State.decryptInteger { s with padcfg := c } x = State.decryptInteger { s with padcfg := c' } x :=
    fun x => by rw [State.decryptInteger, h]; rfl
  cases i with
  | nop | egcd | modsqr | sqrt | crt | hdrParse => rfl
  | pad => rw [ruleOf, rulePad, h]; rfl
  | unpad => rw [ruleOf, ruleUnpad, h]; rfl
  | encrypt => rw [ruleOf, ruleEncrypt, hencrypt]; rfl
  | decrypt => rw [ruleOf, ruleDecrypt, hdecrypt]; rfl
  | encblk len => rw [ruleOf, ruleEncblk, hencrypt]; rfl
  | decblk len => rw [ruleOf, ruleDecblk, hdecrypt]; rfl
  | hdrEmit => rw [ruleOf, ruleHdrEmit, h]; rfl

theorem State.commit_withPadcfg (s : State) (c : Padcfg) (ws : List StagedWrite) :
    State.commit { s with padcfg := c } ws = { s.commit ws with padcfg := c } := by
  induction ws generalizing s with
  | nil => rfl
  | cons w ws ih =>
    have hw : State.commitWrite { s with padcfg := c } w = { s.commitWrite w with padcfg := c } := by cases w <;> rfl
    rw [State.commit_cons, hw, ih, State.commit_cons]

/-- The completion step leaves PADCFG alone and does not read it. -/
theorem State.finish_withPadcfg (s : State) (c : Padcfg) (r : RuleEnd) :
    State.finish { s with padcfg := c } r = { s.finish r with padcfg := c } := by
  cases hend : r.ending with
  | raise e =>
    rw [State.finish_of_raise hend, State.finish_of_raise hend]
    rfl
  | complete ws =>
    rw [State.finish_of_complete hend, State.finish_of_complete hend, State.commit_withPadcfg]

/-- Two values of PADCFG that select one strategy give next states that differ in PADCFG alone. -/
theorem exec_of_strategy (i : Instr) (s : State) {c c' : Padcfg}
    (h : State.strategy { s with padcfg := c } = State.strategy { s with padcfg := c' }) :
    ∃ u : State, exec i { s with padcfg := c } = .next { u with padcfg := c } ∧
      exec i { s with padcfg := c' } = .next { u with padcfg := c' } := by
  refine ⟨s.finish (ruleOf i { s with padcfg := c }), ?_, ?_⟩
  · rw [exec_eq, State.finish_withPadcfg]
  · rw [exec_eq, State.finish_withPadcfg, ruleOf_of_strategy i s h]

/-- Agreement of two states outside PADCFG does not depend on the value put there. -/
theorem State.withPadcfg_eq_of_eq {u t : State} {c : Padcfg}
    (h : ({ u with padcfg := c } : State) = { t with padcfg := c }) (c' : Padcfg) :
    ({ u with padcfg := c' } : State) = { t with padcfg := c' } :=
  congrArg (fun x : State => { x with padcfg := c' }) h

/-- Settles O33: the paired variants select one strategy, through which alone a command reads VARIANT. -/
theorem variantPairsBehaveIdentically : Obligations.VariantPairsBehaveIdentically := by
  intro i s t v w hpair
  obtain ⟨u, hv, hw⟩ := exec_of_strategy i s (s.strategy_variantPair hpair)
  rw [hv, hw, Host.Outcome.next.injEq, Host.Outcome.next.injEq]
  exact ⟨fun h => State.withPadcfg_eq_of_eq h _, fun h => State.withPadcfg_eq_of_eq h _⟩

end Machine
end Sys2Proof
end

section
/-! SUPPORT. The Rabin core: the modular squarer and ENCRYPT (R73, R80), the residues of the CRT candidates (R77, R78),
SQRT and CRT (R75, R76, R79), the steps of one integer's decryption (R81), and the round trip (R82). -/

namespace Sys2Proof.Machine

/-! ## Squaring modulo N: MODSQR and ENCRYPT (R73, R80) -/

theorem exec_modsqr_of_range {s : State} (h : s.slot .n ≤ s.slot .padv) : exec .modsqr s = .next (s.failed 2#4) := by
  rw [exec_eq, ruleOf, ruleModsqr, if_pos h, State.finish_fail]
  rfl

section
variable {s : State} (hlt : s.slot .padv < s.slot .n)
include hlt

theorem exec_modsqr_of_bad_modulus (h : s.slot .n < 3 ∨ s.slot .n % 2 = 0) :
    exec .modsqr s = .next (s.failed 5#4) := by
  have hmod : ¬ modulusOk (s.slot .n) = true := by rw [modulusOk_iff]; omega
  rw [exec_eq, ruleOf, ruleModsqr, if_neg (Nat.not_le.2 hlt), if_neg hmod, State.finish_fail]
  rfl

theorem exec_modsqr_of_modulus (h3 : 3 ≤ s.slot .n) (hodd : s.slot .n % 2 = 1) :
    exec .modsqr s = .next (s.succeeded { s.slots with c := s.slot .padv ^ 2 % s.slot .n }) := by
  rw [exec_eq, ruleOf, ruleModsqr, if_neg (Nat.not_le.2 hlt), if_pos ((modulusOk_iff _).2 ⟨h3, hodd⟩), ← pow_two,
    State.finish_succeed]
  rfl

end

/-- Settles O34: the word by its fields, and the three ends of the rule. -/
theorem modsqrSquaresModN : Obligations.ModsqrSquaresModN :=
  ⟨onlyWord_of_not_usesLen (i := .modsqr) rfl, fun _ =>
    ⟨exec_modsqr_of_range, exec_modsqr_of_bad_modulus, exec_modsqr_of_modulus⟩⟩

theorem exec_encrypt_of_not_paddable {s : State} (h : ¬ s.Paddable (s.slot .m)) :
    exec .encrypt s = .next (s.failed 1#4) := by
  simp only [exec_eq, ruleOf, ruleEncrypt, State.encryptInteger_param h, State.finish_fail]
  rfl

section
variable {s : State} (hpad : s.Paddable (s.slot .m))
include hpad

theorem exec_encrypt_of_range (hle : s.slot .n ≤ s.padded (s.slot .m)) :
    exec .encrypt s = .next (s.failed 2#4) := by
  simp only [exec_eq, ruleOf, ruleEncrypt, State.encryptInteger_range hpad hle, State.finish_fail]
  rfl

theorem exec_encrypt_of_bad_modulus (hlt : s.padded (s.slot .m) < s.slot .n)
    (h : s.slot .n < 3 ∨ s.slot .n % 2 = 0) : exec .encrypt s = .next (s.failed 5#4) := by
  simp only [exec_eq, ruleOf, ruleEncrypt, State.encryptInteger_key hpad hlt h, State.finish_fail]
  rfl

theorem exec_encrypt_of_modulus (hlt : s.padded (s.slot .m) < s.slot .n) (h3 : 3 ≤ s.slot .n)
    (hodd : s.slot .n % 2 = 1) :
    exec .encrypt s =
      .next
        (s.succeeded { s.slots with padv := s.padded (s.slot .m), c := s.padded (s.slot .m) ^ 2 % s.slot .n }) := by
  simp only [exec_eq, ruleOf, ruleEncrypt, State.encryptInteger_ok hpad hlt h3 hodd, State.finish_succeed]
  rfl

end

/-- Settles O38: the word by its fields, and the four ends of the rule. -/
theorem encryptPadsAndSquares : Obligations.EncryptPadsAndSquares :=
  ⟨onlyWord_of_not_usesLen (i := .encrypt) rfl, fun _ =>
    ⟨exec_encrypt_of_not_paddable, exec_encrypt_of_range, exec_encrypt_of_bad_modulus, exec_encrypt_of_modulus⟩⟩

/-- Everything ENCRYPT can do, in the order of its checks. -/
theorem exec_encrypt_cases (s : State) :
    (¬ s.Paddable (s.slot .m) ∧ exec .encrypt s = .next (s.failed 1#4)) ∨
    (s.Paddable (s.slot .m) ∧ s.slot .n ≤ s.padded (s.slot .m) ∧ exec .encrypt s = .next (s.failed 2#4)) ∨
    (s.Paddable (s.slot .m) ∧ s.padded (s.slot .m) < s.slot .n ∧ (s.slot .n < 3 ∨ s.slot .n % 2 = 0) ∧
      exec .encrypt s = .next (s.failed 5#4)) ∨
    (s.Paddable (s.slot .m) ∧ s.padded (s.slot .m) < s.slot .n ∧ 3 ≤ s.slot .n ∧ s.slot .n % 2 = 1 ∧
      exec .encrypt s =
        .next
          (s.succeeded
            { s.slots with padv := s.padded (s.slot .m), c := s.padded (s.slot .m) ^ 2 % s.slot .n })) := by
  by_cases hpad : s.Paddable (s.slot .m)
  swap
  · exact .inl ⟨hpad, exec_encrypt_of_not_paddable hpad⟩
  rcases le_or_gt (s.slot .n) (s.padded (s.slot .m)) with hle | hlt
  · exact .inr (.inl ⟨hpad, hle, exec_encrypt_of_range hpad hle⟩)
  by_cases hmod : s.slot .n < 3 ∨ s.slot .n % 2 = 0
  · exact .inr (.inr (.inl ⟨hpad, hlt, hmod, exec_encrypt_of_bad_modulus hpad hlt hmod⟩))
  · have h3 : 3 ≤ s.slot .n := by omega
    have hodd : s.slot .n % 2 = 1 := by omega
    exact .inr (.inr (.inr ⟨hpad, hlt, h3, hodd, exec_encrypt_of_modulus hpad hlt h3 hodd⟩))

/-- What a successful ENCRYPT had before it and leaves behind. -/
theorem exec_encrypt_success {s t : State} (ht : exec .encrypt s = .next t) (hcode : t.status.errcode = 0#4) :
    s.Paddable (s.slot .m) ∧ s.padded (s.slot .m) < s.slot .n ∧
      t = s.succeeded { s.slots with padv := s.padded (s.slot .m), c := s.padded (s.slot .m) ^ 2 % s.slot .n } := by
  rcases exec_encrypt_cases s with ⟨-, he⟩ | ⟨-, -, he⟩ | ⟨-, -, -, he⟩ | ⟨hpad, hlt, -, -, he⟩ <;>
    rw [he] at ht <;> cases ht
  · exact absurd hcode (by decide : 1#4 ≠ 0#4)
  · exact absurd hcode (by decide : 2#4 ≠ 0#4)
  · exact absurd hcode (by decide : 5#4 ≠ 0#4)
  · exact ⟨hpad, hlt, rfl⟩

/-- Settles O39: N is below 2^W, so a padded value too large for PADV is too large for N; every other end of ENCRYPT is
the end of PAD or of the MODSQR that reads the padded value. -/
theorem encryptIsPadThenModsqr : Obligations.EncryptIsPadThenModsqr := by
  intro s t u hs ht hu
  have hn : s.slot .n < 2 ^ s.params.w := hs.slots .n
  rcases exec_encrypt_cases s with
    ⟨hpad, he⟩ | ⟨hpad, hle, he⟩ | ⟨hpad, hlt, hmod, he⟩ | ⟨hpad, hlt, h3, hodd, he⟩ <;> rw [he] at hu <;> cases hu
  · rw [exec_pad_of_not_paddable hpad] at ht
    cases ht
    exact ⟨fun _ => rfl, fun h => absurd h (by decide : 1#4 ≠ 0#4)⟩
  · rcases le_or_gt (2 ^ s.params.w) (s.padded (s.slot .m)) with hbig | hfits
    · rw [exec_pad_of_too_large hpad hbig] at ht
      cases ht
      exact ⟨fun _ => rfl, fun h => absurd h (by decide : 2#4 ≠ 0#4)⟩
    · rw [exec_pad_of_fits hpad hfits] at ht
      cases ht
      exact ⟨fun h => absurd rfl h, fun _ =>
        ⟨_, exec_modsqr_of_range hle, rfl, fun h => absurd h (by decide : 2#4 ≠ 0#4)⟩⟩
  · rw [exec_pad_of_fits hpad (hlt.trans hn)] at ht
    cases ht
    exact ⟨fun h => absurd rfl h, fun _ =>
      ⟨_, exec_modsqr_of_bad_modulus hlt hmod, rfl, fun h => absurd h (by decide : 5#4 ≠ 0#4)⟩⟩
  · rw [exec_pad_of_fits hpad (hlt.trans hn)] at ht
    cases ht
    exact ⟨fun h => absurd rfl h, fun _ => ⟨_, exec_modsqr_of_modulus hlt h3 hodd, rfl, fun _ => rfl⟩⟩

/-! ## The residues of the candidates (R77, R78) -/

/-- The integer r is a modulo p and b modulo q. -/
def HasResidues (p q : Nat) (r a b : Int) : Prop := r ≡ a [ZMOD p] ∧ r ≡ b [ZMOD q]

section
variable {p q : Nat} {r r' a b : Int}

/-- A Bézout pair combines two residues. -/
theorem hasResidues_combination {x y : Int} (hxy : x * p + y * q = 1) (a b : Int) :
    HasResidues p q ((x * p * b + y * q * a) % (p * q)) a b := by
  have hp : x * p * b + y * q * a ≡ a [ZMOD p] :=
    Int.modEq_iff_dvd.2 ⟨x * (a - b), by linear_combination (-a) * hxy⟩
  have hq : x * p * b + y * q * a ≡ b [ZMOD q] :=
    Int.modEq_iff_dvd.2 ⟨y * (b - a), by linear_combination (-b) * hxy⟩
  exact ⟨((Int.mod_modEq _ _).of_mul_right _).trans hp, ((Int.mod_modEq _ _).of_mul_left _).trans hq⟩

/-- Coprime moduli leave one integer modulo p q for two residues. -/
theorem HasResidues.modEq (hg : Nat.gcd p q = 1) (h : HasResidues p q r a b) (h' : HasResidues p q r' a b) :
    r ≡ r' [ZMOD (p * q : Nat)] := by
  rw [Nat.cast_mul, ← Int.modEq_and_modEq_iff_modEq_mul (by simpa using hg)]
  exact ⟨h.1.trans h'.1.symm, h.2.trans h'.2.symm⟩

/-- Two residues below p q that agree modulo p and modulo q are equal. -/
theorem HasResidues.eq_of_lt (hg : Nat.gcd p q = 1) {m n : Nat} (h : HasResidues p q m a b)
    (h' : HasResidues p q n a b) (hm : m < p * q) (hn : n < p * q) : m = n :=
  (Int.natCast_modEq_iff.1 (h.modEq hg h')).eq_of_lt_of_lt hm hn

/-- The integer n - r has the opposite residues. -/
theorem HasResidues.complement (h : HasResidues p q r a b) : HasResidues p q ((p * q : Nat) - r) (-a) (-b) := by
  have hp : ((p * q : Nat) : Int) ≡ 0 [ZMOD p] := Int.modEq_zero_iff_dvd.2 ⟨q, by push_cast; ring⟩
  have hq : ((p * q : Nat) : Int) ≡ 0 [ZMOD q] := Int.modEq_zero_iff_dvd.2 ⟨p, by push_cast; ring⟩
  exact ⟨by simpa using hp.sub h.1, by simpa using hq.sub h.2⟩

/-- An integer whose residues are square roots of c is one of c modulo p q. -/
theorem HasResidues.sq (hg : Nat.gcd p q = 1) {m c : Nat} (h : HasResidues p q m a b) (ha : a ^ 2 ≡ c [ZMOD p])
    (hb : b ^ 2 ≡ c [ZMOD q]) : m ^ 2 ≡ c [MOD p * q] := by
  have hsq : HasResidues p q ((m : Int) ^ 2) c c := ⟨(h.1.pow 2).trans ha, (h.2.pow 2).trans hb⟩
  have hmod := hsq.modEq hg ⟨rfl, rfl⟩
  exact_mod_cast hmod

/-- The reduced complement of r below n is r itself for r = 0, and n - r otherwise. -/
theorem complement_mod {n r : Nat} (hr : r < n) : (r = 0 ∧ (n - r) % n = r) ∨ (n - r) % n = n - r := by
  rcases Nat.eq_zero_or_pos r with rfl | hpos
  · exact .inl ⟨rfl, Nat.mod_self n⟩
  · exact .inr (Nat.mod_eq_of_lt (by omega))

/-- Integers below n with opposite residues are complements, or both 0. -/
theorem HasResidues.eq_or_eq_complement (hg : Nat.gcd p q = 1) {r t : Nat} (h : HasResidues p q r a b)
    (h' : HasResidues p q t (-a) (-b)) (hr : r < p * q) (ht : t < p * q) : t = r ∨ t = p * q - r := by
  have hmod := h'.modEq hg h.complement
  rw [← Nat.cast_sub hr.le, Int.natCast_modEq_iff, Nat.ModEq, Nat.mod_eq_of_lt ht] at hmod
  rw [hmod]
  exact (complement_mod hr).imp_left And.right

end

/-- The integer t is one of the four candidates of R77. -/
def IsCrtCandidate (p q mp mq t : Nat) : Prop :=
  t = (crtCandidates p q mp mq).1 ∨ t = (crtCandidates p q mp mq).2.1 ∨ t = (crtCandidates p q mp mq).2.2.1 ∨
    t = (crtCandidates p q mp mq).2.2.2

theorem egcd_bezout_of_coprime {p q : Nat} (hg : Nat.gcd p q = 1) : (egcd p q).x * p + (egcd p q).y * q = 1 := by
  rw [← egcd_bezout, egcd_gcd, hg, Nat.cast_one]

section
variable {p q : Nat} (hn : 0 < p * q) (mp mq : Nat)
include hn

theorem crtCandidates_fst_lt : (crtCandidates p q mp mq).1 < p * q := by
  rw [crtCandidates_eq mp mq hn]
  exact crtSum_lt _ mp mq rfl hn

theorem crtCandidates_third_lt : (crtCandidates p q mp mq).2.2.1 < p * q := by
  rw [crtCandidates_eq mp mq hn]
  exact crtDifference_lt _ mp mq rfl hn

theorem crtCandidates_second : (crtCandidates p q mp mq).2.1 = p * q - (crtCandidates p q mp mq).1 := by
  rw [crtCandidates_eq mp mq hn]

theorem crtCandidates_fourth : (crtCandidates p q mp mq).2.2.2 = p * q - (crtCandidates p q mp mq).2.2.1 := by
  rw [crtCandidates_eq mp mq hn]

variable (hg : Nat.gcd p q = 1)
include hg

theorem crtCandidates_fst_hasResidues : HasResidues p q (crtCandidates p q mp mq).1 mp mq := by
  have h := hasResidues_combination (egcd_bezout_of_coprime hg) mp mq
  rwa [← Int.toNat_of_nonneg (Int.emod_nonneg _ (by exact_mod_cast hn.ne'))] at h

theorem crtCandidates_third_hasResidues : HasResidues p q (crtCandidates p q mp mq).2.2.1 (-mp) mq := by
  have h := hasResidues_combination (egcd_bezout_of_coprime hg) (-mp) mq
  rwa [← Int.toNat_of_nonneg (Int.emod_nonneg _ (by exact_mod_cast hn.ne')), mul_neg, ← sub_eq_add_neg] at h

theorem crtCandidates_second_hasResidues : HasResidues p q (crtCandidates p q mp mq).2.1 (-mp) (-mq) := by
  rw [crtCandidates_second hn, Nat.cast_sub (crtCandidates_fst_lt hn mp mq).le]
  exact (crtCandidates_fst_hasResidues hn mp mq hg).complement

theorem crtCandidates_fourth_hasResidues : HasResidues p q (crtCandidates p q mp mq).2.2.2 mp (-mq) := by
  rw [crtCandidates_fourth hn, Nat.cast_sub (crtCandidates_third_lt hn mp mq).le]
  simpa only [neg_neg] using (crtCandidates_third_hasResidues hn mp mq hg).complement

/-- An integer below n that is up to sign mp modulo p and mq modulo q is a candidate. -/
theorem isCrtCandidate_of_modEq {t : Nat} (ht : t < p * q) (hp : (t : Int) ≡ mp [ZMOD p] ∨ (t : Int) ≡ -mp [ZMOD p])
    (hq : (t : Int) ≡ mq [ZMOD q] ∨ (t : Int) ≡ -mq [ZMOD q]) : IsCrtCandidate p q mp mq t := by
  have h1 := crtCandidates_fst_hasResidues hn mp mq hg
  have h3 := crtCandidates_third_hasResidues hn mp mq hg
  have hlt1 := crtCandidates_fst_lt hn mp mq
  have hlt3 := crtCandidates_third_lt hn mp mq
  rw [IsCrtCandidate, crtCandidates_second hn, crtCandidates_fourth hn]
  rcases hp with hp | hp <;> rcases hq with hq | hq
  · exact .inl (HasResidues.eq_of_lt hg ⟨hp, hq⟩ h1 ht hlt1)
  · have hopp : HasResidues p q t (- -mp) (-mq) := ⟨by rwa [neg_neg], hq⟩
    have := h3.eq_or_eq_complement hg hopp hlt3 ht
    omega
  · exact .inr (.inr (.inl (HasResidues.eq_of_lt hg ⟨hp, hq⟩ h3 ht hlt3)))
  · have := h1.eq_or_eq_complement hg ⟨hp, hq⟩ hlt1 ht
    omega

/-- A zero root modulo p has one sign, so both combinations agree (R78). -/
theorem crtCandidates_third_of_left_zero : (crtCandidates p q 0 mq).2.2.1 = (crtCandidates p q 0 mq).1 :=
  HasResidues.eq_of_lt hg (crtCandidates_third_hasResidues hn 0 mq hg) (crtCandidates_fst_hasResidues hn 0 mq hg)
    (crtCandidates_third_lt hn 0 mq) (crtCandidates_fst_lt hn 0 mq)

/-- A zero root modulo q has one sign, so r3 is the reduced complement of r1 (R78). -/
theorem crtCandidates_third_of_right_zero :
    (crtCandidates p q mp 0).2.2.1 = (crtCandidates p q mp 0).2.1 % (p * q) := by
  have hmod := (crtCandidates_third_hasResidues hn mp 0 hg).modEq hg (crtCandidates_second_hasResidues hn mp 0 hg)
  rw [← Nat.mod_eq_of_lt (crtCandidates_third_lt hn mp 0)]
  exact Int.natCast_modEq_iff.1 hmod

/-- A zero root leaves at most the two values r1 and n - r1 (R78). -/
theorem crtCandidates_card_le_two (h0 : mp = 0 ∨ mq = 0) :
    ({(crtCandidates p q mp mq).1, (crtCandidates p q mp mq).2.1, (crtCandidates p q mp mq).2.2.1,
      (crtCandidates p q mp mq).2.2.2} : Finset Nat).card ≤ 2 := by
  have hlt := crtCandidates_fst_lt hn mp mq
  have hthird : (crtCandidates p q mp mq).2.2.1 = (crtCandidates p q mp mq).1 ∨
      (crtCandidates p q mp mq).2.2.1 = p * q - (crtCandidates p q mp mq).1 := by
    rcases h0 with rfl | rfl
    · exact .inl (crtCandidates_third_of_left_zero hn mq hg)
    · rw [crtCandidates_third_of_right_zero hn mp hg, crtCandidates_second hn]
      exact (complement_mod hlt).imp_left And.right
  refine (Finset.card_le_card (t := {(crtCandidates p q mp mq).1, (crtCandidates p q mp mq).2.1}) ?_).trans
    Finset.card_le_two
  intro c hc
  simp only [Finset.mem_insert, Finset.mem_singleton, crtCandidates_second hn, crtCandidates_fourth hn] at hc ⊢
  omega

/-- The first and third candidate do not depend on the Bézout pair (R78). -/
theorem crtCandidates_eq_of_bezout {x y : Int} (hxy : x * p + y * q = 1) :
    ((crtCandidates p q mp mq).1 : Int) = (x * p * mq + y * q * mp) % (p * q) ∧
      ((crtCandidates p q mp mq).2.2.1 : Int) = (x * p * mq - y * q * mp) % (p * q) := by
  have h1 := (crtCandidates_fst_hasResidues hn mp mq hg).modEq hg (hasResidues_combination hxy mp mq)
  have h3 := (crtCandidates_third_hasResidues hn mp mq hg).modEq hg (hasResidues_combination hxy (-mp) mq)
  have hlt1 : ((crtCandidates p q mp mq).1 : Int) < p * q := mod_cast crtCandidates_fst_lt hn mp mq
  have hlt3 : ((crtCandidates p q mp mq).2.2.1 : Int) < p * q := mod_cast crtCandidates_third_lt hn mp mq
  rw [Int.ModEq, Nat.cast_mul, Int.emod_emod, Int.emod_eq_of_lt (by positivity) (by assumption)] at h1 h3
  exact ⟨h1, by rw [h3, mul_neg, sub_eq_add_neg]⟩

/-- The four candidates have the residues of the roots up to sign, so roots of c give roots of c modulo n (R78). -/
theorem crtCandidates_sq {c : Nat} (hp : mp ^ 2 ≡ c [MOD p]) (hq : mq ^ 2 ≡ c [MOD q]) :
    (crtCandidates p q mp mq).1 ^ 2 ≡ c [MOD p * q] ∧ (crtCandidates p q mp mq).2.1 ^ 2 ≡ c [MOD p * q] ∧
      (crtCandidates p q mp mq).2.2.1 ^ 2 ≡ c [MOD p * q] ∧ (crtCandidates p q mp mq).2.2.2 ^ 2 ≡ c [MOD p * q] := by
  have hp' : (mp : Int) ^ 2 ≡ c [ZMOD p] := mod_cast Int.natCast_modEq_iff.2 hp
  have hq' : (mq : Int) ^ 2 ≡ c [ZMOD q] := mod_cast Int.natCast_modEq_iff.2 hq
  have hp'' : (-mp : Int) ^ 2 ≡ c [ZMOD p] := by rwa [neg_sq]
  have hq'' : (-mq : Int) ^ 2 ≡ c [ZMOD q] := by rwa [neg_sq]
  exact ⟨(crtCandidates_fst_hasResidues hn mp mq hg).sq hg hp' hq',
    (crtCandidates_second_hasResidues hn mp mq hg).sq hg hp'' hq'',
    (crtCandidates_third_hasResidues hn mp mq hg).sq hg hp'' hq',
    (crtCandidates_fourth_hasResidues hn mp mq hg).sq hg hp' hq''⟩

end

/-- Settles O37: every clause reads the candidates' residues modulo p and modulo q, which fix them below n. -/
theorem crtCandidatesAreTheCombinedRoots : Obligations.CrtCandidatesAreTheCombinedRoots := by
  intro p q mp mq hg hn
  obtain ⟨hp1, hq1⟩ := crtCandidates_fst_hasResidues hn mp mq hg
  obtain ⟨hp3, hq3⟩ := crtCandidates_third_hasResidues hn mp mq hg
  refine ⟨Int.natCast_modEq_iff.1 hp1, Int.natCast_modEq_iff.1 hq1, ?_, Int.natCast_modEq_iff.1 hq3,
    fun _ _ => crtCandidates_eq_of_bezout hn mp mq hg, ?_, ?_, crtCandidates_card_le_two hn mp mq hg,
    fun _ => crtCandidates_sq hn mp mq hg⟩
  · have hsum := hp3.add_right (mp : Int)
    rw [neg_add_cancel] at hsum
    exact_mod_cast hsum
  · rintro rfl
    exact crtCandidates_third_of_left_zero hn mq hg
  · rintro rfl
    exact crtCandidates_third_of_right_zero hn mp hg

/-! ## SQRT and CRT (R75, R76, R79) -/

/-- Settles O35: the word by its fields, and the key check before the two closed forms. -/
theorem sqrtWritesTheClosedForm : Obligations.SqrtWritesTheClosedForm := by
  refine ⟨onlyWord_of_not_usesLen (i := .sqrt) rfl, fun s => ⟨fun hkey => ?_, fun hp hq => ?_⟩⟩
  · rw [exec_eq, ruleOf, ruleSqrt, if_neg (by rwa [keyOk_iff]), State.finish_fail]
    rfl
  · rw [exec_eq, ruleOf, ruleSqrt, if_pos ((keyOk_iff _ _).2 ⟨hp, hq⟩), root_eq, root_eq, State.finish_succeed]
    rfl

/-- The completion step commits the writes that CRT, DECRYPT and DECBLK share, each to its own slot (R52). -/
theorem State.completeOk_combined (s : State) (w : Nat) (k : Combined) :
    s.completeOk (k.writes w) =
      s.succeeded
        { s.slots with
          g := k.bezout.g
          x := twosComplement w k.bezout.x
          y := twosComplement w k.bezout.y
          cand0 := k.k0
          cand1 := k.k1
          cand2 := k.k2
          cand3 := k.k3 } := by
  simp only [State.completeOk, State.succeeded, Combined.writes, State.commit_cons, State.commit_nil,
    State.commitWrite_slot, State.setSlot, Slots.set]

/-- The completion step of a successful DECRYPT (R52, R81). -/
theorem State.completeOk_decrypted (s : State) (w : Nat) (d : Decrypted) :
    s.completeOk (d.writes w) =
      s.succeeded
        { s.slots with
          mp := d.mp
          mq := d.mq
          g := d.combined.bezout.g
          x := twosComplement w d.combined.bezout.x
          y := twosComplement w d.combined.bezout.y
          cand0 := d.combined.k0
          cand1 := d.combined.k1
          cand2 := d.combined.k2
          cand3 := d.combined.k3
          padv := d.selected.cand
          m := d.selected.plain } := by
  simp only [State.completeOk, State.succeeded, Decrypted.writes, Combined.writes, List.cons_append, List.nil_append,
    State.commit_cons, State.commit_nil, State.commitWrite_slot, State.setSlot, Slots.set]

/-- For coprime P and Q the Bézout triple begins with 1. -/
theorem egcd_eq_of_coprime {p q : Nat} (hg : Nat.gcd p q = 1) : egcd p q = ⟨1, (egcd p q).x, (egcd p q).y⟩ := by
  rw [← hg, ← egcd_gcd]

section
variable {s : State}

theorem exec_crt_of_gcd (hg : Nat.gcd (s.slot .p) (s.slot .q) ≠ 1) : exec .crt s = .next (s.failed 4#4) := by
  simp only [exec_eq, ruleOf, ruleCrt, combine_gcd _ _ hg, State.finish_fail]
  rfl

variable (hg : Nat.gcd (s.slot .p) (s.slot .q) = 1)
include hg

theorem exec_crt_of_bad_modulus
    (h : 2 ^ s.params.w ≤ s.slot .p * s.slot .q ∨ s.slot .p * s.slot .q < 3 ∨ s.slot .p * s.slot .q % 2 = 0) :
    exec .crt s = .next (s.failed 5#4) := by
  simp only [exec_eq, ruleOf, ruleCrt, combine_key _ _ hg h, State.finish_fail]
  rfl

theorem exec_crt_of_modulus (hw : s.slot .p * s.slot .q < 2 ^ s.params.w) (h3 : 3 ≤ s.slot .p * s.slot .q)
    (hodd : s.slot .p * s.slot .q % 2 = 1) :
    exec .crt s =
      .next
        (s.succeeded
          { s.slots with
            g := 1
            x := twosComplement s.params.w (egcd (s.slot .p) (s.slot .q)).x
            y := twosComplement s.params.w (egcd (s.slot .p) (s.slot .q)).y
            cand0 := (crtCandidates (s.slot .p) (s.slot .q) (s.slot .mp) (s.slot .mq)).1
            cand1 := (crtCandidates (s.slot .p) (s.slot .q) (s.slot .mp) (s.slot .mq)).2.1
            cand2 := (crtCandidates (s.slot .p) (s.slot .q) (s.slot .mp) (s.slot .mq)).2.2.1
            cand3 := (crtCandidates (s.slot .p) (s.slot .q) (s.slot .mp) (s.slot .mq)).2.2.2 }) := by
  have hg1 : (egcd (s.slot .p) (s.slot .q)).g = 1 := (egcd_gcd _ _).trans hg
  simp only [exec_eq, ruleOf, ruleCrt, combine_ok _ _ hg hw h3 hodd, State.finish_succeed, State.completeOk_combined,
    hg1]

end

/-- Settles O36: the word by its fields, and the three ends of the combination. -/
theorem crtWritesTheCandidates : Obligations.CrtWritesTheCandidates :=
  ⟨onlyWord_of_not_usesLen (i := .crt) rfl, fun _ =>
    ⟨exec_crt_of_gcd, exec_crt_of_bad_modulus, exec_crt_of_modulus⟩⟩

/-! ## Decryption of one integer (R81) -/

section
variable {s : State} {c : Nat} (hp : s.slot .p % 4 = 3) (hq : s.slot .q % 4 = 3)
include hp hq

theorem State.decryptInteger_gcd (hg : Nat.gcd (s.slot .p) (s.slot .q) ≠ 1) :
    s.decryptInteger c = ⟨none, .error .internalInvariant⟩ := by
  simp only [State.decryptInteger_eq c hp hq, combine_gcd _ _ hg]

variable (hg : Nat.gcd (s.slot .p) (s.slot .q) = 1)
include hg

theorem State.decryptInteger_large (hw : 2 ^ s.params.w ≤ s.slot .p * s.slot .q) :
    s.decryptInteger c = ⟨none, .error .key⟩ := by
  simp only [State.decryptInteger_eq c hp hq, combine_key _ _ hg (.inl hw)]

variable (hw : s.slot .p * s.slot .q < 2 ^ s.params.w) {k0 k1 k2 k3 : Nat}
  (hk : (k0, k1, k2, k3) =
    crtCandidates (s.slot .p) (s.slot .q) (closedRoot c (s.slot .p)) (closedRoot c (s.slot .q)))
include hw hk

/-- Past the checks of the key, what is left is the selection among the four candidates. -/
theorem State.decryptInteger_select :
    s.decryptInteger c =
      ⟨(s.strategy.select [k0, k1, k2, k3]).counted,
        (s.strategy.select [k0, k1, k2, k3]).value.map fun r =>
          ⟨closedRoot c (s.slot .p), closedRoot c (s.slot .q),
            ⟨⟨1, (egcd (s.slot .p) (s.slot .q)).x, (egcd (s.slot .p) (s.slot .q)).y⟩, k0, k1, k2, k3⟩, r⟩⟩ := by
  obtain ⟨h3, hodd⟩ := key_product_odd hp hq
  simp only [State.decryptInteger_eq c hp hq, combine_ok _ _ hg hw h3 hodd, ← hk, ← egcd_eq_of_coprime hg]
  cases (s.strategy.select [k0, k1, k2, k3]).value <;> rfl

theorem State.decryptInteger_param (hz : s.ParamZero) : s.decryptInteger c = ⟨none, .error .parameter⟩ := by
  rw [State.decryptInteger_select hp hq hg hw hk, State.select_param hz]
  rfl

variable (hz : ¬ s.ParamZero) {d : Finset Nat} (hd : s.MatchSet {k0, k1, k2, k3} d)
include hz hd

/-- No match among the candidates or several end in DisambiguationError (R68). -/
theorem State.decryptInteger_of_card_ne_one (hcard : d.card ≠ 1) :
    s.decryptInteger c = ⟨some (BitVec.ofNat 3 d.card), .error .disambiguation⟩ := by
  have hset : s.MatchSet [k0, k1, k2, k3].toFinset d := by simpa using hd
  rw [State.decryptInteger_select hp hq hg hw hk, State.select_error hz hset hcard]
  rfl

/-- One match among the candidates is the padded value (R68). -/
theorem State.decryptInteger_of_singleton {t : Nat} (ht : d = {t}) :
    s.decryptInteger c =
      ⟨some 1#3,
        .ok ⟨closedRoot c (s.slot .p), closedRoot c (s.slot .q),
          ⟨⟨1, (egcd (s.slot .p) (s.slot .q)).x, (egcd (s.slot .p) (s.slot .q)).y⟩, k0, k1, k2, k3⟩,
          ⟨t, t / 2 ^ s.padWidth⟩⟩⟩ := by
  have hset : s.MatchSet [k0, k1, k2, k3].toFinset d := by simpa using hd
  rw [State.decryptInteger_select hp hq hg hw hk, State.select_one hz hset ht]
  rfl

end

/-! ## DECRYPT (R81) -/

section
variable {s : State} {counted : Option (BitVec 3)}

/-- DECRYPT reports the error of the integer's decryption, with its count. -/
theorem exec_decrypt_of_error {e : Err} (h : s.decryptInteger (s.slot .c) = ⟨counted, .error e⟩) :
    exec .decrypt s = .next (State.raiseError { s with status := s.status.count counted } e) := by
  rw [exec_eq, ruleOf, ruleDecrypt, h]
  rfl

/-- DECRYPT commits what the integer's decryption computes, with its count. -/
theorem exec_decrypt_of_ok {d : Decrypted} (h : s.decryptInteger (s.slot .c) = ⟨counted, .ok d⟩) :
    exec .decrypt s =
      .next (State.completeOk { s with status := s.status.count counted } (d.writes s.params.w)) := by
  rw [exec_eq, ruleOf, ruleDecrypt, h]
  rfl

end

/-- Settles O40: the word by its fields, and the ends of the integer's decryption in the order of the checks. -/
theorem decryptRootsCombinesAndSelects : Obligations.DecryptRootsCombinesAndSelects := by
  refine ⟨onlyWord_of_not_usesLen (i := .decrypt) rfl, ?_⟩
  rintro s mp mq k0 k1 k2 k3 d rfl rfl hk hd
  refine ⟨fun hkey => exec_decrypt_of_error (State.decryptInteger_key _ hkey), fun hp hq =>
    ⟨fun hg => exec_decrypt_of_error (State.decryptInteger_gcd hp hq hg),
      fun hg hw => exec_decrypt_of_error (State.decryptInteger_large hp hq hg hw), fun hg hw => ⟨?_, ?_, ?_⟩⟩⟩
  · exact fun hz => exec_decrypt_of_error (State.decryptInteger_param hp hq hg hw hk hz)
  · exact fun hz hcard => exec_decrypt_of_error (State.decryptInteger_of_card_ne_one hp hq hg hw hk hz hd hcard)
  · intro t hz ht
    rw [exec_decrypt_of_ok (State.decryptInteger_of_singleton hp hq hg hw hk hz hd ht), State.completeOk_decrypted]
    rfl

/-! ## The round trip (R82) -/

/-- The closed form of a square is one of its two roots, by Fermat's little theorem (R75, R78). -/
theorem modEq_closedRoot_or_neg {p c t : Nat} (hprime : p.Prime) (hp : p % 4 = 3) (hc : c ≡ t ^ 2 [MOD p]) :
    (t : Int) ≡ closedRoot c p [ZMOD p] ∨ (t : Int) ≡ -closedRoot c p [ZMOD p] := by
  have : Fact p.Prime := ⟨hprime⟩
  have hroot : (closedRoot c p : ZMod p) = (t : ZMod p) ^ (2 * ((p + 1) / 4)) := by
    rw [closedRoot, ZMod.natCast_mod, Nat.cast_pow, (ZMod.natCast_eq_natCast_iff _ _ _).2 hc, Nat.cast_pow, pow_mul]
  have hsq : (t : ZMod p) ^ 2 = (closedRoot c p : ZMod p) ^ 2 :=
    calc (t : ZMod p) ^ 2 = (t : ZMod p) ^ p * t := by rw [ZMod.pow_card, pow_two]
      _ = (t : ZMod p) ^ (2 * ((p + 1) / 4) * 2) := by rw [← pow_succ]; congr 1; omega
      _ = (closedRoot c p : ZMod p) ^ 2 := by rw [hroot, pow_mul]
  have hor := sq_eq_sq_iff_eq_or_eq_neg.1 hsq
  rw [← ZMod.intCast_eq_intCast_iff, ← ZMod.intCast_eq_intCast_iff]
  exact_mod_cast hor

/-- A valid key of the scheme: distinct primes congruent to 3 modulo 4 (R82). -/
structure ValidKey (p q : Nat) : Prop where
  primeP : p.Prime
  primeQ : q.Prime
  ne : p ≠ q
  modP : p % 4 = 3
  modQ : q % 4 = 3

section
variable {p q : Nat} (hkey : ValidKey p q)
include hkey

theorem ValidKey.coprime : Nat.gcd p q = 1 := (Nat.coprime_primes hkey.primeP hkey.primeQ).2 hkey.ne

/-- A value below n is a candidate for its own square (R82). -/
theorem ValidKey.isCrtCandidate_sq {t : Nat} (ht : t < p * q) :
    IsCrtCandidate p q (closedRoot (t ^ 2 % (p * q)) p) (closedRoot (t ^ 2 % (p * q)) q) t :=
  isCrtCandidate_of_modEq (Nat.zero_lt_of_lt ht) _ _ hkey.coprime ht
    (modEq_closedRoot_or_neg hkey.primeP hkey.modP ((Nat.mod_modEq _ _).of_mul_right _))
    (modEq_closedRoot_or_neg hkey.primeQ hkey.modQ ((Nat.mod_modEq _ _).of_mul_left _))

end

/-- A matching value below n is found again from its square, unless a second candidate matches too (R82). -/
theorem ValidKey.decryptInteger_sq {s : State} (hkey : ValidKey (s.slot .p) (s.slot .q))
    (hw : s.slot .p * s.slot .q < 2 ^ s.params.w) (hz : ¬ s.ParamZero) {t : Nat}
    (ht : t < s.slot .p * s.slot .q) (hm : s.Matches t) :
    (∃ n, s.decryptInteger (t ^ 2 % (s.slot .p * s.slot .q)) = ⟨some n, .error .disambiguation⟩) ∨
      ∃ d : Decrypted, s.decryptInteger (t ^ 2 % (s.slot .p * s.slot .q)) = ⟨some 1#3, .ok d⟩ ∧
        d.selected = ⟨t, t / 2 ^ s.padWidth⟩ := by
  classical
  obtain ⟨k0, k1, k2, k3, hk⟩ : ∃ k0 k1 k2 k3, (k0, k1, k2, k3) =
      crtCandidates (s.slot .p) (s.slot .q) (closedRoot (t ^ 2 % (s.slot .p * s.slot .q)) (s.slot .p))
        (closedRoot (t ^ 2 % (s.slot .p * s.slot .q)) (s.slot .q)) := ⟨_, _, _, _, rfl⟩
  have hcand := hkey.isCrtCandidate_sq ht
  rw [IsCrtCandidate, ← hk] at hcand
  have hd : s.MatchSet {k0, k1, k2, k3} (({k0, k1, k2, k3} : Finset Nat).filter s.Matches) := fun _ => Finset.mem_filter
  have htd : t ∈ ({k0, k1, k2, k3} : Finset Nat).filter s.Matches := Finset.mem_filter.2 ⟨by simpa using hcand, hm⟩
  by_cases hcard : (({k0, k1, k2, k3} : Finset Nat).filter s.Matches).card = 1
  · obtain ⟨a, ha⟩ := Finset.card_eq_one.1 hcard
    obtain rfl : t = a := Finset.mem_singleton.1 (ha ▸ htd)
    exact .inr ⟨_, State.decryptInteger_of_singleton hkey.modP hkey.modQ hkey.coprime hw hk hz hd ha, rfl⟩
  · exact .inl ⟨_, State.decryptInteger_of_card_ne_one hkey.modP hkey.modQ hkey.coprime hw hk hz hd hcard⟩

/-- Settles O41: the padded value matches the strategy and is a candidate for its square, so a single match is it. -/
theorem decryptUndoesEncrypt : Obligations.DecryptUndoesEncrypt := by
  intro s t u hs hprimeP hprimeQ hne hmodP hmodQ hn ht hcode hu
  have hkey : ValidKey (s.slot .p) (s.slot .q) := ⟨hprimeP, hprimeQ, hne, hmodP, hmodQ⟩
  obtain ⟨hpad, hlt, rfl⟩ := exec_encrypt_success ht hcode
  have hw := hs.slots .n
  rw [hn] at hlt hw hu ⊢
  refine ⟨hkey.isCrtCandidate_sq hlt, ?_⟩
  rcases hkey.decryptInteger_sq (s := s.succeeded { s.slots with
      padv := s.padded (s.slot .m)
      c := s.padded (s.slot .m) ^ 2 % (s.slot .p * s.slot .q) }) hw hpad.1 hlt (s.matches_padded _) with
    ⟨n, hmany⟩ | ⟨d, hone, hsel⟩
  · rw [exec_decrypt_of_error hmany] at hu
    cases hu
    exact ⟨.inr rfl, fun h => absurd h (by decide : 3#4 ≠ 0#4)⟩
  · rw [exec_decrypt_of_ok hone, State.completeOk_decrypted, hsel] at hu
    cases hu
    exact ⟨.inl rfl, fun _ => ⟨s.padded_div _, rfl⟩⟩

end Sys2Proof.Machine
end

section
/-! SUPPORT. What the block codec's commands share: words that carry LEN (R54 to R57), and the bytes and decimal digits
at the start of a buffer (R10, R11). -/

namespace Sys2Proof

/-! ## Words that carry LEN (R54 to R57) -/

/-- The number of the word `(len << 16) | op`. -/
theorem lenWord_toNat (len : BitVec 16) {op : Word} (hop : op.toNat < 256) :
    (len.setWidth 32 <<< 16 ||| op).toNat = len.toNat * 65536 + op.toNat := by
  have hlen := len.isLt
  have hshift : (len.setWidth 32 <<< 16).toNat = len.toNat <<< 16 := by
    rw [BitVec.toNat_shiftLeft, BitVec.toNat_setWidth, Nat.shiftLeft_eq, Nat.shiftLeft_eq]
    omega
  rw [BitVec.toNat_or, hshift, ← Nat.shiftLeft_add_eq_or_of_lt (by omega : op.toNat < 2 ^ 16), Nat.shiftLeft_eq]

/-- The words of a command that uses LEN carry its count in the high half, and no reserved bit. -/
theorem Machine.lenWords_of_opcode {i : Nat → Instr} {op : Word} (hop : ∀ len, (i len).opcode = op.toNat)
    (hlen : ∀ len, (i len).len = len) : Machine.LenWords i op := by
  have hsmall : op.toNat < 256 := by
    have := (i 0).opcode_le
    rw [hop] at this
    omega
  refine ⟨fun len => ?_, fun v _ hv => (decode_illegal_iff_toNat v).2 (.inr (.inl hv))⟩
  rw [decode_eq_instr_iff_toNat, lenWord_toNat len hsmall, hop, hlen]
  omega

/-! ## Decimal text by its digits (R11) -/

theorem dec_length_le_iff (v k : Nat) : (dec v).length ≤ k ↔ v < 10 ^ k := by
  rw [dec_eq_digits, List.length_map, List.length_reverse, Nat.digits_length_le_iff (by norm_num)]

/-- Digit i of the decimal text, most significant first. -/
theorem dec_getElem_toNat (v : Nat) {i : Nat} (hi : i < (dec v).length) :
    (dec v)[i].toNat = 0x30 + v / 10 ^ ((dec v).length - 1 - i) % 10 := by
  have hlen : (dec v).length = (Nat.digits 10 v).length := by simp [dec_eq_digits]
  rw [hlen] at hi ⊢
  have hget : (dec v)[i] = digitByte (v / 10 ^ ((Nat.digits 10 v).length - 1 - i) % 10) := by
    rw [← Nat.getD_digits v _ (by norm_num), List.getD_eq_getElem _ _ (by omega)]
    simp [dec_eq_digits]
  rw [hget, digitByte_toNat (Nat.mod_lt _ (by norm_num))]

theorem all_isDigit_dec (v : Nat) : (dec v).all isDigit = true := List.all_eq_true.2 (dec_isDigit v)

namespace Machine

/-! ## The bytes at the start of a buffer (R10, R11) -/

theorem Memory.readBytes_getD (mem : Memory) {len i : Nat} (hi : i < len) (d : Byte) :
    (mem.readBytes 0 len).getD i d = mem.read i := by
  rw [List.getD_eq_getElem _ _ (by simpa using hi), Memory.readBytes_getElem, Nat.zero_add]

theorem Memory.mem_readBytes {mem : Memory} {len : Nat} {b : Byte} :
    b ∈ mem.readBytes 0 len ↔ ∃ i, i < len ∧ mem.read i = b := by
  simp only [List.mem_iff_getElem, Memory.readBytes_getElem, Memory.readBytes_length, Nat.zero_add, exists_prop]

theorem Memory.readBytes_add (mem : Memory) (i a b : Nat) :
    mem.readBytes i (a + b) = mem.readBytes i a ++ mem.readBytes (i + a) b := by
  induction a generalizing i with
  | zero => rw [Nat.zero_add]; rfl
  | succ a ih =>
    rw [Nat.succ_add, Memory.readBytes, ih, Memory.readBytes, List.cons_append, show i + 1 + a = i + (a + 1) by omega]

/-- The bytes up to an index and from it on. -/
theorem Memory.readBytes_split (mem : Memory) {i len : Nat} (h : i < len) :
    mem.readBytes 0 len = mem.readBytes 0 i ++ mem.read i :: mem.readBytes (i + 1) (len - i - 1) := by
  obtain ⟨k, rfl⟩ : ∃ k, len = i + (k + 1) := ⟨len - i - 1, by omega⟩
  rw [Memory.readBytes_add, Memory.readBytes, Nat.zero_add, show i + (k + 1) - i - 1 = k by omega]

theorem be_readBytes (mem : Memory) (len : Nat) : be (mem.readBytes 0 len) = beSum mem len := by
  rw [be_eq_sum, Memory.readBytes_length]
  refine Finset.sum_congr rfl fun i hi => ?_
  rw [Memory.readBytes_getD mem (Finset.mem_range.1 hi), pow_mul]
  rfl

theorem undec_readBytes (mem : Memory) (len : Nat) : undec (mem.readBytes 0 len) = undecSum mem len := by
  rw [undec_eq_sum, Memory.readBytes_length]
  exact Finset.sum_congr rfl fun i hi => by rw [Memory.readBytes_getD mem (Finset.mem_range.1 hi)]

theorem beSum_lt (mem : Memory) (len : Nat) : beSum mem len < 2 ^ (8 * len) := by
  have h := be_lt (mem.readBytes 0 len)
  rwa [be_readBytes, Memory.readBytes_length, show 256 = 2 ^ 8 from rfl, ← pow_mul] at h

/-- A block write puts the big-endian bytes at the start of the buffer. -/
theorem holdsBytes_writeBytes {mem : Memory} (h : mem.wf = true) (v len : Nat) :
    HoldsBytes mem (mem.writeBytes 0 (beBytes v len)) v len := by
  refine ⟨fun i hi => ?_, fun i hi => Memory.read_writeBytes_outside h (.inr (by simpa using hi))⟩
  rw [Memory.read_writeBytes h, if_pos i.zero_le, Nat.sub_zero, beBytes_getD_toNat v hi, pow_mul]
  rfl

/-- A buffer that agrees with the written bytes reads them. -/
theorem Memory.readBytes_of_agree {mem src : Memory} (h : src.wf = true) {bytes : List Byte}
    (hagree : ∀ i, i < bytes.length → mem.read i = (src.writeBytes 0 bytes).read i) :
    mem.readBytes 0 bytes.length = bytes :=
  (Memory.readBytes_congr fun k _ hk => hagree k (by omega)).trans (Memory.readBytes_writeBytes h 0 bytes)

/-- A buffer that agrees with the written big-endian bytes of a value that fits reads as the value. -/
theorem beSum_of_agree {mem src : Memory} (h : src.wf = true) {v len : Nat} (hv : v < 2 ^ (8 * len))
    (hagree : ∀ i, i < len → mem.read i = (src.writeBytes 0 (beBytes v len)).read i) : beSum mem len = v := by
  have hread := Memory.readBytes_of_agree h (bytes := beBytes v len) (by simpa using hagree)
  rw [beBytes_length] at hread
  rw [← be_readBytes, hread, be_beBytes]
  rwa [pow_mul] at hv

/-- The bytes of the value of a buffer's start are its bytes, leading zeros included. -/
theorem beBytes_beSum (mem : Memory) (len : Nat) : beBytes (beSum mem len) len = mem.readBytes 0 len := by
  have h := beBytes_be (mem.readBytes 0 len)
  rwa [be_readBytes, Memory.readBytes_length] at h

end Machine
end Sys2Proof
end

section
/-! SUPPORT. The block codec's data blocks: ENCBLK and DECBLK (R84, R85), and their round trip (R90). -/

namespace Sys2Proof.Machine

/-! ## ENCBLK (R84) -/

/-- What a successful integer encryption computes (R80). -/
theorem State.encryptInteger_eq_ok {s : State} {m : Nat} {r : Encrypted} (h : s.encryptInteger m = .ok r) :
    s.Paddable m ∧ s.padded m < s.slot .n ∧ r = ⟨s.padded m, s.padded m ^ 2 % s.slot .n⟩ := by
  obtain ⟨hpad, hpadded, hlt, -⟩ := State.encryptInteger_fits h
  rw [hpadded] at hlt
  refine ⟨hpad, hlt, ?_⟩
  by_cases hmod : s.slot .n < 3 ∨ s.slot .n % 2 = 0
  · rw [State.encryptInteger_key hpad hlt hmod] at h
    cases h
  · rw [State.encryptInteger_ok hpad hlt (by omega) (by omega)] at h
    exact (Except.ok.inj h).symm

/-- The completion step of a successful ENCBLK (R52, R84). -/
theorem State.completeOk_encryptedBlock (s : State) (m : Nat) (r : Encrypted) (bytes : List Byte) (n : BitVec 16) :
    s.completeOk [.slot .m m, .slot .padv r.padded, .slot .c r.cipher, .obuf bytes, .outlen n] =
      { s.succeeded { s.slots with m := m, padv := r.padded, c := r.cipher } with
        obuf := s.obuf.writeBytes 0 bytes, outlen := n } := by
  simp only [State.completeOk, State.succeeded, State.commit_cons, State.commit_nil, State.commitWrite_slot,
    State.commitWrite_obuf, State.commitWrite_outlen, State.setSlot, Slots.set]

theorem exec_encblk_of_bad_sizes {s : State} {len : Nat} (h : s.BadBlockSizes ∨ len = 0 ∨ s.ptb.toNat < len) :
    exec (.encblk len) s = .next (s.failed 6#4) := by
  have hchunk : ¬ s.chunkOk len = true := fun hok => (s.chunkOk_iff len).1 hok h
  rw [exec_eq, ruleOf, ruleEncblk, if_neg hchunk, State.finish_fail]
  rfl

section
variable {s : State} {len : Nat} (hok : ¬ (s.BadBlockSizes ∨ len = 0 ∨ s.ptb.toNat < len))
include hok

/-- ENCBLK reports the error of the integer's encryption. -/
theorem exec_encblk_of_error {e : Err} (h : s.encryptInteger (beSum s.ibuf len) = .error e) :
    exec (.encblk len) s = .next (s.raiseError e) := by
  simp only [exec_eq, ruleOf, ruleEncblk, if_pos ((s.chunkOk_iff len).2 hok), be_readBytes, h, State.finish_fail]

variable {r : Encrypted} (h : s.encryptInteger (beSum s.ibuf len) = .ok r)
include h

theorem exec_encblk_of_large (hbig : 2 ^ (8 * s.ctb.toNat) ≤ r.cipher) :
    exec (.encblk len) s = .next (s.failed 6#4) := by
  simp only [exec_eq, ruleOf, ruleEncblk, if_pos ((s.chunkOk_iff len).2 hok), be_readBytes, h, if_pos hbig,
    State.finish_fail]
  rfl

theorem exec_encblk_of_fits (hfits : r.cipher < 2 ^ (8 * s.ctb.toNat)) :
    exec (.encblk len) s =
      .next
        { s.succeeded { s.slots with m := beSum s.ibuf len, padv := r.padded, c := r.cipher } with
          obuf := s.obuf.writeBytes 0 (beBytes r.cipher s.ctb.toNat), outlen := s.ctb } := by
  simp only [exec_eq, ruleOf, ruleEncblk, if_pos ((s.chunkOk_iff len).2 hok), be_readBytes, h,
    if_neg (Nat.not_le.2 hfits), State.finish_succeed, State.completeOk_encryptedBlock]

end

/-- Settles O42: the words by their fields, and the ends of the rule in the order of its checks. -/
theorem encblkEncryptsOneChunk : Obligations.EncblkEncryptsOneChunk := by
  refine ⟨lenWords_of_opcode (fun _ => rfl) fun _ => rfl, ?_⟩
  rintro s len m hs rfl
  refine ⟨exec_encblk_of_bad_sizes, fun hok =>
    ⟨fun hpad => exec_encblk_of_error hok (State.encryptInteger_param hpad),
      fun hpad hle => exec_encblk_of_error hok (State.encryptInteger_range hpad hle),
      fun hpad hlt hmod => exec_encblk_of_error hok (State.encryptInteger_key hpad hlt hmod),
      fun hpad hlt h3 hodd => ?_⟩⟩
  have hcipher := State.encryptInteger_ok hpad hlt h3 hodd
  exact ⟨exec_encblk_of_large hok hcipher, fun hfits =>
    ⟨_, exec_encblk_of_fits hok hcipher hfits, holdsBytes_writeBytes hs.obufForm _ _⟩⟩

/-- What a successful ENCBLK had before it and leaves in OBUF and OUTLEN. -/
theorem exec_encblk_success {s t : State} {len : Nat} (ht : exec (.encblk len) s = .next t)
    (hcode : t.status.errcode = 0#4) :
    ¬ (s.BadBlockSizes ∨ len = 0 ∨ s.ptb.toNat < len) ∧ s.Paddable (beSum s.ibuf len) ∧
      s.padded (beSum s.ibuf len) < s.slot .n ∧
      s.padded (beSum s.ibuf len) ^ 2 % s.slot .n < 2 ^ (8 * s.ctb.toNat) ∧
      t.obuf = s.obuf.writeBytes 0 (beBytes (s.padded (beSum s.ibuf len) ^ 2 % s.slot .n) s.ctb.toNat) ∧
      t.outlen = s.ctb := by
  have hformat : (6#4 : BitVec 4) ≠ 0#4 := by decide
  by_cases hbad : s.BadBlockSizes ∨ len = 0 ∨ s.ptb.toNat < len
  · rw [exec_encblk_of_bad_sizes hbad] at ht
    cases ht
    exact absurd hcode hformat
  cases hint : s.encryptInteger (beSum s.ibuf len) with
  | error e =>
    rw [exec_encblk_of_error hbad hint] at ht
    cases ht
    exact absurd hcode e.code_ne_zero
  | ok r =>
    obtain ⟨hpad, hlt, rfl⟩ := State.encryptInteger_eq_ok hint
    rcases le_or_gt (2 ^ (8 * s.ctb.toNat)) (s.padded (beSum s.ibuf len) ^ 2 % s.slot .n) with hbig | hfits
    · rw [exec_encblk_of_large hbad hint hbig] at ht
      cases ht
      exact absurd hcode hformat
    · rw [exec_encblk_of_fits hbad hint hfits] at ht
      cases ht
      exact ⟨hbad, hpad, hlt, hfits, rfl, rfl⟩

/-! ## DECBLK (R85) -/

/-- The completion step of a successful DECBLK (R52, R85). -/
theorem State.completeOk_decryptedBlock (s : State) (w c : Nat) (d : Decrypted) (bytes : List Byte) (n : BitVec 16) :
    s.completeOk (.slot .c c :: d.writes w ++ [.obuf bytes, .outlen n]) =
      { s.succeeded
          { s.slots with
            c := c
            mp := d.mp
            mq := d.mq
            g := d.combined.bezout.g
            x := twosComplement w d.combined.bezout.x
            y := twosComplement w d.combined.bezout.y
            cand0 := d.combined.k0
            cand1 := d.combined.k1
            cand2 := d.combined.k2
            cand3 := d.combined.k3
            padv := d.selected.cand
            m := d.selected.plain } with
        obuf := s.obuf.writeBytes 0 bytes, outlen := n } := by
  simp only [State.completeOk, State.succeeded, Decrypted.writes, Combined.writes, List.cons_append, List.nil_append,
    State.commit_cons, State.commit_nil, State.commitWrite_slot, State.commitWrite_obuf, State.commitWrite_outlen,
    State.setSlot, Slots.set]

section
variable {s : State} {len : Nat}

theorem exec_decblk_of_bad_sizes
    (h : s.BadBlockSizes ∨ len = 0 ∨ s.ptb.toNat < len ∨ 2 ^ s.params.w ≤ beSum s.ibuf s.ctb.toNat) :
    exec (.decblk len) s = .next (s.failed 6#4) := by
  have hrule : ruleDecblk len s = fail .format := by
    by_cases hchunk : s.chunkOk len = true
    · have hbig : 2 ^ s.params.w ≤ beSum s.ibuf s.ctb.toNat := by
        have := (s.chunkOk_iff len).1 hchunk
        tauto
      rw [ruleDecblk, if_pos hchunk, be_readBytes, if_pos hbig]
    · rw [ruleDecblk, if_neg hchunk]
  rw [exec_eq, ruleOf, hrule, State.finish_fail]
  rfl

variable (hok : ¬ (s.BadBlockSizes ∨ len = 0 ∨ s.ptb.toNat < len ∨ 2 ^ s.params.w ≤ beSum s.ibuf s.ctb.toNat))
include hok

theorem decblk_sizes_pass : s.chunkOk len = true ∧ ¬ 2 ^ s.params.w ≤ beSum s.ibuf s.ctb.toNat := by
  rw [State.chunkOk_iff]
  tauto

variable {counted : Option (BitVec 3)}

/-- DECBLK reports the error of the integer's decryption, with its count. -/
theorem exec_decblk_of_error {e : Err} (h : s.decryptInteger (beSum s.ibuf s.ctb.toNat) = ⟨counted, .error e⟩) :
    exec (.decblk len) s = .next (State.raiseError { s with status := s.status.count counted } e) := by
  obtain ⟨hchunk, hnarrow⟩ := decblk_sizes_pass hok
  simp only [exec_eq, ruleOf, ruleDecblk, if_pos hchunk, be_readBytes, if_neg hnarrow, h]
  rfl

variable {d : Decrypted} (h : s.decryptInteger (beSum s.ibuf s.ctb.toNat) = ⟨counted, .ok d⟩)
include h

theorem exec_decblk_of_large (hbig : 2 ^ (8 * len) ≤ d.selected.plain) :
    exec (.decblk len) s = .next (State.raiseError { s with status := s.status.count counted } .format) := by
  obtain ⟨hchunk, hnarrow⟩ := decblk_sizes_pass hok
  simp only [exec_eq, ruleOf, ruleDecblk, if_pos hchunk, be_readBytes, if_neg hnarrow, h, if_pos hbig]
  rfl

theorem exec_decblk_of_fits (hfits : d.selected.plain < 2 ^ (8 * len)) :
    exec (.decblk len) s =
      .next
        (State.completeOk { s with status := s.status.count counted }
          (.slot .c (beSum s.ibuf s.ctb.toNat) :: d.writes s.params.w ++
            [.obuf (beBytes d.selected.plain len), .outlen (BitVec.ofNat 16 len)])) := by
  obtain ⟨hchunk, hnarrow⟩ := decblk_sizes_pass hok
  simp only [exec_eq, ruleOf, ruleDecblk, if_pos hchunk, be_readBytes, if_neg hnarrow, h, if_neg (Nat.not_le.2 hfits)]
  rfl

end

/-- Settles O43: the words by their fields, and the ends of the integer's decryption in the order of the checks. -/
theorem decblkDecryptsOneBlock : Obligations.DecblkDecryptsOneBlock := by
  refine ⟨lenWords_of_opcode (fun _ => rfl) fun _ => rfl, ?_⟩
  rintro s len c mp mq k0 k1 k2 k3 d hs rfl rfl rfl hk hd
  refine ⟨exec_decblk_of_bad_sizes, fun hok =>
    ⟨fun hkey => exec_decblk_of_error hok (State.decryptInteger_key _ hkey), fun hp hq =>
      ⟨fun hg => exec_decblk_of_error hok (State.decryptInteger_gcd hp hq hg),
        fun hg hw => exec_decblk_of_error hok (State.decryptInteger_large hp hq hg hw), fun hg hw =>
        ⟨fun hz => exec_decblk_of_error hok (State.decryptInteger_param hp hq hg hw hk hz),
          fun hz hcard => exec_decblk_of_error hok (State.decryptInteger_of_card_ne_one hp hq hg hw hk hz hd hcard),
          fun t hz ht hbig => ?_, fun t hz ht hfits => ?_⟩⟩⟩⟩
  · exact exec_decblk_of_large hok (State.decryptInteger_of_singleton hp hq hg hw hk hz hd ht) hbig
  · refine ⟨_, ?_, holdsBytes_writeBytes hs.obufForm _ _⟩
    rw [exec_decblk_of_fits hok (State.decryptInteger_of_singleton hp hq hg hw hk hz hd ht) hfits,
      State.completeOk_decryptedBlock]
    rfl

/-! ## The block round trip (R90) -/

/-- States with the same strategy pad alike. -/
theorem State.padding_congr {s u : State} (hpadcfg : u.padcfg = s.padcfg) (hsuf : u.slot .suf = s.slot .suf) :
    (∀ m, u.padded m = s.padded m) ∧ (u.ParamZero ↔ s.ParamZero) := by
  simp only [State.padded, State.ParamZero, hpadcfg, hsuf, implies_true, true_and]

/-- Settles O46: the block is the ciphertext, whose decryption finds the padded value or several matches, and the LEN
bytes of the plaintext are fixed by its value. -/
theorem blockCodecRoundTrips : Obligations.BlockCodecRoundTrips := by
  intro s t u v len hs hu hprimeP hprimeQ hne hmodP hmodQ hn hparams hptb hctb hpadcfg hsuf ht hcode hagree hv
  have hkey : ValidKey (u.slot .p) (u.slot .q) := ⟨hprimeP, hprimeQ, hne, hmodP, hmodQ⟩
  obtain ⟨hsizes, hpad, hlt, hfits, hobuf, houtlen⟩ := exec_encblk_success ht hcode
  obtain ⟨hpadded, hzero⟩ := State.padding_congr hpadcfg hsuf
  have hw : u.slot .p * u.slot .q < 2 ^ u.params.w := by rw [← hn, hparams]; exact hs.slots .n
  rw [hn, ← hpadded] at hlt hfits hobuf
  have hblock : beSum u.ibuf u.ctb.toNat = u.padded (beSum s.ibuf len) ^ 2 % (u.slot .p * u.slot .q) := by
    refine beSum_of_agree hs.obufForm (hctb ▸ hfits) fun i hi => ?_
    rw [hagree i (by rwa [houtlen, ← hctb]), hobuf, hctb]
  have hok : ¬ (u.BadBlockSizes ∨ len = 0 ∨ u.ptb.toNat < len ∨
      2 ^ u.params.w ≤ beSum u.ibuf u.ctb.toNat) := by
    have hmod := Nat.mod_lt (u.padded (beSum s.ibuf len) ^ 2) (Nat.zero_lt_of_lt hlt)
    have hbad : u.BadBlockSizes ↔ s.BadBlockSizes := by simp only [State.BadBlockSizes, hparams, hptb, hctb]
    have hnarrow : ¬ 2 ^ u.params.w ≤ beSum u.ibuf u.ctb.toNat := Nat.not_le.2 (hblock ▸ hmod.trans hw)
    rw [hbad, hptb]
    tauto
  have hround := hkey.decryptInteger_sq hw (hzero.not.2 hpad.1) hlt (u.matches_padded _)
  rw [← hblock] at hround
  obtain ⟨n, hmany⟩ | ⟨d, hone, hsel⟩ := hround
  · rw [exec_decblk_of_error hok hmany] at hv
    cases hv
    exact .inl rfl
  · have hplain : d.selected.plain = beSum s.ibuf len := by rw [hsel, u.padded_div]
    rw [exec_decblk_of_fits hok hone (hplain ▸ beSum_lt _ _), State.completeOk_decryptedBlock, hplain] at hv
    cases hv
    have hlen := s.ptb.isLt
    refine .inr ⟨rfl, ?_, fun i hi => ?_⟩
    · rw [BitVec.toNat_ofNat, Nat.mod_eq_of_lt (by omega)]
    · rw [beBytes_beSum, Memory.read_writeBytes hu.obufForm, if_pos i.zero_le, Nat.sub_zero,
        Memory.readBytes_getD _ hi]

end Sys2Proof.Machine
end

section
/-! SUPPORT. The block codec's header records: HDR_EMIT and HDR_PARSE (R86 to R88), and their round trip (R90). -/

namespace Sys2Proof.Machine

/-! ## HDR_EMIT (R86, R87) -/

theorem headerRecord_length (v : Nat) : (headerRecord v).length = (dec v).length + 1 := List.length_append

/-- The record of a value that fits a slot fits OBUF (R5). -/
theorem State.Inv.headerRecord_length_le {s : State} (h : s.Inv) (r : Slot) :
    (headerRecord (s.slot r)).length ≤ s.params.bufBytes := by
  obtain ⟨-, ⟨-, -, hbuf⟩, -⟩ := h.legal
  have hdigits := dec_length_mono (Nat.le_pred_of_lt (h.slots r))
  rw [max_le_iff, Params.digitsW] at hbuf
  rw [headerRecord_length]
  exact (Nat.succ_le_succ hdigits).trans hbuf.2

theorem exec_hdrEmit_of_bitCopy {s : State} (hv : s.padcfg.variant = 0#2 ∨ s.padcfg.variant = 1#2) :
    exec .hdrEmit s = .next { s.succeeded s.slots with outlen := 0#16 } := by
  simp only [exec_eq, ruleOf, ruleHdrEmit, State.strategy_bitCopy hv, State.finish_succeed]
  rfl

section
variable {s : State} (hv : s.padcfg.variant = 2#2 ∨ s.padcfg.variant = 3#2)
include hv

theorem exec_hdrEmit_of_zero (h0 : s.slot .suf = 0) : exec .hdrEmit s = .next (s.failed 1#4) := by
  simp only [exec_eq, ruleOf, ruleHdrEmit, State.strategy_suffix ((variant_high_iff _).1 hv), if_pos h0,
    State.finish_fail]
  rfl

variable (h0 : s.slot .suf ≠ 0)
include h0

theorem exec_hdrEmit_of_long (hlong : s.params.bufBytes < (headerRecord (s.slot .suf)).length) :
    exec .hdrEmit s = .next (s.failed 6#4) := by
  simp only [exec_eq, ruleOf, ruleHdrEmit, State.strategy_suffix ((variant_high_iff _).1 hv), if_neg h0,
    if_pos hlong, State.finish_fail]
  rfl

theorem exec_hdrEmit_of_fits (hfits : (headerRecord (s.slot .suf)).length ≤ s.params.bufBytes) :
    exec .hdrEmit s =
      .next
        { s.succeeded s.slots with
          obuf := s.obuf.writeBytes 0 (headerRecord (s.slot .suf))
          outlen := BitVec.ofNat 16 (headerRecord (s.slot .suf)).length } := by
  simp only [exec_eq, ruleOf, ruleHdrEmit, State.strategy_suffix ((variant_high_iff _).1 hv), if_neg h0,
    if_neg (Nat.not_lt.2 hfits), State.finish_succeed]
  rfl

end

/-- What a buffer reads after a block write of a header record. -/
theorem read_writeBytes_headerRecord {mem : Memory} (h : mem.wf = true) (v : Nat) :
    (∀ i, i < (dec v).length →
      ((mem.writeBytes 0 (headerRecord v)).read i).toNat = 0x30 + v / 10 ^ ((dec v).length - 1 - i) % 10) ∧
    (mem.writeBytes 0 (headerRecord v)).read (dec v).length = terminator ∧
    ∀ i, (dec v).length < i → (mem.writeBytes 0 (headerRecord v)).read i = mem.read i := by
  have hread : ∀ i, (mem.writeBytes 0 (headerRecord v)).read i = (headerRecord v).getD i (mem.read i) := fun i => by
    rw [Memory.read_writeBytes h, if_pos i.zero_le, Nat.sub_zero]
  simp only [hread]
  refine ⟨fun i hi => ?_, ?_, fun i hi => ?_⟩
  · rw [headerRecord, List.getD_append _ _ _ _ hi, List.getD_eq_getElem _ _ hi, dec_getElem_toNat]
  · rw [headerRecord, List.getD_append_right _ _ _ _ le_rfl, Nat.sub_self]
    rfl
  · exact List.getD_eq_default _ _ (by rw [headerRecord_length]; omega)

/-- Settles O44: the word by its fields, and the ends of the rule; whether the record fits depends on its digits. -/
theorem hdrEmitWritesTheRecord : Obligations.HdrEmitWritesTheRecord := by
  refine ⟨onlyWord_of_not_usesLen (i := .hdrEmit) rfl, fun s =>
    ⟨exec_hdrEmit_of_bitCopy, exec_hdrEmit_of_zero, fun hv hbuf h0 hlarge => ?_, fun hv h0 hs => ?_⟩⟩
  · have hdigits := (dec_length_le_iff (s.slot .suf) (s.params.bufBytes - 1)).not.2 (Nat.not_lt.2 hlarge)
    exact exec_hdrEmit_of_long hv h0 (by rw [headerRecord_length]; omega)
  · have hfits := hs.headerRecord_length_le .suf
    have hpos : 0 < (dec (s.slot .suf)).length := List.length_pos_iff.2 (dec_ne_nil h0)
    obtain ⟨hdigits, hterm, habove⟩ := read_writeBytes_headerRecord hs.obufForm (s.slot .suf)
    have hlow := (dec_length_le_iff (s.slot .suf) ((dec (s.slot .suf)).length - 1)).not.1 (by omega)
    have hexec := exec_hdrEmit_of_fits hv h0 hfits
    rw [headerRecord_length] at hfits hexec
    exact ⟨(dec_length_le_iff _ _).1 (by omega), _, _, hpos, Nat.not_lt.1 hlow, (dec_length_le_iff _ _).1 le_rfl,
      hexec, hdigits, hterm, habove⟩

/-! ## HDR_PARSE (R88) -/

theorem exec_hdrParse_of_bad_len {s : State} {len : Nat} (h : len = 0 ∨ s.params.bufBytes < len) :
    exec (.hdrParse len) s = .next (s.failed 6#4) := by
  rw [exec_eq, ruleOf, ruleHdrParse, if_pos h, State.finish_fail]
  rfl

section
variable {s : State} {len : Nat}

theorem exec_hdrParse_of_no_terminator (h : ∀ i, i < len → s.ibuf.read i ≠ terminator) :
    exec (.hdrParse len) s = .next (s.failed 6#4) := by
  by_cases hlen : len = 0 ∨ s.params.bufBytes < len
  · exact exec_hdrParse_of_bad_len hlen
  · have hnone : beforeTerminator (s.ibuf.readBytes 0 len) = none := by
      rw [beforeTerminator_none_iff, Memory.mem_readBytes]
      rintro ⟨i, hi, hread⟩
      exact h i hi hread
    simp only [exec_eq, ruleOf, ruleHdrParse, if_neg hlen, hnone, State.finish_fail]
    rfl

variable (hlen : ¬ (len = 0 ∨ s.params.bufBytes < len)) {digits : List Byte}
  (hd : beforeTerminator (s.ibuf.readBytes 0 len) = some digits)
include hlen hd

/-- An empty value, a byte that is no digit, or a value out of range (R88). -/
theorem exec_hdrParse_of_malformed
    (h : digits = [] ∨ ¬ digits.all isDigit = true ∨ undec digits = 0 ∨ 2 ^ s.params.w ≤ undec digits) :
    exec (.hdrParse len) s = .next (s.failed 6#4) := by
  have hrule : ruleHdrParse len s = fail .format := by
    simp only [ruleHdrParse, if_neg hlen, hd]
    by_cases hnil : digits = []
    · rw [if_pos hnil]
    by_cases hall : digits.all isDigit = true
    · rw [if_neg hnil, if_pos hall, if_pos (by tauto)]
    · rw [if_neg hnil, if_neg hall]
  rw [exec_eq, ruleOf, hrule, State.finish_fail]
  rfl

/-- Digits of a value in range load it (R88). -/
theorem exec_hdrParse_of_digits (hnil : digits ≠ []) (hall : digits.all isDigit = true) (h0 : undec digits ≠ 0)
    (hw : undec digits < 2 ^ s.params.w) :
    exec (.hdrParse len) s =
      .next
        { s.succeeded { s.slots with suf := undec digits } with
          consumed := BitVec.ofNat 16 (digits.length + 1) } := by
  have hrange : ¬ (undec digits = 0 ∨ 2 ^ s.params.w ≤ undec digits) := by omega
  simp only [exec_eq, ruleOf, ruleHdrParse, if_neg hlen, hd, if_neg hnil, if_pos hall, if_neg hrange,
    State.finish_succeed]
  rfl

end

/-- The value of a record is what stands before the first terminator. -/
theorem beforeTerminator_readBytes {mem : Memory} {i len : Nat} (hi : i < len) (hterm : mem.read i = terminator)
    (hfirst : ∀ j, j < i → mem.read j ≠ terminator) :
    beforeTerminator (mem.readBytes 0 len) = some (mem.readBytes 0 i) := by
  rw [Memory.readBytes_split mem hi, hterm]
  refine beforeTerminator_append fun hmem => ?_
  obtain ⟨j, hj, hread⟩ := Memory.mem_readBytes.1 hmem
  exact hfirst j hj hread

theorem all_isDigit_readBytes_iff (mem : Memory) (len : Nat) :
    (mem.readBytes 0 len).all isDigit = true ↔
      ∀ j, j < len → 0x30 ≤ (mem.read j).toNat ∧ (mem.read j).toNat ≤ 0x39 := by
  simp only [List.all_eq_true, Memory.mem_readBytes, isDigit_iff]
  exact ⟨fun h j hj => h _ ⟨j, hj, rfl⟩, fun h b ⟨j, hj, hb⟩ => hb ▸ h j hj⟩

/-- Settles O45: the words by their fields, and the ends of the rule by the first terminator and the bytes before it. -/
theorem hdrParseLoadsTheValue : Obligations.HdrParseLoadsTheValue := by
  refine ⟨lenWords_of_opcode (fun _ => rfl) fun _ => rfl, fun s len =>
    ⟨exec_hdrParse_of_bad_len, exec_hdrParse_of_no_terminator, fun i hbuf hi hterm hfirst => ?_⟩⟩
  have hlen : ¬ (len = 0 ∨ s.params.bufBytes < len) := by omega
  have hd := beforeTerminator_readBytes hi hterm hfirst
  refine ⟨?_, fun ⟨j, hj, hbyte⟩ => ?_, fun hdigits => ⟨fun hrange => ?_, fun h0 hw => ?_⟩⟩
  · rintro rfl
    exact exec_hdrParse_of_malformed hlen hd (.inl rfl)
  · refine exec_hdrParse_of_malformed hlen hd (.inr (.inl fun hall => ?_))
    have := (all_isDigit_readBytes_iff _ _).1 hall j hj
    omega
  · rw [← undec_readBytes] at hrange
    exact exec_hdrParse_of_malformed hlen hd (.inr (.inr hrange))
  · rw [← undec_readBytes] at h0 hw ⊢
    have hnil : s.ibuf.readBytes 0 i ≠ [] := by
      intro hnil
      rw [hnil] at h0
      exact h0 rfl
    rw [exec_hdrParse_of_digits hlen hd hnil ((all_isDigit_readBytes_iff _ _).2 hdigits) h0 hw,
      Memory.readBytes_length]

/-! ## The header round trip (R90) -/

theorem terminator_not_mem_dec (v : Nat) : terminator ∉ dec v := fun h =>
  absurd (dec_isDigit v _ h) (by decide)

/-- Settles O47: the digits contain no terminator and read back as SUF, which is positive and fits its slot. -/
theorem headerRecordRoundTrips : Obligations.HeaderRecordRoundTrips := by
  intro s t u len hs hparams hv h0 ht hagree hle hbuf
  have hfits := hs.headerRecord_length_le .suf
  obtain ⟨-, ⟨-, hmax, -⟩, -⟩ := hs.legal
  rw [exec_hdrEmit_of_fits hv h0 hfits] at ht
  cases ht
  have houtlen : (BitVec.ofNat 16 (headerRecord (s.slot .suf)).length).toNat = (headerRecord (s.slot .suf)).length := by
    rw [BitVec.toNat_ofNat, Nat.mod_eq_of_lt (by omega)]
  simp only [houtlen] at hagree hle
  have hd : beforeTerminator (u.ibuf.readBytes 0 len) = some (dec (s.slot .suf)) := by
    rw [← Nat.add_sub_cancel' hle, Memory.readBytes_add, Memory.readBytes_of_agree hs.obufForm hagree, headerRecord,
      List.append_assoc]
    exact beforeTerminator_append (terminator_not_mem_dec _)
  have hlen : ¬ (len = 0 ∨ u.params.bufBytes < len) := by
    rw [headerRecord_length] at hle
    omega
  have hexec := exec_hdrParse_of_digits hlen hd (dec_ne_nil h0) (all_isDigit_dec _) (by rwa [undec_dec])
    (by rw [undec_dec, hparams]; exact hs.slots .suf)
  refine ⟨_, hexec, rfl, undec_dec _, ?_⟩
  rw [headerRecord_length]

end Sys2Proof.Machine
end

section
/-! SUPPORT. The system's control: the write of CTRL, which resets the block or writes IRQ_EN (R22, R92), and the
command NOP (R91). -/

namespace Sys2Proof.Machine

/-! ## The write of CTRL (R22, R92) -/

theorem State.writeCtrl_of_softReset {v : Word} (h : v.toNat / 2 % 2 = 1) (s : State) :
    s.writeCtrl v = s.resetBlock := by
  have hbit : wordBit v 1 = true := by rw [wordBit_eq, pow_one, decide_eq_true h]
  rw [State.writeCtrl, if_pos hbit]

theorem State.writeCtrl_of_not_softReset {v : Word} (h : v.toNat / 2 % 2 = 0) (s : State) :
    s.writeCtrl v = { s with irqEn := decide (v.toNat % 2 = 1) } := by
  have hbit : ¬ wordBit v 1 = true := by
    rw [wordBit_eq, pow_one, decide_eq_true_eq]
    omega
  rw [State.writeCtrl, if_neg hbit, wordBit_eq, pow_zero, Nat.div_one]

/-- The step of a write of CTRL, which the busy rule always lets through (R47). -/
theorem step_presents_writeCtrl (s : State) (v : Word) (rest : List Event) :
    step (s.presents 0x0008 4 (.write v) rest) =
      .next { State.writeCtrl { s with input := rest, reply := none } v with reply := some (.writeDone false) } :=
  step_presents_write s (t := .ctrl) (by norm_num) rfl rfl rfl (.inr rfl) v rest

/-- Settles O15: CTRL takes the write in every state, and SOFT_RESET selects which of its two effects it has. -/
theorem softResetIsTheReset : Obligations.SoftResetIsTheReset := by
  intro s v rest
  rw [step_presents_writeCtrl]
  constructor <;> intro hbit
  · rw [State.writeCtrl_of_softReset hbit]
    rfl
  · rw [State.writeCtrl_of_not_softReset hbit]

/-! ## NOP (R91) -/

/-- NOP's rule stages nothing, so its completion step changes STATUS alone. -/
theorem exec_nop (s : State) : exec .nop s = .next (s.succeeded s.slots) := by
  rw [exec_eq, ruleOf, ruleNop, State.finish_succeed]
  rfl

/-- Settles O25: the word by its fields, and the one end of the rule. -/
theorem nopOnlyCompletes : Obligations.NopOnlyCompletes :=
  ⟨onlyWord_of_not_usesLen (i := .nop) rfl, exec_nop⟩

end Sys2Proof.Machine
end

section
/-! SUPPORT. Errors and exceptions: what a command's end shows of its rule's end (R52, R96 to R98), with which errors a
count stays in MATCHES (R68, R97), and a reset and a completion in either order (R101). -/

namespace Sys2Proof.Machine

/-! ## The rule's end as STATUS shows it (R52, R96, R97) -/

/-- A completion step leaves an idle engine and shows a code of R96, with ERR if it is not 0. -/
theorem State.finish_reports (s : State) (r : RuleEnd) :
    (s.finish r).phase = .idle ∧ (s.finish r).staged = none ∧ (s.finish r).status.done = true ∧
      (s.finish r).status.errcode.toNat ≤ 7 ∧
      ((s.finish r).status.errcode ≠ 0#4 → (s.finish r).status.err = true) := by
  cases hend : r.ending with
  | raise e =>
    rw [State.finish_of_raise hend]
    exact ⟨rfl, rfl, rfl, e.code_le, fun _ => rfl⟩
  | complete ws =>
    rw [State.finish_of_complete hend]
    exact ⟨rfl, rfl, rfl, Nat.zero_le _, fun hcode => absurd rfl hcode⟩

/-- Settles O9: a command is its rule and the completion step, which leaves the engine idle whatever the rule's end. -/
theorem noCommandIsFatal : Obligations.NoCommandIsFatal := fun i s => ⟨_, exec_eq i s, s.finish_reports _⟩

/-- Only a rule that raises an error ends with a code. -/
theorem RuleEnd.raises_of_errcode {s : State} {r : RuleEnd} (h : (s.finish r).status.errcode ≠ 0#4) :
    ∃ e, r.ending = .raise e := by
  cases hend : r.ending with
  | raise e => exact ⟨e, rfl⟩
  | complete ws =>
    rw [State.finish_of_complete hend] at h
    exact absurd rfl h

/-! ## Errors after the counting step (R68, R85, R97) -/

/-- Once `select` has counted, its one error is DisambiguationError. -/
theorem Strategy.select_error_of_counted {st : Strategy} {cands : List Nat} {e : Err}
    (hcount : (st.select cands).counted ≠ none) (h : (st.select cands).value = .error e) : e = .disambiguation := by
  rw [Strategy.select] at hcount h
  split at h
  · split at h <;> cases h
    rfl
  · next hparam =>
    rw [if_neg hparam] at hcount
    exact absurd rfl hcount

/-- The decryption of an integer counts in `select`, so an error after the count is that of `select`. -/
theorem State.decryptInteger_error_of_counted {s : State} {c : Nat} {e : Err}
    (hcount : (s.decryptInteger c).counted ≠ none) (h : (s.decryptInteger c).value = .error e) :
    e = .disambiguation := by
  by_cases hkey : s.slot .p % 4 = 3 ∧ s.slot .q % 4 = 3
  · obtain ⟨hp, hq⟩ := hkey
    rw [State.decryptInteger_eq c hp hq] at hcount h
    split at h
    · next hcombine =>
      rw [hcombine] at hcount
      exact absurd rfl hcount
    · next k hcombine =>
      rw [hcombine] at hcount
      simp only at h
      split at h
      · next hselect =>
        cases h
        exact Strategy.select_error_of_counted hcount hselect
      · cases h
  · rw [State.decryptInteger_key c hkey] at hcount
    exact absurd rfl hcount

/-- Only the rules of UNPAD, DECRYPT and DECBLK have a counting step (R68): every branch of another is a `fail` or a
`succeed`. -/
theorem ruleOf_counted_cases (i : Instr) (s : State) :
    (ruleOf i s).counted = none ∨ i = .unpad ∨ i = .decrypt ∨ ∃ len, i = .decblk len := by
  cases i with
  | unpad => exact .inr (.inl rfl)
  | decrypt => exact .inr (.inr (.inl rfl))
  | decblk len => exact .inr (.inr (.inr ⟨len, rfl⟩))
  | nop => exact .inl rfl
  | egcd =>
    left
    rw [ruleOf, ruleEgcd]
    split <;> rfl
  | pad =>
    left
    rw [ruleOf, rulePad]
    repeat' split
    all_goals rfl
  | modsqr =>
    left
    rw [ruleOf, ruleModsqr]
    repeat' split
    all_goals rfl
  | sqrt =>
    left
    rw [ruleOf, ruleSqrt]
    split <;> rfl
  | crt =>
    left
    rw [ruleOf, ruleCrt]
    split <;> rfl
  | encrypt =>
    left
    rw [ruleOf, ruleEncrypt]
    split <;> rfl
  | encblk len =>
    left
    rw [ruleOf, ruleEncblk]
    repeat' split
    all_goals rfl
  | hdrEmit =>
    left
    rw [ruleOf, ruleHdrEmit]
    repeat' split
    all_goals rfl
  | hdrParse len =>
    left
    rw [ruleOf, ruleHdrParse]
    repeat' split
    all_goals rfl

/-- A rule that has counted raises DisambiguationError, or it is DECBLK's with the plaintext too long (R85). -/
theorem ruleOf_raise_of_counted {i : Instr} {s : State} {e : Err} (hcount : (ruleOf i s).counted ≠ none)
    (h : (ruleOf i s).ending = .raise e) : e = .disambiguation ∨ (e = .format ∧ ∃ len, i = .decblk len) := by
  obtain hnone | rfl | rfl | ⟨len, rfl⟩ := ruleOf_counted_cases i s
  · exact absurd hnone hcount
  · simp only [ruleOf, ruleUnpad] at hcount h
    split at h <;> cases h
    next hselect => exact .inl (Strategy.select_error_of_counted hcount hselect)
  · simp only [ruleOf, ruleDecrypt] at hcount h
    split at h <;> cases h
    next hinteger => exact .inl (State.decryptInteger_error_of_counted hcount hinteger)
  · rw [ruleOf, ruleDecblk] at hcount h
    split at h
    · next hchunk =>
      rw [if_pos hchunk] at hcount
      split at h
      · cases h
        exact .inr ⟨rfl, len, rfl⟩
      · next hnarrow =>
        rw [if_neg hnarrow] at hcount
        simp only at h
        split at h
        · next hinteger =>
          cases h
          exact .inl (State.decryptInteger_error_of_counted hcount hinteger)
        · split at h <;> cases h
          exact .inr ⟨rfl, len, rfl⟩
    · cases h
      exact .inr ⟨rfl, len, rfl⟩

/-- Settles O50: a code is that of a raised error, which commits nothing; MATCHES changes only if the rule counted. -/
theorem failingCommandsChangeOnlyStatus : Obligations.FailingCommandsChangeOnlyStatus := by
  intro i s t ht hcode
  rw [exec_eq] at ht
  cases ht
  obtain ⟨e, hend⟩ := RuleEnd.raises_of_errcode hcode
  rw [State.finish_of_raise hend]
  refine ⟨⟨_, rfl⟩, fun hchanged => ?_⟩
  have hcount : (ruleOf i s).counted ≠ none := fun hnone => hchanged (by rw [hnone]; rfl)
  obtain rfl | ⟨rfl, hdecblk⟩ := ruleOf_raise_of_counted hcount hend
  · exact .inl rfl
  · exact .inr ⟨rfl, hdecblk⟩

/-! ## Reset and completion (R101, R112) -/

/-- The step of the reset input. -/
theorem step_resetInput {s : State} {rest : List Event} (h : s.input = .resetInput :: rest) :
    step s = .next { State.resetWith s.params with input := rest } := by
  rw [step, h]
  rfl

/-- The engine's turn of an idle block changes nothing but the schedule and the bus answer. -/
theorem step_engineTurn_idle {s : State} (hturn : s.EngineTurn) (hidle : s.phase = .idle) :
    step s = .next { s with input := s.input.tail, reply := none } := by
  rw [step_of_engineTurn hturn, completeTurn_idle (s := { s with input := s.input.tail, reply := none }) hidle]

/-- Settles O16: the reset drops whatever the completion committed, and a completion turn after the reset finds the
engine idle. -/
theorem resetAndCompletionCommute : Obligations.ResetAndCompletionCommute := by
  intro s rest hb
  refine ⟨_, _, _, step_engineTurn (s := { s with input := .complete :: .resetInput :: rest }) (.inr ⟨_, rfl⟩) hb,
    step_resetInput rfl, ?_, step_engineTurn_idle (.inr ⟨rest, rfl⟩) rfl, rfl⟩
  rw [State.finish_frame]
  exact step_resetInput rfl

end Sys2Proof.Machine
end

section
/-! SUPPORT. Reset and the engine's liveness: the reset state is sound and holds the values of R112, the defaults of R5
are legal, and a running command ends at the engine's turn (R118). -/

namespace Sys2Proof.Machine

/-! ## The reset state (R5, R18, R112) -/

/-- R5: DIGITS_W is at most 15 for every 48 bits of W, because 2^48 is below 10^15. -/
theorem digitsW_le {p : Params} {n : Nat} (hw : p.w = 48 * n) : p.digitsW ≤ 15 * n := by
  rw [Params.digitsW, dec_length_le_iff, hw]
  calc 2 ^ (48 * n) - 1
      < 2 ^ (48 * n) := Nat.sub_one_lt (Nat.two_pow_pos _).ne'
    _ = (2 ^ 48) ^ n := pow_mul 2 48 n
    _ ≤ (10 ^ 15) ^ n := Nat.pow_le_pow_left (by norm_num) n
    _ = 10 ^ (15 * n) := (pow_mul 10 15 n).symm

/-- The defaults of R5 are a legal choice of the parameters. -/
theorem legal_default : Params.default.legal := by
  have hdigits : Params.default.digitsW ≤ 15 * 64 := digitsW_le rfl
  have hbuf : max (3072 / 8) (Params.default.digitsW + 1) ≤ 1024 := by omega
  exact ⟨by decide, ⟨by decide, by decide, hbuf⟩, by decide⟩

/-- Settles O13: the reset state is sound for legal parameters, and the defaults are legal. -/
theorem resetMeetsTheInvariant : Obligations.ResetMeetsTheInvariant :=
  ⟨fun _ => State.inv_resetWith, State.inv_resetWith legal_default⟩

theorem State.slot_resetWith (p : Params) (k : Slot) : (State.resetWith p).slot k = 0 := by cases k <;> rfl

/-- The reset value of PADCFG as the host reads it: VARIANT 0 and K 16 (R25, R112). -/
theorem Padcfg.word_reset : Padcfg.word ⟨0#2, 16#16⟩ = 0x00100000#32 := by decide

/-- Settles O14: the step of the reset input answers the reset state of the block's parameters, which holds each value. -/
theorem resetInputSetsEveryResetValue : Obligations.ResetInputSetsEveryResetValue := by
  intro s rest
  refine ⟨{ State.resetWith s.params with input := rest }, step_resetInput rfl, rfl, rfl,
    State.slot_resetWith s.params, fun _ => rfl, fun _ => rfl, Padcfg.word_reset, ?_⟩
  exact ⟨rfl, rfl, rfl, rfl, rfl, rfl, rfl, rfl, rfl, rfl, rfl, rfl⟩

/-! ## Liveness (R52, R118) -/

theorem State.finish_cmd (s : State) (r : RuleEnd) : (s.finish r).cmd = s.cmd := by rw [State.finish_frame]

/-- Settles O8: the engine's turn takes the completion step, which ends the command whatever its rule's end. -/
theorem busyEngineAlwaysCompletes : Obligations.BusyEngineAlwaysCompletes := by
  intro s hb hturn
  obtain ⟨hidle, hstaged, hdone, -⟩ :=
    State.finish_reports { s with input := s.input.tail, reply := none } (s.staged.getD (wordRule s.cmd s))
  exact ⟨_, step_engineTurn hturn hb, hidle, hstaged, hdone, State.finish_cmd _ _⟩

end Sys2Proof.Machine
end
